-- ==== Sys2Proof/Word.lean ====
section
/-! DEFINITION. The words of the machine: bytes, quadwords and 128-bit registers (spec 00_scope.md R7, R8). -/

namespace Sys2Proof

/-- A byte of memory or of an instruction (20_memory.md R30). -/
abbrev Byte := BitVec 8

/-- A quadword: 64 bits (00_scope.md R8). Linear and physical addresses are held in one. -/
abbrev Quad := BitVec 64

/-- The content of an XMM register: 128 bits (10_state.md R10). -/
abbrev DQuad := BitVec 128

/-- The number of an XMM or general-purpose register, the REX bit its most significant (30_encoding.md R60, R68). -/
abbrev RegNo := BitVec 4

end Sys2Proof
end

