-- ==== Sys2Proof/Config.lean ====
section
/-! DEFINITION. What an implementation fixes (spec 00_scope.md R6, 92_eei_decisions.md): the constants, and the record of the OPEN parameters that State carries as plain data. -/

namespace Sys2Proof

/-- The OPEN parameters that are single values. A state carries them, so that a statement about every state is a
statement about every choice of them; no step changes them. DESIGN CHOICE (log 6). -/
structure Params where
  /-- `has_sse2`: CPUID.01H:EDX.SSE2[bit 26] (10_state.md R16, D27). -/
  hasSse2 : Bool
  /-- `has_intel64`: whether IA-32e mode exists (D32). -/
  hasIntel64 : Bool
  /-- `VA_BITS`: the number of implemented linear-address bits (20_memory.md R35, D30). -/
  vaBits : Nat
  /-- `ac_before_pf`: whether #AC is reported before #PF (60_exceptions.md R111, D14). -/
  acBeforePf : Bool
  deriving DecidableEq, Repr

/-- The defaults of the parameter table of 92_eei_decisions.md. -/
def Config.defaultParams : Params :=
  { hasSse2 := true, hasIntel64 := true, vaBits := 48, acBeforePf := false }

/-- `MAX_INSN_BYTES` (00_scope.md R6, 30_encoding.md R73, D22). -/
def Config.maxInsnBytes : Nat := 15

/-- `OPERAND_BYTES`: the size of the memory operand (00_scope.md R6, 20_memory.md R38). -/
def Config.operandBytes : Nat := 8

/-- What a physical address that memory does not list reads as. DESIGN CHOICE, unsafe (log 5). -/
def Config.unlistedByte : Byte := 0#8

/-- RDX after reset: R27 calls it a parameter. DESIGN CHOICE, unsafe (log 3). -/
def Config.processorSignature : Quad := 0#64

end Sys2Proof
end

