-- ==== Sys2Proof/Syntax.lean ====
section
/-! DEFINITION. The instructions of the opcode table (spec opcode_table.json, 30_encoding.md R74, R77) as decoded: operands, addressing forms and lengths. -/

namespace Sys2Proof

/-- The five operating modes (10_state.md R18). -/
inductive Mode where
  | real | v86 | prot | compat | long64
  deriving DecidableEq, Repr

/-- The address-size attribute (10_state.md R19). -/
inductive AddrSize where
  | a16 | a32 | a64
  deriving DecidableEq, Repr

/-- The six segment registers, in the order of their sreg numbers (10_state.md R15). -/
inductive Seg where
  | es | cs | ss | ds | fs | gs
  deriving DecidableEq, Repr

/-- What the effective address is computed from (30_encoding.md R71, R77 `AddrForm`). The displacement is held
sign-extended to 64 bits; the sum is cut to the address size, so the extension does not show (log 35). -/
structure AddrForm where
  size : AddrSize
  base : Option RegNo
  /-- Index register and scale exponent (R67: the factor is `2^scale`). -/
  index : Option (RegNo × BitVec 2)
  disp : Quad
  /-- RIP-relative: the base is the address of the next instruction (R68). -/
  ipRel : Bool
  deriving DecidableEq, Repr

/-- A memory operand: the segment that qualifies it and its addressing form (30_encoding.md R78). -/
structure MemOp where
  seg : Seg
  form : AddrForm
  deriving DecidableEq, Repr

/-- Addressing code W: an XMM register or a memory operand (00_scope.md R7). -/
inductive XmmOrMem where
  | xmm (r : RegNo)
  | mem (m : MemOp)
  deriving DecidableEq, Repr

/-- One constructor per row of the opcode table. `len` is the instruction's length in bytes (30_encoding.md R72),
`lock` records an F0H byte (R77). -/
inductive Instr where
  /-- `66 0F 16 /r`: MOVHPD xmm, m64 (40_movhpd.md R90). -/
  | movhpdLoad (xmm : RegNo) (m : MemOp) (len : Nat) (lock : Bool)
  /-- `66 0F 17 /r`: MOVHPD m64, xmm (R91). -/
  | movhpdStore (xmm : RegNo) (m : MemOp) (len : Nat) (lock : Bool)
  /-- `66 0F 16` with mod = 11B (30_encoding.md R75 (a)). -/
  | reserved66Load (reg rm : BitVec 3) (len : Nat)
  /-- `66 0F 17` with mod = 11B (R75 (a)). -/
  | reserved66Store (reg rm : BitVec 3) (len : Nat)
  /-- `F2 0F 16`, any ModR/M (R75 (b)). -/
  | reservedF2Load (modrm : Byte) (len : Nat)
  /-- `F2 0F 17`, any ModR/M (R75 (c)). -/
  | reservedF2Store (modrm : Byte) (len : Nat)
  /-- `F3 0F 17`, any ModR/M (R75 (c)). -/
  | reservedF3Store (modrm : Byte) (len : Nat)
  /-- `0F 17` without 66, F2, F3 and mod = 11B (R75 (d)). -/
  | reservedPlainStore (reg rm : BitVec 3) (len : Nat)
  /-- `0F 16 /r`, memory: MOVHPS xmm, m64 (R76). -/
  | movhpsLoad (xmm : RegNo) (m : MemOp) (len : Nat) (lock : Bool)
  /-- `0F 16` with mod = 11B: MOVLHPS xmm1, xmm2 (R76). -/
  | movlhps (dst src : RegNo) (len : Nat) (lock : Bool)
  /-- `0F 17 /r`, memory: MOVHPS m64, xmm (R76). -/
  | movhpsStore (xmm : RegNo) (m : MemOp) (len : Nat) (lock : Bool)
  /-- `F3 0F 16 /r`: MOVSHDUP xmm1, xmm2/m128 (R76). -/
  | movshdup (dst : RegNo) (src : XmmOrMem) (len : Nat) (lock : Bool)
  deriving DecidableEq, Repr

/-- The length of the instruction in bytes (30_encoding.md R72). -/
def Instr.len : Instr → Nat
  | .movhpdLoad _ _ len _ | .movhpdStore _ _ len _ | .movhpsLoad _ _ len _ | .movhpsStore _ _ len _ => len
  | .reserved66Load _ _ len | .reserved66Store _ _ len | .reservedPlainStore _ _ len => len
  | .reservedF2Load _ len | .reservedF2Store _ len | .reservedF3Store _ len => len
  | .movlhps _ _ len _ | .movshdup _ _ len _ => len

/-- The default address size of a mode (10_state.md R19, the column without 67H). -/
def Mode.defaultAddrSize (mode : Mode) (csD : Bool) : AddrSize :=
  match mode with
  | .long64 => .a64
  | .real | .v86 | .prot | .compat => if csD then .a32 else .a16

/-- The address size that the 67H byte selects (10_state.md R19, the column with 67H). -/
def Mode.otherAddrSize (mode : Mode) (csD : Bool) : AddrSize :=
  match mode with
  | .long64 => .a32
  | .real | .v86 | .prot | .compat => if csD then .a16 else .a32

/-- The segment of an addressing form without an override: SS when the base register is BP, EBP, RBP, ESP or RSP,
DS otherwise (30_encoding.md R65 to R68 last columns, R70). -/
def AddrForm.defaultSeg (f : AddrForm) : Seg :=
  if f.base = some 4#4 ∨ f.base = some 5#4 then .ss else .ds

end Sys2Proof
end

