-- ==== Sys2Proof/WellFormed.lean ====
section
/-! DEFINITION. Which instructions an encoding exists for, in a given mode (spec 30_encoding.md R51 to R73): register numbers, addressing forms, segments and lengths that some byte sequence stands for. -/

namespace Sys2Proof

/-- Whether a value is the sign extension of its low byte (30_encoding.md R69: a disp8 says it). -/
def fitsDisp8 (d : Quad) : Bool := (d.setWidth 8).signExtend 64 == d

/-- Whether a value is the sign extension of its low sixteen bits (R69). -/
def fitsDisp16 (d : Quad) : Bool := (d.setWidth 16).signExtend 64 == d

/-- Whether a value is the sign extension of its low thirty-two bits (R69). -/
def fitsDisp32 (d : Quad) : Bool := (d.setWidth 32).signExtend 64 == d

/-- A register number that the mode can name (10_state.md R10, R13). -/
def regNameable (mode : Mode) (r : RegNo) : Bool := mode == .long64 || r.toNat < 8

/-- The r/m number of a 16-bit register form (30_encoding.md R65), `none` where the table has no such row. -/
def rm16Of (base : Option RegNo) (index : Option (RegNo × BitVec 2)) : Option (BitVec 3) :=
  if base = some 3#4 ∧ index = some (6#4, 0#2) then some 0#3
  else if base = some 3#4 ∧ index = some (7#4, 0#2) then some 1#3
  else if base = some 5#4 ∧ index = some (6#4, 0#2) then some 2#3
  else if base = some 5#4 ∧ index = some (7#4, 0#2) then some 3#3
  else if base = some 6#4 ∧ index = none then some 4#3
  else if base = some 7#4 ∧ index = none then some 5#3
  else if base = some 5#4 ∧ index = none then some 6#3
  else if base = some 3#4 ∧ index = none then some 7#3
  else none

/-- Whether the form is one that the ModR/M and SIB tables of its size hold (30_encoding.md R65 to R68). -/
def AddrForm.encodable (mode : Mode) (f : AddrForm) : Bool :=
  match f.size with
  | .a16 =>
      mode != .long64 && !f.ipRel && fitsDisp16 f.disp
        && ((f.base == none && f.index == none) || (rm16Of f.base f.index).isSome)
  | .a32 | .a64 =>
      fitsDisp32 f.disp
        && (match f.base with | some b => regNameable mode b | none => true)
        && (match f.index with | some (i, _) => regNameable mode i && i != 4#4 | none => true)
        && (!f.ipRel || (mode == .long64 && f.base == none && f.index == none))

/-- Whether an SIB byte is needed (30_encoding.md R67, R68). -/
def AddrForm.needsSib (mode : Mode) (f : AddrForm) : Bool :=
  match f.size with
  | .a16 => false
  | .a32 | .a64 =>
      !f.ipRel &&
        match f.base, f.index with
        | none, none => mode == .long64
        | some b, none => b.setWidth 3 == 4#3
        | _, some _ => true

/-- The fewest displacement bytes that say the form (30_encoding.md R65 to R69). -/
def AddrForm.dispBytes (f : AddrForm) : Nat :=
  match f.size with
  | .a16 =>
      if f.base = none then 2
      else if f.disp = 0#64 ∧ rm16Of f.base f.index ≠ some 6#3 then 0
      else if fitsDisp8 f.disp then 1 else 2
  | .a32 | .a64 =>
      match f.base with
      | none => 4
      | some b =>
          if f.disp = 0#64 ∧ b.setWidth 3 ≠ 5#3 then 0
          else if fitsDisp8 f.disp then 1 else 4

/-- Whether a register number takes its fourth bit from a REX byte (30_encoding.md R59). -/
def highReg (r : RegNo) : Bool := r.getLsbD 3

/-- Whether the form needs REX.X or REX.B. -/
def AddrForm.needsRex (f : AddrForm) : Bool :=
  (match f.base with | some b => highReg b | none => false) ||
    (match f.index with | some (i, _) => highReg i | none => false)

/-- The bytes of a memory form without segment overrides and mandatory bytes: 67H, F0H and REX where needed, the two
opcode bytes, ModR/M, SIB and displacement (30_encoding.md R72). -/
def MemOp.bareLength (mode : Mode) (csD : Bool) (xmm : RegNo) (m : MemOp) (lock : Bool) : Nat :=
  (if m.form.size = mode.defaultAddrSize csD then 0 else 1) + (if lock then 1 else 0)
    + (if highReg xmm || m.form.needsRex then 1 else 0) + 3
    + (if m.form.needsSib mode then 1 else 0) + m.form.dispBytes

/-- Whether the segment can be the operand's: any outside 64-bit mode, FS, GS or the default in it
(30_encoding.md R56, R70). -/
def MemOp.segNameable (mode : Mode) (m : MemOp) : Bool :=
  mode != .long64 || m.seg == .fs || m.seg == .gs || m.seg == m.form.defaultSeg

/-- A memory form some byte sequence stands for: `mandatory` is the number of mandatory bytes of the row (0 or 1). A
segment that is not the default takes at least one override byte; override bytes fill the rest of the length. -/
def MemOp.wf (mode : Mode) (csD : Bool) (mandatory : Nat) (xmm : RegNo) (m : MemOp) (len : Nat) (lock : Bool) : Bool :=
  regNameable mode xmm && m.form.encodable mode
    && (m.form.size == mode.defaultAddrSize csD || m.form.size == mode.otherAddrSize csD)
    && m.segNameable mode
    && decide (mandatory + m.bareLength mode csD xmm lock
        + (if m.seg = m.form.defaultSeg then 0 else 1) ≤ len)
    && decide (len ≤ Config.maxInsnBytes)

/-- A register form some byte sequence stands for (30_encoding.md R59: REX.R and REX.B extend the two numbers). -/
def wfRegs (mode : Mode) (mandatory : Nat) (dst src : RegNo) (len : Nat) (lock : Bool) : Bool :=
  regNameable mode dst && regNameable mode src
    && decide (mandatory + (if lock then 1 else 0) + (if highReg dst || highReg src then 1 else 0) + 3 ≤ len)
    && decide (len ≤ Config.maxInsnBytes)

/-- A reserved row's length: the bytes up to and with the ModR/M byte (log 25). -/
def wfReserved (mandatory len : Nat) : Bool :=
  decide (mandatory + 3 ≤ len) && decide (len ≤ Config.maxInsnBytes)

/-- Whether some byte sequence stands for the instruction in the mode. -/
def Instr.wf (mode : Mode) (csD : Bool) : Instr → Bool
  | .movhpdLoad x m len lock => m.wf mode csD 1 x len lock
  | .movhpdStore x m len lock => m.wf mode csD 1 x len lock
  | .reserved66Load _ _ len => wfReserved 1 len
  | .reserved66Store _ _ len => wfReserved 1 len
  | .reservedF2Load _ len => wfReserved 1 len
  | .reservedF2Store _ len => wfReserved 1 len
  | .reservedF3Store _ len => wfReserved 1 len
  | .reservedPlainStore _ _ len => wfReserved 0 len
  | .movhpsLoad x m len lock => m.wf mode csD 0 x len lock
  | .movlhps d s len lock => wfRegs mode 0 d s len lock
  | .movhpsStore x m len lock => m.wf mode csD 0 x len lock
  | .movshdup d (.xmm s) len lock => wfRegs mode 1 d s len lock
  | .movshdup d (.mem m) len lock => m.wf mode csD 1 d len lock

end Sys2Proof
end

