-- ==== Sys2Proof/Decode.lean ====
section
/-! DEFINITION. The decoder, total on any bytes, and the encoder after it (spec 30_encoding.md R50 to R77). -/

namespace Sys2Proof

/-- What the decoder answers (30_encoding.md R77). R77's `Reserved` and named `OtherInstruction` answers are
constructors of `Instr`, so that each row of the opcode table has its own. -/
inductive Decoded where
  | instr (i : Instr)
  /-- R73: fifteen bytes did not hold the whole instruction; executes as #GP(0). -/
  | tooLong
  /-- The bytes end before the instruction does, and there are fewer than fifteen: more must be fetched. -/
  | incomplete
  /-- R77 (2): the opcode is not 0F 16 or 0F 17. -/
  | otherOpcode
  deriving DecidableEq, Repr

/-! ## Prefixes -/

/-- F2H or F3H, whichever came last (30_encoding.md R54). -/
inductive Rep where
  | f2 | f3
  deriving DecidableEq, Repr

/-- The bytes before the opcode, collected as a set (30_encoding.md R52, R58). -/
structure Prefixes where
  /-- The last segment override that has an effect in the mode. -/
  seg : Option Seg
  opSize : Bool
  addrSize : Bool
  lock : Bool
  rep : Option Rep
  /-- The REX bits W R X B of a REX byte that stands directly before the opcode (R58, D8). -/
  rex : Option (BitVec 4)
  deriving DecidableEq, Repr

/-- No prefix byte read yet. -/
def Prefixes.empty : Prefixes :=
  { seg := none, opSize := false, addrSize := false, lock := false, rep := none, rex := none }

/-- The segment that an override byte names (30_encoding.md R52). -/
def overrideSeg (b : Byte) : Option Seg :=
  if b = 0x26#8 then some .es
  else if b = 0x2E#8 then some .cs
  else if b = 0x36#8 then some .ss
  else if b = 0x3E#8 then some .ds
  else if b = 0x64#8 then some .fs
  else if b = 0x65#8 then some .gs
  else none

/-- Whether a segment override has an effect: in 64-bit mode only FS and GS have one (30_encoding.md R56, D10). -/
def overrideCounts (long : Bool) (sg : Seg) : Bool := !long || sg == .fs || sg == .gs

/-- One legacy prefix byte added to those read (30_encoding.md R52 to R57); `none` when the byte is not one. A REX byte
before it no longer counts (R58). -/
def Prefixes.addLegacy (long : Bool) (p : Prefixes) (b : Byte) : Option Prefixes :=
  if b = 0x66#8 then some { p with opSize := true, rex := none }
  else if b = 0x67#8 then some { p with addrSize := true, rex := none }
  else if b = 0xF0#8 then some { p with lock := true, rex := none }
  else if b = 0xF2#8 then some { p with rep := some .f2, rex := none }
  else if b = 0xF3#8 then some { p with rep := some .f3, rex := none }
  else match overrideSeg b with
    | some sg => some { p with seg := if overrideCounts long sg then some sg else p.seg, rex := none }
    | none => none

/-- One byte before the opcode: a legacy prefix, or in 64-bit mode a REX byte 40H to 4FH (30_encoding.md R58). -/
def Prefixes.add (long : Bool) (p : Prefixes) (b : Byte) : Option Prefixes :=
  match p.addLegacy long b with
  | some q => some q
  | none => if long && b.extractLsb' 4 4 == 4#4 then some { p with rex := some (b.extractLsb' 0 4) } else none

/-- The prefixes of a byte sequence and the bytes that follow them (30_encoding.md R72, R77 (1)). -/
def scanPrefixes (long : Bool) : Prefixes → List Byte → Prefixes × List Byte
  | p, [] => (p, [])
  | p, b :: rest =>
    match p.add long b with
    | some q => scanPrefixes long q rest
    | none => (p, b :: rest)

/-- REX.R, REX.X and REX.B; 0 without a REX byte (30_encoding.md R58, R60). REX.W is not used (R59). -/
def Prefixes.rexR (p : Prefixes) : BitVec 1 := (p.rex.getD 0#4).extractLsb' 2 1
def Prefixes.rexX (p : Prefixes) : BitVec 1 := (p.rex.getD 0#4).extractLsb' 1 1
def Prefixes.rexB (p : Prefixes) : BitVec 1 := (p.rex.getD 0#4).extractLsb' 0 1

/-- The prefix columns of the opcode map (30_encoding.md R74). -/
inductive Column where
  | plain | p66 | pF3 | pF2
  deriving DecidableEq, Repr

/-- F2H and F3H win over 66H, the last of them over an earlier one (30_encoding.md R54, D7). -/
def Prefixes.column (p : Prefixes) : Column :=
  match p.rep with
  | some .f3 => .pF3
  | some .f2 => .pF2
  | none => if p.opSize then .p66 else .plain

/-- The address size of an instruction (10_state.md R19, 30_encoding.md R62). -/
def Prefixes.size (mode : Mode) (csD : Bool) (p : Prefixes) : AddrSize :=
  if p.addrSize then mode.otherAddrSize csD else mode.defaultAddrSize csD

/-! ## ModR/M, SIB and displacement -/

/-- mod, bits 7:6 of ModR/M, and scale, the same bits of SIB (30_encoding.md R50). -/
def topField (b : Byte) : BitVec 2 := b.extractLsb' 6 2
/-- reg of ModR/M, index of SIB: bits 5:3. -/
def midField (b : Byte) : BitVec 3 := b.extractLsb' 3 3
/-- r/m of ModR/M, base of SIB: bits 2:0. -/
def lowField (b : Byte) : BitVec 3 := b.extractLsb' 0 3

/-- A register number: its REX bit before its three encoded bits (30_encoding.md R60, R68). -/
def regNo (rex : BitVec 1) (low : BitVec 3) : RegNo := rex ++ low

/-- A displacement of one byte, sign-extended (30_encoding.md R69), and the bytes after it. -/
def takeDisp8 : List Byte → Option (Quad × List Byte)
  | d0 :: rest => some (d0.signExtend 64, rest)
  | _ => none

/-- A displacement of two bytes, least significant first (R69). -/
def takeDisp16 : List Byte → Option (Quad × List Byte)
  | d0 :: d1 :: rest => some ((d1 ++ d0).signExtend 64, rest)
  | _ => none

/-- A displacement of four bytes, least significant first (R69). -/
def takeDisp32 : List Byte → Option (Quad × List Byte)
  | d0 :: d1 :: d2 :: d3 :: rest => some ((d3 ++ d2 ++ d1 ++ d0).signExtend 64, rest)
  | _ => none

/-- The registers of a 16-bit form (30_encoding.md R65, the rows by r/m). -/
def regs16 (rm : BitVec 3) : RegNo × Option (RegNo × BitVec 2) :=
  if rm = 0#3 then (3#4, some (6#4, 0#2))
  else if rm = 1#3 then (3#4, some (7#4, 0#2))
  else if rm = 2#3 then (5#4, some (6#4, 0#2))
  else if rm = 3#3 then (5#4, some (7#4, 0#2))
  else if rm = 4#3 then (6#4, none)
  else if rm = 5#3 then (7#4, none)
  else if rm = 6#3 then (5#4, none)
  else (3#4, none)

/-- A form from its base, index and displacement. -/
def formOf (size : AddrSize) (base : Option RegNo) (index : Option (RegNo × BitVec 2)) :
    Quad × List Byte → AddrForm × List Byte
  | (disp, rest) => ({ size := size, base := base, index := index, disp := disp, ipRel := false }, rest)

/-- The displacement that mod asks for beside a base register: none, one byte, or `wide` (30_encoding.md R65, R66). -/
def dispByMod (wide : List Byte → Option (Quad × List Byte)) (mod : BitVec 2) (bytes : List Byte) :
    Option (Quad × List Byte) :=
  if mod = 0#2 then some (0#64, bytes) else if mod = 1#2 then takeDisp8 bytes else wide bytes

/-- 16-bit addressing (30_encoding.md R65). -/
def form16 (mod : BitVec 2) (rm : BitVec 3) (bytes : List Byte) : Option (AddrForm × List Byte) :=
  if mod = 0#2 ∧ rm = 6#3 then (takeDisp16 bytes).map (formOf .a16 none none)
  else (dispByMod takeDisp16 mod bytes).map (formOf .a16 (some (regs16 rm).1) (regs16 rm).2)

/-- The SIB byte and what follows it (30_encoding.md R67; with the REX bits, R68). -/
def formSib (size : AddrSize) (p : Prefixes) (mod : BitVec 2) : List Byte → Option (AddrForm × List Byte)
  | [] => none
  | sib :: rest =>
    let i := regNo p.rexX (midField sib)
    let index := if i = 4#4 then none else some (i, topField sib)
    if mod = 0#2 ∧ lowField sib = 5#3 then (takeDisp32 rest).map (formOf size none index)
    else (dispByMod takeDisp32 mod rest).map (formOf size (some (regNo p.rexB (lowField sib))) index)

/-- 32- and 64-bit addressing (30_encoding.md R66, R68). -/
def form32 (size : AddrSize) (long : Bool) (p : Prefixes) (mod : BitVec 2) (rm : BitVec 3) (bytes : List Byte) :
    Option (AddrForm × List Byte) :=
  if rm = 4#3 then formSib size p mod bytes
  else if mod = 0#2 ∧ rm = 5#3 then
    (takeDisp32 bytes).map fun d =>
      ({ size := size, base := none, index := none, disp := d.1, ipRel := long }, d.2)
  else (dispByMod takeDisp32 mod bytes).map (formOf size (some (regNo p.rexB rm)) none)

/-- The addressing form of an instruction and the bytes after it, `none` when the bytes run out
(30_encoding.md R62). -/
def decodeForm (mode : Mode) (csD : Bool) (p : Prefixes) (mod : BitVec 2) (rm : BitVec 3) (bytes : List Byte) :
    Option (AddrForm × List Byte) :=
  match p.size mode csD with
  | .a16 => form16 mod rm bytes
  | .a32 => form32 .a32 (mode == .long64) p mod rm bytes
  | .a64 => form32 .a64 (mode == .long64) p mod rm bytes

/-- The operand's segment: the override, else the default of the form (30_encoding.md R70). -/
def Prefixes.operandSeg (p : Prefixes) (f : AddrForm) : Seg := p.seg.getD f.defaultSeg

/-! ## The opcode map -/

/-- The bytes ran out: too long if there were fifteen (30_encoding.md R77 (1)). -/
def outOfBytes (window : List Byte) : Decoded :=
  if window.length < Config.maxInsnBytes then .incomplete else .tooLong

/-- An instruction with a memory operand; its length is what is gone from the window (30_encoding.md R72). -/
def decodeMem (mode : Mode) (csD : Bool) (window : List Byte) (p : Prefixes) (modrm : Byte) (tail : List Byte)
    (mk : MemOp → Nat → Instr) : Decoded :=
  match decodeForm mode csD p (topField modrm) (lowField modrm) tail with
  | none => outOfBytes window
  | some (f, rest) => .instr (mk ⟨p.operandSeg f, f⟩ (window.length - rest.length))

/-- The cells of the opcode map at 0F 16 (30_encoding.md R74). -/
def decode16 (mode : Mode) (csD : Bool) (window : List Byte) (p : Prefixes) (modrm : Byte) (tail : List Byte) :
    Decoded :=
  let reg := regNo p.rexR (midField modrm)
  let rm := regNo p.rexB (lowField modrm)
  let short := window.length - tail.length
  match p.column with
  | .p66 =>
      if topField modrm = 3#2 then .instr (.reserved66Load (midField modrm) (lowField modrm) short)
      else decodeMem mode csD window p modrm tail fun m len => .movhpdLoad reg m len p.lock
  | .plain =>
      if topField modrm = 3#2 then .instr (.movlhps reg rm short p.lock)
      else decodeMem mode csD window p modrm tail fun m len => .movhpsLoad reg m len p.lock
  | .pF3 =>
      if topField modrm = 3#2 then .instr (.movshdup reg (.xmm rm) short p.lock)
      else decodeMem mode csD window p modrm tail fun m len => .movshdup reg (.mem m) len p.lock
  | .pF2 => .instr (.reservedF2Load modrm short)

/-- The cells of the opcode map at 0F 17 (30_encoding.md R74). -/
def decode17 (mode : Mode) (csD : Bool) (window : List Byte) (p : Prefixes) (modrm : Byte) (tail : List Byte) :
    Decoded :=
  let reg := regNo p.rexR (midField modrm)
  let short := window.length - tail.length
  match p.column with
  | .p66 =>
      if topField modrm = 3#2 then .instr (.reserved66Store (midField modrm) (lowField modrm) short)
      else decodeMem mode csD window p modrm tail fun m len => .movhpdStore reg m len p.lock
  | .plain =>
      if topField modrm = 3#2 then .instr (.reservedPlainStore (midField modrm) (lowField modrm) short)
      else decodeMem mode csD window p modrm tail fun m len => .movhpsStore reg m len p.lock
  | .pF3 => .instr (.reservedF3Store modrm short)
  | .pF2 => .instr (.reservedF2Store modrm short)

/-- The opcode bytes, the ModR/M byte and the cell (30_encoding.md R77 (2), (3)). -/
def decodeOpcode (mode : Mode) (csD : Bool) (window : List Byte) (p : Prefixes) (bytes : List Byte) : Decoded :=
  match bytes with
  | [] => outOfBytes window
  | b :: rest =>
    if b = 0x0F#8 then
      match rest with
      | [] => outOfBytes window
      | op :: rest =>
        if op = 0x16#8 then
          match rest with
          | [] => outOfBytes window
          | modrm :: tail => decode16 mode csD window p modrm tail
        else if op = 0x17#8 then
          match rest with
          | [] => outOfBytes window
          | modrm :: tail => decode17 mode csD window p modrm tail
        else .otherOpcode
    else .otherOpcode

/-- The decoder (30_encoding.md R77), over the at most fifteen bytes at CS:IP. -/
def decode (mode : Mode) (csD : Bool) (bytes : List Byte) : Decoded :=
  let window := bytes.take Config.maxInsnBytes
  let scanned := scanPrefixes (mode == .long64) .empty window
  decodeOpcode mode csD window scanned.1 scanned.2

/-! ## The encoder -/

/-- The override byte of a segment (30_encoding.md R52). -/
def Seg.overrideByte : Seg → Byte
  | .es => 0x26#8
  | .cs => 0x2E#8
  | .ss => 0x36#8
  | .ds => 0x3E#8
  | .fs => 0x64#8
  | .gs => 0x65#8

/-- The bytes of a displacement, least significant first (30_encoding.md R69). -/
def dispToBytes : Nat → Quad → List Byte
  | 0, _ => []
  | n + 1, d => d.setWidth 8 :: dispToBytes n (d >>> 8)

/-- mod for a form with so many displacement bytes beside a base (30_encoding.md R65, R66). -/
def modOfDisp (n : Nat) : BitVec 2 := if n = 0 then 0#2 else if n = 1 then 1#2 else 2#2

/-- The low three bits of a register number. -/
def lowBits (r : RegNo) : BitVec 3 := r.setWidth 3

/-- The index field of an SIB byte: 100B says no index (30_encoding.md R67). -/
def indexField : Option (RegNo × BitVec 2) → BitVec 3
  | none => 4#3
  | some (i, _) => lowBits i

/-- The scale field of an SIB byte. -/
def scaleField : Option (RegNo × BitVec 2) → BitVec 2
  | none => 0#2
  | some (_, s) => s

/-- mod and r/m of a form (30_encoding.md R65 to R68). -/
def AddrForm.modRm (mode : Mode) (f : AddrForm) : BitVec 2 × BitVec 3 :=
  match f.size with
  | .a16 =>
      match f.base with
      | none => (0#2, 6#3)
      | some _ => (modOfDisp f.dispBytes, (rm16Of f.base f.index).getD 0#3)
  | .a32 | .a64 =>
      match f.base with
      | none => (0#2, if f.needsSib mode then 4#3 else 5#3)
      | some b => (modOfDisp f.dispBytes, if f.needsSib mode then 4#3 else lowBits b)

/-- The SIB byte of a form, where it has one (30_encoding.md R67). -/
def AddrForm.sibBytes (mode : Mode) (f : AddrForm) : List Byte :=
  if f.needsSib mode then
    [scaleField f.index ++ indexField f.index ++ (match f.base with | none => 5#3 | some b => lowBits b)]
  else []

/-- A REX byte with W = 0, where one of its bits is needed (30_encoding.md R58, R59). -/
def rexBytes (r x b : Bool) : List Byte :=
  if r || x || b then [4#4 ++ (0#1 ++ BitVec.ofBool r ++ BitVec.ofBool x ++ BitVec.ofBool b)] else []

/-- Prefix bytes before the mandatory one: overrides of the segment to fill the length, 67H, F0H. -/
def fillBytes (pad : Nat) (sg : Seg) (other lock : Bool) : List Byte :=
  List.replicate pad sg.overrideByte ++ (if other then [0x67#8] else []) ++ (if lock then [0xF0#8] else [])

/-- A row with a memory operand (30_encoding.md R51). -/
def encodeMem (mode : Mode) (csD : Bool) (mandatory : List Byte) (op : Byte) (xmm : RegNo) (m : MemOp) (len : Nat)
    (lock : Bool) : List Byte :=
  let f := m.form
  fillBytes (len - (mandatory.length + m.bareLength mode csD xmm lock)) m.seg
      (f.size != mode.defaultAddrSize csD) lock
    ++ mandatory
    ++ rexBytes (highReg xmm) (match f.index with | some (i, _) => highReg i | none => false)
        (match f.base with | some b => highReg b | none => false)
    ++ [0x0F#8, op, (f.modRm mode).1 ++ lowBits xmm ++ (f.modRm mode).2]
    ++ f.sibBytes mode ++ dispToBytes f.dispBytes f.disp

/-- A row with two XMM registers (30_encoding.md R74, mod = 11B). -/
def encodeRegs (mandatory : List Byte) (op : Byte) (dst src : RegNo) (len : Nat) (lock : Bool) : List Byte :=
  let rex := rexBytes (highReg dst) false (highReg src)
  fillBytes (len - (mandatory.length + (if lock then 1 else 0) + rex.length + 3)) .ds false lock
    ++ mandatory ++ rex ++ [0x0F#8, op, 3#2 ++ lowBits dst ++ lowBits src]

/-- A reserved row (30_encoding.md R75). -/
def encodeReserved (mandatory : List Byte) (op modrm : Byte) (len : Nat) : List Byte :=
  fillBytes (len - (mandatory.length + 3)) .ds false false ++ mandatory ++ [0x0F#8, op, modrm]

/-- One byte sequence of a well-formed instruction, of its length (30_encoding.md R51, R74). -/
def encode (mode : Mode) (csD : Bool) : Instr → List Byte
  | .movhpdLoad x m len lock => encodeMem mode csD [0x66#8] 0x16#8 x m len lock
  | .movhpdStore x m len lock => encodeMem mode csD [0x66#8] 0x17#8 x m len lock
  | .reserved66Load reg rm len => encodeReserved [0x66#8] 0x16#8 (3#2 ++ reg ++ rm) len
  | .reserved66Store reg rm len => encodeReserved [0x66#8] 0x17#8 (3#2 ++ reg ++ rm) len
  | .reservedF2Load modrm len => encodeReserved [0xF2#8] 0x16#8 modrm len
  | .reservedF2Store modrm len => encodeReserved [0xF2#8] 0x17#8 modrm len
  | .reservedF3Store modrm len => encodeReserved [0xF3#8] 0x17#8 modrm len
  | .reservedPlainStore reg rm len => encodeReserved [] 0x17#8 (3#2 ++ reg ++ rm) len
  | .movhpsLoad x m len lock => encodeMem mode csD [] 0x16#8 x m len lock
  | .movlhps d s len lock => encodeRegs [] 0x16#8 d s len lock
  | .movhpsStore x m len lock => encodeMem mode csD [] 0x17#8 x m len lock
  | .movshdup d (.xmm s) len lock => encodeRegs [0xF3#8] 0x16#8 d s len lock
  | .movshdup d (.mem m) len lock => encodeMem mode csD [0xF3#8] 0x16#8 d m len lock

/-! ## The opcode table's words -/

/-- The bytes of a number, the first the most significant, as the opcode table numbers them
(opcode_table.json `match_mask_scope`). -/
def bytesOfWord : Nat → Nat → List Byte
  | 0, _ => []
  | n + 1, w => BitVec.ofNat 8 (w / 2 ^ (8 * n)) :: bytesOfWord n w

/-- The instruction bytes that a table word stands for, zeros after it up to the longest instruction. The table's
words of up to three bytes are taken "after all legacy and REX prefixes": 66H, the mandatory byte of MOVHPD, is put
before them (log 31). -/
def tableBytes (nbits w : Nat) : List Byte :=
  let n := (nbits + 7) / 8
  let bytes := if n ≤ 3 then 0x66#8 :: bytesOfWord n w else bytesOfWord n w
  (bytes ++ List.replicate Config.maxInsnBytes 0#8).take Config.maxInsnBytes

/-- The instruction the decoder reads from a table word, in the mode of reset (10_state.md R27). -/
def decodeTableWord (nbits w : Nat) : Option Instr :=
  match decode .real false (tableBytes nbits w) with
  | .instr i => some i
  | .tooLong | .incomplete | .otherOpcode => none

end Sys2Proof
end

