-- ==== Sys2Proof/Machine/State.lean ====
section
/-! DEFINITION. The machine's state as plain data, the reasons a step stops, and the state after reset (spec 10_state.md, 60_exceptions.md R100, R127, 20_memory.md R36). -/

namespace Sys2Proof.Machine

/-- The kinds of access that `translate` and `seg_check` tell apart (20_memory.md R34, R36). -/
inductive AccessKind where
  | read | write | fetch
  deriving DecidableEq, Repr

/-- The exceptions of MOVHPD (60_exceptions.md R100), with what R127 says each reports. The spec gives an error code no
width (R108 names bits 0 to 4 of one): every code is held in 32 bits, `translate`'s too. PRESUMED (log 37). -/
inductive Exc where
  /-- #UD, vector 6, no error code (R101). -/
  | ud
  /-- #NM, vector 7, no error code (R102). -/
  | nm
  /-- #SS, vector 12 (R104). -/
  | ss (code : BitVec 32)
  /-- #GP, vector 13 (R103, R105, R107). -/
  | gp (code : BitVec 32)
  /-- #PF, vector 14, with the linear address of the byte that failed (R108). -/
  | pf (code : BitVec 32) (linear : Quad)
  /-- #AC, vector 17 (R109). -/
  | ac (code : BitVec 32)
  deriving DecidableEq, Repr

/-- Why a step stops with a fault. -/
inductive Fault where
  /-- Raised by MOVHPD, a reserved encoding or the fetch: the spec's own outcome `Fault(…)` with the state unchanged
  (60_exceptions.md R127); what follows is the parameter `deliver` (R113). Safe (log 1). -/
  | exception (e : Exc)
  /-- Raised by the step alone, in a state outside the spec's state invariant, for which no operating mode is defined
  (93_implementation_defined.md U15, 92 D32): stuck. Safe (log 11). -/
  | noMode
  deriving DecidableEq, Repr

/-- Why a step answers with no meaning. -/
inductive Refusal where
  /-- Raised by no arm of this model: every row of the opcode table has its meaning. Safe. -/
  | notModelled (mnemonic : String)
  /-- Raised by MOVHPS, MOVLHPS and MOVSHDUP, which the spec recognises and does not execute (30_encoding.md R76,
  60_exceptions.md R127). Safe (log 26). -/
  | otherInstruction (name : String)
  /-- Raised by the step where the opcode is not 0F 16 or 0F 17 (30_encoding.md R76, R77). Safe (log 26). -/
  | otherOpcode
  deriving DecidableEq, Repr

/-- A segment register with its hidden part (10_state.md R15; `present` is named by R27). -/
structure SegReg where
  selector : BitVec 16
  base : Quad
  limit : BitVec 32
  null : Bool
  writable : Bool
  readable : Bool
  expandDown : Bool
  big : Bool
  present : Bool
  deriving DecidableEq, Repr

/-- GDTR or IDTR: limit and base (60_exceptions.md R113 for IDTR; log 4). -/
structure TableReg where
  base : Quad
  limit : BitVec 16
  deriving DecidableEq, Repr

/-- LDTR or the task register (10_state.md R26; PRESUMED layout, log 4). -/
structure SystemSegReg where
  selector : BitVec 16
  base : Quad
  limit : BitVec 32
  deriving DecidableEq, Repr

/-- The state that R26 names and MOVHPD never touches. PRESUMED layout but for `tsc` and `idtr` (log 4). -/
structure Bystanders where
  /-- The time-stamp counter (60_exceptions.md R121); the model does not advance it (log 30). -/
  tsc : Quad
  idtr : TableReg
  gdtr : TableReg
  ldtr : SystemSegReg
  tr : SystemSegReg
  /-- The x87 registers, whose low 64 bits are the MMX registers. -/
  st : Vector (BitVec 80) 8
  fcw : BitVec 16
  fsw : BitVec 16
  ftw : BitVec 16
  dr0 : Quad
  dr1 : Quad
  dr2 : Quad
  dr3 : Quad
  dr6 : Quad
  dr7 : Quad
  deriving DecidableEq, Repr

/-- What `translate` answers for one byte (20_memory.md R36). A physical address has 64 bits, a width that R30 leaves to
`translate`: DESIGN CHOICE (log 39); the width of the code is PRESUMED (log 37). -/
inductive Translated where
  | mapped (physical : Quad)
  | pageFault (code : BitVec 32)
  deriving DecidableEq, Repr

/-- One entry of `translate` as plain data: the linear addresses `first` to `last`, for one kind of access and one
privilege level or for all, and the answer, where a mapped address is that of `first` (20_memory.md R36, log 7). -/
structure Mapping where
  first : Nat
  last : Nat
  kind : Option AccessKind
  cpl : Option (BitVec 2)
  target : Translated
  deriving DecidableEq, Repr

/-- What the parameter `seg_check` answers where it is not its default: a linear address, 32 bits wide outside 64-bit
mode (20_memory.md R30, R34), or one of the faults that R34 lists (log 38). -/
inductive SegAnswer where
  | linear (la : BitVec 32)
  /-- #GP(0): the segment does not allow the access. -/
  | refused
  /-- #SS(0) in SS, #GP(0) in the others: the operand is outside the segment. -/
  | outside
  deriving DecidableEq, Repr

/-- One entry of `seg_check` as plain data: the offsets `first` to `last` of one segment register or of all, for one
number of bytes and one kind of access or for all, and the answer, where a linear address is that of `first`
(20_memory.md R34, D11; log 38). -/
structure SegRule where
  seg : Option Seg
  first : Nat
  last : Nat
  size : Option Nat
  kind : Option AccessKind
  answer : SegAnswer
  deriving DecidableEq, Repr

/-- The state of the machine: every piece of state of 10_state.md, memory, and the OPEN parameters. -/
structure State where
  /-- XMM0 to XMM15 (R10 to R12). -/
  xmm : Vector DQuad 16
  /-- MXCSR (R20). -/
  mxcsr : BitVec 32
  /-- The general-purpose registers by number (R13). -/
  gpr : Vector Quad 16
  /-- IP, EIP or RIP: the offset of the first byte of the instruction to execute (R14). -/
  ip : Quad
  es : SegReg
  cs : SegReg
  ss : SegReg
  ds : SegReg
  fs : SegReg
  gs : SegReg
  /-- CS.L (R16). -/
  csL : Bool
  /-- CS.D (R16, R19). -/
  csD : Bool
  /-- CR0: PE, EM, TS, AM (R16); held whole. -/
  cr0 : Quad
  cr2 : Quad
  cr3 : Quad
  /-- CR4: OSFXSR, OSXMMEXCPT (R16); held whole. -/
  cr4 : Quad
  /-- EFLAGS or RFLAGS: AC, VM (R16) and every flag of R93; held whole. -/
  rflags : Quad
  /-- IA32_EFER: LMA (R16); held whole. -/
  efer : Quad
  /-- CPL (R16). -/
  cpl : BitVec 2
  /-- `translate`: `none` is paging off (20_memory.md R36). -/
  paging : Option (List Mapping)
  /-- `seg_check`: where no entry answers, and so everywhere for `[]`, it is the default of R34 (D11). -/
  segRules : List SegRule
  /-- The single-valued OPEN parameters (00_scope.md R6). -/
  params : Params
  /-- The state of R26. -/
  other : Bystanders
  /-- Memory by physical address, in canonical form (20_memory.md R30, R40). -/
  mem : List Host.Cell
  deriving DecidableEq, Repr

/-- A data or stack segment register after reset (R27; `readable` and the false fields PRESUMED, log 4). -/
def SegReg.resetData : SegReg :=
  { selector := 0#16, base := 0#64, limit := 0xFFFF#32, null := false, writable := true, readable := true,
    expandDown := false, big := false, present := true }

/-- CS after reset (R27; `writable` and the false fields PRESUMED, log 4). -/
def SegReg.resetCode : SegReg :=
  { SegReg.resetData with selector := 0xF000#16, base := 0xFFFF0000#64 }

/-- The untouched state after reset: TSC 0 (70 R130), the rest PRESUMED (log 4). -/
def Bystanders.reset : Bystanders :=
  { tsc := 0#64
    idtr := { base := 0#64, limit := 0xFFFF#16 }
    gdtr := { base := 0#64, limit := 0xFFFF#16 }
    ldtr := { selector := 0#16, base := 0#64, limit := 0xFFFF#32 }
    tr := { selector := 0#16, base := 0#64, limit := 0xFFFF#32 }
    st := Vector.replicate 8 0#80
    fcw := 0x0040#16
    fsw := 0#16
    ftw := 0x5555#16
    dr0 := 0#64
    dr1 := 0#64
    dr2 := 0#64
    dr3 := 0#64
    dr6 := 0xFFFF0FF0#64
    dr7 := 0x400#64 }

/-- The machine right after power-up or RESET (10_state.md R27, 70_reset_and_hazards.md R131; log 2). -/
def State.reset : State :=
  { xmm := Vector.replicate 16 0#128
    mxcsr := 0x1F80#32
    gpr := (Vector.replicate 16 0#64).set 2 Config.processorSignature
    ip := 0xFFF0#64
    es := SegReg.resetData
    cs := SegReg.resetCode
    ss := SegReg.resetData
    ds := SegReg.resetData
    fs := SegReg.resetData
    gs := SegReg.resetData
    csL := false
    csD := false
    cr0 := 0x60000010#64
    cr2 := 0#64
    cr3 := 0#64
    cr4 := 0#64
    rflags := 2#64
    efer := 0#64
    cpl := 0#2
    paging := none
    segRules := []
    params := Config.defaultParams
    other := Bystanders.reset
    mem := [] }

end Sys2Proof.Machine
end

