-- ==== Sys2Proof/Machine/Flags.lean ====
section
/-! DEFINITION. The control and status fields MOVHPD reads, and the operating mode they make (spec 10_state.md R16, R18). MOVHPD writes no flag (40_movhpd.md R93), so there is no flag computation. -/

namespace Sys2Proof.Machine

/-- CR0.PE, bit 0 (10_state.md R16). -/
def State.pe (s : State) : Bool := s.cr0.getLsbD 0
/-- CR0.EM, bit 2. -/
def State.em (s : State) : Bool := s.cr0.getLsbD 2
/-- CR0.TS, bit 3. -/
def State.ts (s : State) : Bool := s.cr0.getLsbD 3
/-- CR0.AM, bit 18. -/
def State.am (s : State) : Bool := s.cr0.getLsbD 18
/-- CR4.OSFXSR, bit 9. -/
def State.osfxsr (s : State) : Bool := s.cr4.getLsbD 9
/-- CR4.OSXMMEXCPT, bit 10: not read by MOVHPD. -/
def State.osxmmexcpt (s : State) : Bool := s.cr4.getLsbD 10
/-- EFLAGS.AC, bit 18. -/
def State.acFlag (s : State) : Bool := s.rflags.getLsbD 18
/-- EFLAGS.VM, bit 17. -/
def State.vmFlag (s : State) : Bool := s.rflags.getLsbD 17
/-- IA32_EFER.LMA, bit 10. -/
def State.lma (s : State) : Bool := s.efer.getLsbD 10

/-- The operating mode (10_state.md R18, D32). -/
def State.mode (s : State) : Mode :=
  if !s.pe then .real
  else if s.vmFlag then .v86
  else if !s.lma then .prot
  else if s.csL then .long64
  else .compat

/-- The state invariant of D32 and U15: LMA = 1 with VM = 1 does not occur, nor LMA = 1 without Intel 64. Outside it
the spec defines no mode (log 11). -/
def State.modeDefined (s : State) : Bool := !(s.lma && (s.vmFlag || !s.params.hasIntel64))

/-- The current privilege level: 3 in virtual-8086 mode (60_exceptions.md R106), else the CPL field. DEDUCED (log 10). -/
def State.privilege (s : State) : BitVec 2 :=
  match s.mode with
  | .v86 => 3#2
  | .real | .prot | .compat | .long64 => s.cpl

/-- `alignment_check_enabled` (40_movhpd.md R92, 20_memory.md R37). -/
def State.alignmentCheck (s : State) : Bool :=
  s.am && s.acFlag && s.privilege == 3#2 && s.mode != .real

end Sys2Proof.Machine
end

