-- ==== Sys2Proof/Machine/Ops.lean ====
section
/-! DEFINITION. The named operations over registers and memory, segmentation, paging, and the raising of an exception (spec 20_memory.md, 40_movhpd.md R92, 60_exceptions.md). -/

namespace Sys2Proof.Machine

/-! ## Memory: a canonical list of cells (20_memory.md R30, R40) -/

/-- The byte at a physical address. -/
def Memory.read : List Host.Cell → Nat → Byte
  | [], _ => Config.unlistedByte
  | (a, b) :: rest, x => if x = a then b else Memory.read rest x

/-- Puts a cell in its place, for a byte that an unlisted address does not read as. -/
def Memory.insert : List Host.Cell → Nat → Byte → List Host.Cell
  | [], x, v => [(x, v)]
  | (a, b) :: rest, x, v =>
    if x < a then (x, v) :: (a, b) :: rest
    else if x = a then (x, v) :: rest
    else (a, b) :: Memory.insert rest x v

/-- Takes the cell of an address away. -/
def Memory.erase : List Host.Cell → Nat → List Host.Cell
  | [], _ => []
  | (a, b) :: rest, x => if x = a then rest else (a, b) :: Memory.erase rest x

/-- Writes a byte; the byte an unlisted address reads as is kept by listing nothing. -/
def Memory.write (m : List Host.Cell) (x : Nat) (v : Byte) : List Host.Cell :=
  if v = Config.unlistedByte then Memory.erase m x else Memory.insert m x v

/-- Writes bytes at several addresses, in order. -/
def Memory.writeAll (m : List Host.Cell) : List Quad → List Byte → List Host.Cell
  | pa :: pas, v :: vs => Memory.writeAll (Memory.write m pa.toNat v) pas vs
  | _, _ => m

/-- The canonical form above an address: strictly rising physical addresses of 64 bits (DESIGN CHOICE, log 39), no byte
that an unlisted address reads as. -/
def Memory.wfFrom : Nat → List Host.Cell → Bool
  | _, [] => true
  | lo, (a, b) :: rest =>
    decide (lo ≤ a) && decide (a < 2 ^ 64) && b != Config.unlistedByte && Memory.wfFrom (a + 1) rest

/-- The canonical form of memory. -/
def Memory.wf (m : List Host.Cell) : Bool := Memory.wfFrom 0 m

/-- The byte at a physical address of the machine. -/
def State.readByte (s : State) (pa : Quad) : Byte := Memory.read s.mem pa.toNat

/-- The machine after a byte is written at a physical address. -/
def State.writeByte (s : State) (pa : Quad) (v : Byte) : State :=
  { s with mem := Memory.write s.mem pa.toNat v }

/-- The bytes at several physical addresses. -/
def State.readBytes (s : State) (pas : List Quad) : List Byte := pas.map s.readByte

/-- Bytes written at several physical addresses, in order. -/
def State.writeBytes (s : State) (pas : List Quad) (vs : List Byte) : State :=
  { s with mem := Memory.writeAll s.mem pas vs }

/-! ## Byte order (20_memory.md R31) -/

/-- The number that bytes at increasing addresses make, the first the least significant. -/
def leNat : List Byte → Nat
  | [] => 0
  | b :: rest => b.toNat + 256 * leNat rest

/-- The bytes of a number in the order of increasing address. -/
def leBytes : Nat → Nat → List Byte
  | 0, _ => []
  | n + 1, v => BitVec.ofNat 8 v :: leBytes n (v / 256)

/-! ## Registers -/

/-- XMM register `r` (10_state.md R10). -/
def State.readXmm (s : State) (r : RegNo) : DQuad := s.xmm[r.toNat]

/-- The high quadword, bits 127:64 (10_state.md R11). -/
def highQuad (x : DQuad) : Quad := x.extractLsb' 64 64

/-- The low quadword, bits 63:0 (10_state.md R11). -/
def lowQuad (x : DQuad) : Quad := x.extractLsb' 0 64

/-- `XMM[r][127:64] <- v`, the low quadword kept (00_scope.md R7, 40_movhpd.md R90). -/
def State.writeXmmHigh (s : State) (r : RegNo) (v : Quad) : State :=
  { s with xmm := s.xmm.set r.toNat (v ++ lowQuad (s.readXmm r)) }

/-- General-purpose register `r`, whole (10_state.md R13). -/
def State.readGpr (s : State) (r : RegNo) : Quad := s.gpr[r.toNat]

/-- The segment register of a name (10_state.md R15). -/
def State.segReg (s : State) : Seg → SegReg
  | .es => s.es
  | .cs => s.cs
  | .ss => s.ss
  | .ds => s.ds
  | .fs => s.fs
  | .gs => s.gs

/-- A code offset cut to the width of the instruction pointer (40_movhpd.md R96, D20). -/
def State.truncIp (s : State) (a : Quad) : Quad :=
  match s.mode with
  | .long64 => a
  | .real | .v86 | .prot | .compat =>
      if s.csD then (a.setWidth 32).setWidth 64 else (a.setWidth 16).setWidth 64

/-- `IP <- IP + length` (40_movhpd.md R96). -/
def State.advanceIp (s : State) (len : Nat) : State :=
  { s with ip := s.truncIp (s.ip + BitVec.ofNat 64 len) }

/-! ## Exceptions -/

/-- The vector (60_exceptions.md R100, D15). -/
def Exc.vector : Exc → Nat
  | .ud => 6
  | .nm => 7
  | .ss _ => 12
  | .gp _ => 13
  | .pf _ _ => 14
  | .ac _ => 17

/-- The error code, where the exception has one (60_exceptions.md R100). -/
def Exc.errorCode : Exc → Option (BitVec 32)
  | .ud | .nm => none
  | .ss c | .gp c | .pf c _ | .ac c => some c

/-- The error code that is pushed: none in real-address mode (60_exceptions.md R105, D15). -/
def Exc.pushedCode (mode : Mode) (e : Exc) : Option (BitVec 32) :=
  if mode = .real then none else e.errorCode

/-- Taking an exception, as the spec gives it: the instruction ends with `Fault(…)` and makes no write, IP still
naming its first byte (60_exceptions.md R112, R113, R127; 40_movhpd.md R98). What stands in the state then is `s`
itself, and what follows is `deliver` (log 1). -/
def raise (e : Exc) (_s : State) : Host.Outcome State Fault Refusal := .fault (.exception e)

/-- The parameter `deliver` applied to what a step of `s` answered: an exception becomes the state that delivering it
to the unchanged `s` gives (60_exceptions.md R113, R114; D16). -/
def deliverTo (deliver : State → Exc → State) (s : State) :
    Host.Outcome State Fault Refusal → Host.Outcome State Fault Refusal
  | .fault (.exception e) => .next (deliver s e)
  | .fault .noMode => .fault .noMode
  | .next t => .next t
  | .refused r => .refused r

/-- The state after INIT: as reset, but the XMM registers and MXCSR are as they were (70_reset_and_hazards.md R131,
10_state.md R27); memory, `params`, the x87 registers and the time-stamp counter as well. PRESUMED (log 36). -/
def State.afterInit (s : State) : State :=
  { State.reset with
    xmm := s.xmm, mxcsr := s.mxcsr, mem := s.mem, params := s.params
    other := { Bystanders.reset with
      tsc := s.other.tsc, st := s.other.st, fcw := s.other.fcw, fsw := s.other.fsw, ftw := s.other.ftw } }

/-! ## Segmentation (20_memory.md R34, R35) -/

/-- The fault of an address outside a segment: #SS(0) for SS, #GP(0) for the others (R34, R35). -/
def segFault (sg : Seg) : Exc := if sg = .ss then .ss 0#32 else .gp 0#32

/-- Whether the descriptor's type and null selector are tested: protected and compatibility mode (R34). -/
def State.checksDescriptor (s : State) : Bool := s.mode == .prot || s.mode == .compat

/-- The first three tests of `seg_check`: null selector, writable, readable (R34). -/
def State.descriptorRefuses (s : State) (sg : Seg) (kind : AccessKind) : Bool :=
  s.checksDescriptor &&
    ((s.segReg sg).null
      || (kind == .write && !(s.segReg sg).writable)
      || (kind == .read && !(s.segReg sg).readable))

/-- The limit test of `seg_check`: offsets `ea` to `ea + (n - 1)`, computed without wrap (R34, D11). -/
def SegReg.holds (r : SegReg) (ea n : Nat) : Bool :=
  if r.expandDown then
    decide (r.limit.toNat < ea) && decide (ea + (n - 1) ≤ if r.big then 0xFFFFFFFF else 0xFFFF)
  else decide (ea + (n - 1) ≤ r.limit.toNat)

/-- The last offset that an access outside 64-bit mode may reach whatever the limit is: FFFFH in real-address and
virtual-8086 mode and in a 16-bit offset space, else FFFFFFFFH (R34, R49, 60_exceptions.md R105, R106; log 40). -/
def lastOffset (mode : Mode) (size : AddrSize) : Nat :=
  match mode with
  | .real | .v86 => 0xFFFF
  | .prot | .compat | .long64 =>
    match size with
    | .a16 => 0xFFFF
    | .a32 | .a64 => 0xFFFFFFFF

/-- The default `seg_check`, with the address size of the offset: the linear address of an access outside 64-bit mode,
or its fault (R34, R49). -/
def segCheckDefault (s : State) (sg : Seg) (size : AddrSize) (ea : Quad) (n : Nat) (kind : AccessKind) :
    Except Exc Quad :=
  if s.descriptorRefuses sg kind then .error (.gp 0#32)
  else if decide (ea.toNat + (n - 1) ≤ lastOffset s.mode size) && (s.segReg sg).holds ea.toNat n then .ok ((((s.segReg sg).base + ea).setWidth 32).setWidth 64)
  else .error (segFault sg)

/-- Whether an entry of `seg_check` answers for an access. -/
def SegRule.covers (r : SegRule) (sg : Seg) (ea : Quad) (n : Nat) (kind : AccessKind) : Bool :=
  (r.seg == none || r.seg == some sg) && decide (r.first ≤ ea.toNat) && decide (ea.toNat ≤ r.last)
    && (r.size == none || r.size == some n) && (r.kind == none || r.kind == some kind)

/-- What an entry that covers an access answers for its offset. -/
def SegRule.answerAt (r : SegRule) (ea : Quad) : SegAnswer :=
  match r.answer with
  | .linear la => .linear (la + BitVec.ofNat 32 (ea.toNat - r.first))
  | .refused => .refused
  | .outside => .outside

/-- The answer of the first entry that covers an access, if one does (log 38). -/
def lookupSegRule (rules : List SegRule) (sg : Seg) (ea : Quad) (n : Nat) (kind : AccessKind) : Option SegAnswer :=
  match rules with
  | [] => none
  | r :: rest => if r.covers sg ea n kind then some (r.answerAt ea) else lookupSegRule rest sg ea n kind

/-- The parameter `seg_check`: an entry of `segRules`, else the default (R34, D11, 00_scope.md R6; log 38). -/
def segCheck (s : State) (sg : Seg) (size : AddrSize) (ea : Quad) (n : Nat) (kind : AccessKind) : Except Exc Quad :=
  match lookupSegRule s.segRules sg ea n kind with
  | some (.linear la) => .ok (la.setWidth 64)
  | some .refused => .error (.gp 0#32)
  | some .outside => .error (segFault sg)
  | none => segCheckDefault s sg size ea n kind

/-- `canonical(a)`: bits 63 down to `VA_BITS - 1` are all zeros or all ones (R35, D30). -/
def canonical (vaBits : Nat) (a : Quad) : Bool :=
  a >>> (vaBits - 1) == 0#64 || a >>> (vaBits - 1) == BitVec.allOnes 64 >>> (vaBits - 1)

/-- The base that 64-bit mode adds: that of FS and GS, 0 for the others (R35, D10). -/
def State.base64 (s : State) (sg : Seg) : Quad :=
  match sg with
  | .fs => s.fs.base
  | .gs => s.gs.base
  | .es | .cs | .ss | .ds => 0#64

/-- The test of `seg_check64`: first and last byte canonical, no wrap past 2^64 (R35). -/
def canonicalRange (vaBits : Nat) (la : Quad) (n : Nat) : Bool :=
  canonical vaBits la && canonical vaBits (la + BitVec.ofNat 64 (n - 1)) && decide (la.toNat + (n - 1) < 2 ^ 64)

/-- `seg_check64`: the linear address of an access in 64-bit mode, or its fault (R35). -/
def segCheck64 (s : State) (sg : Seg) (ea : Quad) (n : Nat) (_kind : AccessKind) : Except Exc Quad :=
  let la := s.base64 sg + ea
  if canonicalRange s.params.vaBits la n then .ok la else .error (segFault sg)

/-- The segmentation of the mode (40_movhpd.md R92, step 4). -/
def linearAddress (s : State) (sg : Seg) (size : AddrSize) (ea : Quad) (n : Nat) (kind : AccessKind) :
    Except Exc Quad :=
  match s.mode with
  | .long64 => segCheck64 s sg ea n kind
  | .real | .v86 | .prot | .compat => segCheck s sg size ea n kind

/-! ## Paging (20_memory.md R36) -/

/-- The page-fault code (60_exceptions.md R108, D15): bit 0 P, bit 1 W/R, bit 2 U/S, bit 4 I/D. -/
def pageFaultCode (present : Bool) (kind : AccessKind) (cpl : BitVec 2) : BitVec 32 :=
  (if present then 1#32 else 0#32) ||| (if kind = .write then 2#32 else 0#32)
    ||| (if cpl = 3#2 then 4#32 else 0#32) ||| (if kind = .fetch then 16#32 else 0#32)

/-- Whether an entry answers for a byte, a kind of access and a privilege level. -/
def Mapping.covers (m : Mapping) (la : Quad) (kind : AccessKind) (cpl : BitVec 2) : Bool :=
  decide (m.first ≤ la.toNat) && decide (la.toNat ≤ m.last)
    && (m.kind == none || m.kind == some kind) && (m.cpl == none || m.cpl == some cpl)

/-- What an entry that covers a byte answers for it. -/
def Mapping.answer (m : Mapping) (la : Quad) : Translated :=
  match m.target with
  | .mapped pa => .mapped (pa + BitVec.ofNat 64 (la.toNat - m.first))
  | .pageFault code => .pageFault code

/-- The first entry that covers the byte answers; a byte no entry covers is not present (log 7). -/
def lookupMapping (ms : List Mapping) (la : Quad) (kind : AccessKind) (cpl : BitVec 2) : Translated :=
  match ms with
  | [] => .pageFault (pageFaultCode false kind cpl)
  | m :: rest => if m.covers la kind cpl then m.answer la else lookupMapping rest la kind cpl

/-- `translate`: the identity in real-address mode and whenever paging is off (20_memory.md R36). -/
def translate (s : State) (la : Quad) (kind : AccessKind) : Translated :=
  match s.paging with
  | none => .mapped la
  | some ms => if s.mode = .real then .mapped la else lookupMapping ms la kind s.privilege

/-- The linear address of byte `k` of an access: modulo 2^64 in 64-bit mode, modulo 2^32 outside it
(20_memory.md R32, R49; log 9). -/
def linearByte (s : State) (la : Quad) (k : Nat) : Quad :=
  match s.mode with
  | .long64 => la + BitVec.ofNat 64 k
  | .real | .v86 | .prot | .compat => ((la + BitVec.ofNat 64 k).setWidth 32).setWidth 64

/-- The physical addresses of bytes `k`, `k + 1`, … of an access, `n` of them, or the page fault of the first that
fails (20_memory.md R36, 60_exceptions.md R108, D25). -/
def translateFrom (s : State) (la : Quad) (kind : AccessKind) : Nat → Nat → Except Exc (List Quad)
  | _, 0 => .ok []
  | k, n + 1 =>
    match translate s (linearByte s la k) kind with
    | .pageFault code => .error (.pf code (linearByte s la k))
    | .mapped pa =>
      match translateFrom s la kind (k + 1) n with
      | .error e => .error e
      | .ok pas => .ok (pa :: pas)

/-- All the physical addresses of an access. -/
def translateAll (s : State) (la : Quad) (n : Nat) (kind : AccessKind) : Except Exc (List Quad) :=
  translateFrom s la kind 0 n

/-- `MemRead(la, n)` (20_memory.md R32). -/
def memRead (s : State) (la : Quad) (n : Nat) : Except Exc (BitVec (8 * n)) :=
  match translateAll s la n .read with
  | .error e => .error e
  | .ok pas => .ok (BitVec.ofNat (8 * n) (leNat (s.readBytes pas)))

/-- `MemWrite(la, n, v)` (20_memory.md R32). -/
def memWrite (s : State) (la : Quad) (n : Nat) (v : BitVec (8 * n)) : Except Exc State :=
  match translateAll s la n .write with
  | .error e => .error e
  | .ok pas => .ok (s.writeBytes pas (leBytes n v.toNat))

/-! ## The checks of one MOVHPD (40_movhpd.md R92) -/

/-- `common_checks()`, steps 1 to 3: #GP(0) too long, #UD, #NM. -/
def commonChecks (s : State) (len : Nat) (lock : Bool) : Option Exc :=
  if Config.maxInsnBytes < len then some (.gp 0#32)
  else if lock || s.em || !s.osfxsr || !s.params.hasSse2 then some .ud
  else if s.ts then some .nm
  else none

/-- Step 6: #AC(0) for a linear address that is not a multiple of 8 (20_memory.md R37, D13). -/
def State.misaligned (s : State) (la : Quad) : Bool := s.alignmentCheck && la.extractLsb' 0 3 != 0#3

/-- `address_checks(seg, ea, 8, kind)`, steps 4 to 6, with the linear address the physical addresses of the eight
bytes. -/
def addressChecks (s : State) (sg : Seg) (size : AddrSize) (ea : Quad) (kind : AccessKind) :
    Except Exc (Quad × List Quad) :=
  match linearAddress s sg size ea Config.operandBytes kind with
  | .error e => .error e
  | .ok la =>
    if s.params.acBeforePf && s.misaligned la then .error (.ac 0#32)
    else
      match translateAll s la Config.operandBytes kind with
      | .error e => .error e
      | .ok pas => if s.misaligned la then .error (.ac 0#32) else .ok (la, pas)

end Sys2Proof.Machine
end

