-- ==== Sys2Proof/Machine/Operands.lean ====
section
/-! DEFINITION. The operand forms: effective addresses of every addressing form, and the load and store of the quadword operand (spec 30_encoding.md R65 to R71, R78, 20_memory.md R33). -/

namespace Sys2Proof.Machine

/-- A value cut to the address size and zero-extended (30_encoding.md R71). -/
def truncTo : AddrSize → Quad → Quad
  | .a16, v => (v.setWidth 16).setWidth 64
  | .a32, v => (v.setWidth 32).setWidth 64
  | .a64, v => v

/-- A general-purpose register in the view of the address size (10_state.md R13, 30_encoding.md R65, R66). -/
def State.addrReg (s : State) (size : AddrSize) (r : RegNo) : Quad := truncTo size (s.readGpr r)

/-- The base of a form: the next instruction's address, a register, or nothing (30_encoding.md R67, R68). -/
def State.baseValue (s : State) (f : AddrForm) (len : Nat) : Quad :=
  if f.ipRel then s.ip + BitVec.ofNat 64 len
  else match f.base with
    | some b => s.addrReg f.size b
    | none => 0#64

/-- The index of a form times `2^scale` (30_encoding.md R67). -/
def State.indexValue (s : State) (f : AddrForm) : Quad :=
  match f.index with
  | some (i, scale) => s.addrReg f.size i <<< scale.toNat
  | none => 0#64

/-- The effective address of a form in an instruction of `len` bytes (30_encoding.md R71). -/
def effectiveAddress (s : State) (f : AddrForm) (len : Nat) : Quad :=
  truncTo f.size (s.baseValue f len + s.indexValue f + f.disp)

/-- All the checks of one MOVHPD in the order of 40_movhpd.md R92, with the linear address and the physical addresses
of the operand's eight bytes. -/
def operandChecks (s : State) (m : MemOp) (len : Nat) (lock : Bool) (kind : AccessKind) :
    Except Exc (Quad × List Quad) :=
  match commonChecks s len lock with
  | some e => .error e
  | none => addressChecks s m.seg m.form.size (effectiveAddress s m.form len) kind

/-- The quadword at eight physical addresses (20_memory.md R32). -/
def State.readQuad (s : State) (pas : List Quad) : Quad := BitVec.ofNat 64 (leNat (s.readBytes pas))

/-- A quadword written at eight physical addresses (20_memory.md R32). -/
def State.writeQuad (s : State) (pas : List Quad) (v : Quad) : State :=
  s.writeBytes pas (leBytes Config.operandBytes v.toNat)

end Sys2Proof.Machine
end

