-- ==== Sys2Proof/Machine/Movhpd.lean ====
section
/-! DEFINITION. The two forms of MOVHPD (spec 40_movhpd.md R90, R91). -/

namespace Sys2Proof.Machine

/-- MOVHPD xmm, m64: the high quadword of the register is loaded, the low one kept (40_movhpd.md R90). -/
def execMovhpdLoad (xmm : RegNo) (m : MemOp) (len : Nat) (lock : Bool) (s : State) :
    Host.Outcome State Fault Refusal :=
  match operandChecks s m len lock .read with
  | .error e => raise e s
  | .ok (_, pas) => .next ((s.writeXmmHigh xmm (s.readQuad pas)).advanceIp len)

/-- MOVHPD m64, xmm: the high quadword of the register is stored (40_movhpd.md R91). -/
def execMovhpdStore (xmm : RegNo) (m : MemOp) (len : Nat) (lock : Bool) (s : State) :
    Host.Outcome State Fault Refusal :=
  match operandChecks s m len lock .write with
  | .error e => raise e s
  | .ok (_, pas) => .next ((s.writeQuad pas (highQuad (s.readXmm xmm))).advanceIp len)

end Sys2Proof.Machine
end

