-- ==== Sys2Proof/Machine/Neighbours.lean ====
section
/-! DEFINITION. The neighbouring instructions of the opcode map, which the spec recognises and does not execute (spec 00_scope.md R5, 30_encoding.md R76, 60_exceptions.md R127). -/

namespace Sys2Proof.Machine

/-- `Refused(name)` with nothing changed (60_exceptions.md R127, D1). -/
def refuseOther (name : String) (_s : State) : Host.Outcome State Fault Refusal :=
  .refused (.otherInstruction name)

/-- MOVHPS xmm, m64 (`0F 16`, memory). -/
def execMovhpsLoad (s : State) : Host.Outcome State Fault Refusal := refuseOther "MOVHPS" s

/-- MOVLHPS xmm1, xmm2 (`0F 16`, mod = 11B). -/
def execMovlhps (s : State) : Host.Outcome State Fault Refusal := refuseOther "MOVLHPS" s

/-- MOVHPS m64, xmm (`0F 17`, memory). -/
def execMovhpsStore (s : State) : Host.Outcome State Fault Refusal := refuseOther "MOVHPS" s

/-- MOVSHDUP xmm1, xmm2/m128 (`F3 0F 16`). -/
def execMovshdup (s : State) : Host.Outcome State Fault Refusal := refuseOther "MOVSHDUP" s

end Sys2Proof.Machine
end

