-- ==== Sys2Proof/Machine/Reserved.lean ====
section
/-! DEFINITION. The reserved encodings of the opcode map: #UD (spec 30_encoding.md R75, 40_movhpd.md R97, 60_exceptions.md R101). -/

namespace Sys2Proof.Machine

/-- A reserved encoding: #UD at step 2 of 40_movhpd.md R92, after the length test of step 1. -/
def raiseReserved (len : Nat) (s : State) : Host.Outcome State Fault Refusal :=
  if Config.maxInsnBytes < len then raise (.gp 0#32) s else raise .ud s

/-- `66 0F 16` with mod = 11B (R75 (a)). -/
def execReserved66Load (len : Nat) (s : State) : Host.Outcome State Fault Refusal := raiseReserved len s

/-- `66 0F 17` with mod = 11B (R75 (a)). -/
def execReserved66Store (len : Nat) (s : State) : Host.Outcome State Fault Refusal := raiseReserved len s

/-- `F2 0F 16`, any ModR/M (R75 (b)). -/
def execReservedF2Load (len : Nat) (s : State) : Host.Outcome State Fault Refusal := raiseReserved len s

/-- `F2 0F 17`, any ModR/M (R75 (c)). -/
def execReservedF2Store (len : Nat) (s : State) : Host.Outcome State Fault Refusal := raiseReserved len s

/-- `F3 0F 17`, any ModR/M (R75 (c)). -/
def execReservedF3Store (len : Nat) (s : State) : Host.Outcome State Fault Refusal := raiseReserved len s

/-- `0F 17` without 66, F2, F3 and mod = 11B (R75 (d)). -/
def execReservedPlainStore (len : Nat) (s : State) : Host.Outcome State Fault Refusal := raiseReserved len s

end Sys2Proof.Machine
end

