-- ==== Sys2Proof/Machine/Dispatch.lean ====
section
/-! DEFINITION. The meaning of each instruction, one arm per row of the opcode table. -/

namespace Sys2Proof.Machine

def exec (i : Instr) (s : State) : Host.Outcome State Fault Refusal :=
  match i with
  | .movhpdLoad xmm m len lock => Sys2Proof.Machine.execMovhpdLoad xmm m len lock s
  | .movhpdStore xmm m len lock => Sys2Proof.Machine.execMovhpdStore xmm m len lock s
  | .reserved66Load _ _ len => Sys2Proof.Machine.execReserved66Load len s
  | .reserved66Store _ _ len => Sys2Proof.Machine.execReserved66Store len s
  | .reservedF2Load _ len => Sys2Proof.Machine.execReservedF2Load len s
  | .reservedF2Store _ len => Sys2Proof.Machine.execReservedF2Store len s
  | .reservedF3Store _ len => Sys2Proof.Machine.execReservedF3Store len s
  | .reservedPlainStore _ _ len => Sys2Proof.Machine.execReservedPlainStore len s
  | .movhpsLoad _ _ _ _ => Sys2Proof.Machine.execMovhpsLoad s
  | .movlhps _ _ _ _ => Sys2Proof.Machine.execMovlhps s
  | .movhpsStore _ _ _ _ => Sys2Proof.Machine.execMovhpsStore s
  | .movshdup _ _ _ _ => Sys2Proof.Machine.execMovshdup s

end Sys2Proof.Machine
end

