-- ==== Sys2Proof/Machine/Fetch.lean ====
section
/-! DEFINITION. Instruction fetch through CS and paging, and the store of an instruction where it is fetched (spec 20_memory.md R47; log 12). -/

namespace Sys2Proof.Machine

/-- The code offset of the instruction: outside 64-bit mode only bits 31:0 are meaningful (10_state.md R14). -/
def State.codeOffset (s : State) : Quad :=
  match s.mode with
  | .long64 => s.ip
  | .real | .v86 | .prot | .compat => (s.ip.setWidth 32).setWidth 64

/-- The physical address of instruction byte `k`: the segmentation of the bytes `CS:IP` to `CS:IP + k`, then paging
with kind `fetch` (20_memory.md R47). The code offset space of protected and compatibility mode is of 32 bits, whatever
CS.D is, as 10_state.md R14 gives IP there (log 12). -/
def fetchAddress (s : State) (k : Nat) : Except Exc Quad :=
  match linearAddress s .cs .a32 s.codeOffset (k + 1) .fetch with
  | .error e => .error e
  | .ok la =>
    match translate s (linearByte s la k) .fetch with
    | .pageFault code => .error (.pf code (linearByte s la k))
    | .mapped pa => .ok pa

/-- Instruction bytes `k`, `k + 1`, …, at most `n`, up to the first that cannot be fetched, with its fault. -/
def fetchFrom (s : State) : Nat → Nat → List Byte × Option Exc
  | _, 0 => ([], none)
  | k, n + 1 =>
    match fetchAddress s k with
    | .error e => ([], some e)
    | .ok pa => (s.readByte pa :: (fetchFrom s (k + 1) n).1, (fetchFrom s (k + 1) n).2)

/-- The window of at most fifteen bytes at CS:IP (30_encoding.md R77), from the memory of this moment (D19). -/
def fetchWindow (s : State) : List Byte × Option Exc := fetchFrom s 0 Config.maxInsnBytes

/-- The decoder on the window. -/
def fetchDecode (s : State) : Decoded := decode s.mode s.csD (fetchWindow s).1

/-- The fault of a fetch that ended before the instruction did. A window without a fault has fifteen bytes and never
decodes to `incomplete`, so the default is never taken. -/
def fetchFault (s : State) : Exc := (fetchWindow s).2.getD (.gp 0#32)

/-- Writes instruction bytes `k`, `k + 1`, … where they are fetched; a byte that cannot be fetched is left out. -/
def storeFetch (s : State) : Nat → List Byte → State
  | _, [] => s
  | k, b :: rest =>
    match fetchAddress s k with
    | .error _ => storeFetch s (k + 1) rest
    | .ok pa => (storeFetch s (k + 1) rest).writeByte pa b

end Sys2Proof.Machine
end

