-- ==== Sys2Proof/Machine/Step.lean ====
section
/-! DEFINITION. One step of the machine (spec 60_exceptions.md R127), the step with the parameter `deliver` (R113), and the store of an instruction at the fetch address. -/

namespace Sys2Proof.Machine

/-- One instruction: fetch, decode, execute (20_memory.md R47, 30_encoding.md R77, 40_movhpd.md R92). -/
def step (s : State) : Host.Outcome State Fault Refusal :=
  if s.modeDefined then
    match fetchDecode s with
    | .instr i => exec i s
    | .tooLong => raise (.gp 0#32) s
    | .incomplete => raise (fetchFault s) s
    | .otherOpcode => .refused .otherOpcode
  else .fault .noMode

/-- One step of a machine whose parameter `deliver` is given: an exception is delivered to the unchanged state
(60_exceptions.md R113). -/
def stepDelivering (deliver : State → Exc → State) (s : State) : Host.Outcome State Fault Refusal :=
  deliverTo deliver s (step s)

/-- The machine with the instruction of a table word stored where its next step fetches. -/
def State.withFetchWord (s : State) (nbits w : Nat) : State := storeFetch s 0 (tableBytes nbits w)

end Sys2Proof.Machine
end

