-- ==== Sys2Proof/Safety.lean ====
section
/-! DEFINITION. The terms claims are stated in: when a MOVHPD can complete, what a safe state is, and the reading of the addressing tables of the spec. Nothing here is used by the machine. -/

namespace Sys2Proof.Machine

/-! ## When a MOVHPD can complete (70_reset_and_hazards.md R132) -/

/-- R132 (1) to (4): SSE2 present, CR0.EM clear, CR4.OSFXSR set, CR0.TS clear. -/
def SseReady (s : State) : Prop :=
  s.params.hasSse2 = true ∧ s.em = false ∧ s.osfxsr = true ∧ s.ts = false

/-- Bits 63 down to `vaBits - 1` of an address are all equal (20_memory.md R35), as a range of numbers. -/
def CanonicalNat (vaBits a : Nat) : Prop := a < 2 ^ (vaBits - 1) ∨ 2 ^ 64 - 2 ^ (vaBits - 1) ≤ a

/-- The eight bytes at `ea` lie within a segment register's limit (20_memory.md R34). -/
def WithinLimit (r : SegReg) (ea : Nat) : Prop :=
  if r.expandDown = true then r.limit.toNat < ea ∧ ea + 7 ≤ (if r.big = true then 0xFFFFFFFF else 0xFFFF)
  else ea + 7 ≤ r.limit.toNat

/-- The type and the selector of a segment allow an access (20_memory.md R34, the first three tests). -/
def DescriptorAllows (r : SegReg) (kind : AccessKind) : Prop :=
  r.null = false ∧ (kind = .write → r.writable = true) ∧ (kind = .read → r.readable = true)

/-- In 64-bit mode the eight bytes at `la` are canonical at both ends and do not pass 2^64 (20_memory.md R35). -/
def CanonicalOperand (s : State) (la : Quad) : Prop :=
  la.toNat + 7 < 2 ^ 64 ∧ CanonicalNat s.params.vaBits la.toNat ∧ CanonicalNat s.params.vaBits (la.toNat + 7)

/-- The eight bytes at `ea` do not pass FFFFH in real-address and virtual-8086 mode or in a 16-bit offset space, and do
not pass FFFFFFFFH in any (20_memory.md R49, 60_exceptions.md R105, R106; log 40). -/
def WithinOffsets (s : State) (size : AddrSize) (ea : Nat) : Prop :=
  ea + 7 < 2 ^ (if s.mode = .real ∨ s.mode = .v86 ∨ size = .a16 then 16 else 32)

/-- The default `seg_check` allows the eight bytes at `ea` (20_memory.md R34, R49). -/
def DefaultAllows (s : State) (g : Seg) (size : AddrSize) (ea : Quad) (kind : AccessKind) : Prop :=
  ((s.mode = .prot ∨ s.mode = .compat) → DescriptorAllows (s.segReg g) kind) ∧ WithinOffsets s size ea.toNat
    ∧ WithinLimit (s.segReg g) ea.toNat

/-- The linear address of an operand. In 64-bit mode: base plus offset modulo 2^64, where only FS and GS have a base
(20_memory.md R35). Outside it: what an entry of `seg_check` says (log 38), else base plus offset modulo 2^32 (R34). -/
def operandLinear (s : State) (g : Seg) (ea : Quad) (kind : AccessKind) : Quad :=
  if s.mode = .long64 then (if g = .fs then s.fs.base else if g = .gs then s.gs.base else 0#64) + ea
  else match lookupSegRule s.segRules g ea Config.operandBytes kind with
    | some (.linear la) => la.setWidth 64
    | _ => BitVec.ofNat 64 (((s.segReg g).base.toNat + ea.toNat) % 2 ^ 32)

/-- The segmentation of the mode allows the operand: R132 (5). -/
def SegmentAllows (s : State) (g : Seg) (size : AddrSize) (ea : Quad) (kind : AccessKind) : Prop :=
  if s.mode = .long64 then CanonicalOperand s (operandLinear s g ea kind)
  else match lookupSegRule s.segRules g ea Config.operandBytes kind with
    | some (.linear _) => True
    | some .refused => False
    | some .outside => False
    | none => DefaultAllows s g size ea kind

/-- The three conditions of alignment checking, and a mode that has it (20_memory.md R37, 60_exceptions.md R109). -/
def AlignmentChecked (s : State) : Prop :=
  s.am = true ∧ s.acFlag = true ∧ s.privilege = 3#2 ∧ s.mode ≠ .real

/-- The linear address of byte `k` of an operand (20_memory.md R32, R49; log 9). -/
def byteLinear (s : State) (la : Quad) (k : Nat) : Quad :=
  BitVec.ofNat 64 ((la.toNat + k) % 2 ^ (if s.mode = .long64 then 64 else 32))

/-- All that R132 asks of a state for one operand; `pa` is the physical address of each of the eight bytes. -/
def OperandReady (s : State) (m : MemOp) (len : Nat) (kind : AccessKind) (pa : Nat → Quad) : Prop :=
  len ≤ 15 ∧ SseReady s
    ∧ SegmentAllows s m.seg m.form.size (effectiveAddress s m.form len) kind
    ∧ (AlignmentChecked s → (operandLinear s m.seg (effectiveAddress s m.form len) kind).toNat % 8 = 0)
    ∧ ∀ k, k < 8 →
        translate s (byteLinear s (operandLinear s m.seg (effectiveAddress s m.form len) kind) k) kind = .mapped (pa k)

/-- The width of the instruction pointer (40_movhpd.md R96). -/
def ipBits (s : State) : Nat := if s.mode = .long64 then 64 else if s.csD then 32 else 16

/-! ## Safe states -/

/-- The invariant of the machine: memory is canonical, a mode is defined (D32), and outside 64-bit mode bits 63:32 of
the instruction pointer are zero (10_state.md R14). -/
def Inv (s : State) : Prop :=
  Memory.wf s.mem = true ∧ s.modeDefined = true ∧ (s.mode ≠ .long64 → s.ip.toNat < 2 ^ 32)

/-- A run is safe from `s` for `n` steps if it meets no fault and no refusal. -/
def SafeFor (n : Nat) (s : State) : Prop := ∃ t, Host.Core.run Sys2Proof.core n s = .next t

/-- A function on the next state, if there is one. -/
def mapNext (f : State → State) : Host.Outcome State Fault Refusal → Host.Outcome State Fault Refusal
  | .next t => .next (f t)
  | .fault e => .fault e
  | .refused r => .refused r

/-! ## Decoding in the terms of the tables -/

/-- The exceptions that a MOVHPD reports are those of 60_exceptions.md R100, with the error codes of its table. -/
def ListedException (mode : Mode) (e : Exc) : Prop :=
  e = .ud ∨ e = .nm ∨ e = .ss 0#32 ∨ e = .gp 0#32
    ∨ (mode ≠ .real ∧ (e = .ac 0#32 ∨ ∃ code linear, e = .pf code linear))

/-- What an answer of the decoder says of a MOVHPD load. -/
def LoadWith (d : Decoded) (p : RegNo → MemOp → Nat → Bool → Prop) : Prop :=
  match d with
  | .instr (.movhpdLoad x m len lock) => p x m len lock
  | _ => False

/-- What an answer of the decoder says of a MOVHPD store. -/
def StoreWith (d : Decoded) (p : RegNo → MemOp → Nat → Bool → Prop) : Prop :=
  match d with
  | .instr (.movhpdStore x m len lock) => p x m len lock
  | _ => False

/-- An answer of the decoder that is neither form of MOVHPD. -/
def NotMovhpd (d : Decoded) : Prop := ¬ LoadWith d (fun _ _ _ _ => True) ∧ ¬ StoreWith d (fun _ _ _ _ => True)

/-- The XMM registers that an instruction names (00_scope.md R7, codes U, V and W). -/
def xmmRegs : Instr → List RegNo
  | .movhpdLoad x _ _ _ | .movhpdStore x _ _ _ | .movhpsLoad x _ _ _ | .movhpsStore x _ _ _ => [x]
  | .movlhps d s _ _ => [d, s]
  | .movshdup d (.xmm s) _ _ => [d, s]
  | .movshdup d (.mem _) _ _ => [d]
  | .reserved66Load _ _ _ | .reserved66Store _ _ _ | .reservedF2Load _ _ | .reservedF2Store _ _
  | .reservedF3Store _ _ | .reservedPlainStore _ _ _ => []

/-- The eleven legacy prefix bytes (30_encoding.md R52). -/
def legacyBytes : List Byte :=
  [0x26#8, 0x2E#8, 0x36#8, 0x3E#8, 0x64#8, 0x65#8, 0x66#8, 0x67#8, 0xF0#8, 0xF2#8, 0xF3#8]

/-- The bytes before the opcode: legacy prefixes and, in 64-bit mode, bytes 40H to 4FH (30_encoding.md R52, R58). -/
def PrefixRun (mode : Mode) (pre : List Byte) : Prop :=
  ∀ b ∈ pre, b ∈ legacyBytes ∨ (mode = .long64 ∧ b.extractLsb' 4 4 = 4#4)

/-- The last F2H or F3H of the prefixes (30_encoding.md R54). -/
def lastRep (pre : List Byte) : Option Byte := pre.reverse.find? (fun b => b == 0xF2#8 || b == 0xF3#8)

/-- Prefixes that select the 66H column of the opcode map (30_encoding.md R53, R54). -/
def With66 (mode : Mode) (pre : List Byte) : Prop := PrefixRun mode pre ∧ 0x66#8 ∈ pre ∧ lastRep pre = none

/-- The segment that a prefix byte gives an operand: in 64-bit mode FS and GS alone (30_encoding.md R52, R56). -/
def overrideOf (mode : Mode) (b : Byte) : Option Seg :=
  if b = 0x64#8 then some .fs
  else if b = 0x65#8 then some .gs
  else if mode = .long64 then none
  else if b = 0x26#8 then some .es
  else if b = 0x2E#8 then some .cs
  else if b = 0x36#8 then some .ss
  else if b = 0x3E#8 then some .ds
  else none

/-- The segment of the last override that has an effect (30_encoding.md R52, R70; log 13). -/
def lastOverride (mode : Mode) (pre : List Byte) : Option Seg := pre.reverse.findSome? (overrideOf mode)

/-- Bit `k` of the REX byte directly before the opcode (W 3, R 2, X 1, B 0), 0 where there is none
(30_encoding.md R58, R60). -/
def rexBit (pre : List Byte) (k : Nat) : BitVec 1 :=
  match pre.getLast? with
  | some b => if b.extractLsb' 4 4 = 4#4 then b.extractLsb' k 1 else 0#1
  | none => 0#1

/-- The address size (10_state.md R19): in 64-bit mode 64, with 67H 32; outside it 16 where CS.D = 0 and there is no
67H, or CS.D = 1 and there is one, else 32. -/
def sizeOf (mode : Mode) (csD : Bool) (pre : List Byte) : AddrSize :=
  if mode = .long64 then (if 0x67#8 ∈ pre then .a32 else .a64)
  else if csD = decide (0x67#8 ∈ pre) then .a16 else .a32

/-- The opcode byte of the load and of the store (30_encoding.md R51). -/
def opByte (store : Bool) : Byte := if store then 0x17#8 else 0x16#8

/-- The load or the store form. -/
def movhpdForm (store : Bool) (x : RegNo) (m : MemOp) (len : Nat) (lock : Bool) : Instr :=
  if store then .movhpdStore x m len lock else .movhpdLoad x m len lock

/-- What an answer of the decoder says of the load or of the store form. -/
def FormWith (store : Bool) (d : Decoded) (p : RegNo → MemOp → Nat → Bool → Prop) : Prop :=
  if store then StoreWith d p else LoadWith d p

/-- The number of SIB bytes after ModR/M (30_encoding.md R72). -/
def sibLen (size : AddrSize) (rm : BitVec 3) : Nat := if size ≠ .a16 ∧ rm = 4#3 then 1 else 0

/-- The number of displacement bytes; `base` is the base field of the SIB byte, where there is one
(30_encoding.md R72). -/
def dispCount (size : AddrSize) (mod : BitVec 2) (rm base : BitVec 3) : Nat :=
  if mod = 0#2 then
    if size = .a16 then (if rm = 6#3 then 2 else 0)
    else if rm = 5#3 ∨ (rm = 4#3 ∧ base = 5#3) then 4 else 0
  else if mod = 1#2 then 1 else if size = .a16 then 2 else 4

/-- The decoder found an instruction, and in `s` it raises #UD. -/
def DecodesToUd (d : Decoded) (s : State) : Prop := ∃ i, d = .instr i ∧ exec i s = .fault (.exception .ud)

/-- The decoder found an instruction, and in `s` it is refused by that name. -/
def DecodesToRefused (d : Decoded) (s : State) (name : String) : Prop :=
  ∃ i, d = .instr i ∧ exec i s = .refused (.otherInstruction name)

/-- The displacement that mod says, as a number modulo 2^64: none, one byte, or `wide` bytes, sign-extended
(30_encoding.md R65, R66, R69). -/
def dispNat (mod : BitVec 2) (d0 : Byte) (wide : Quad) : Nat :=
  if mod = 0#2 then 0 else if mod = 1#2 then (d0.signExtend 64).toNat else wide.toNat

/-- The number of displacement bytes that mod says beside a base register. -/
def dispLen (mod : BitVec 2) (wide : Nat) : Nat := if mod = 0#2 then 0 else if mod = 1#2 then 1 else wide

/-- The register part of the 16-bit forms, by r/m (30_encoding.md R65). -/
def table16 (s : State) (rm : BitVec 3) : Nat :=
  match rm.toNat with
  | 0 => (s.readGpr 3#4).toNat + (s.readGpr 6#4).toNat
  | 1 => (s.readGpr 3#4).toNat + (s.readGpr 7#4).toNat
  | 2 => (s.readGpr 5#4).toNat + (s.readGpr 6#4).toNat
  | 3 => (s.readGpr 5#4).toNat + (s.readGpr 7#4).toNat
  | 4 => (s.readGpr 6#4).toNat
  | 5 => (s.readGpr 7#4).toNat
  | 6 => (s.readGpr 5#4).toNat
  | _ => (s.readGpr 3#4).toNat

/-- The index part of an SIB form (30_encoding.md R67, R68): nothing for the number 0100B. -/
def indexNat (s : State) (i : RegNo) (scale : BitVec 2) : Nat :=
  if i = 4#4 then 0 else (s.readGpr i).toNat * 2 ^ scale.toNat

/-- The default segment of a base register number (30_encoding.md R67, R68). -/
def segOfBase (b : RegNo) : Seg := if b = 4#4 ∨ b = 5#4 then .ss else .ds

end Sys2Proof.Machine
end

