-- ==== Sys2Proof/Certificates/Slice0/Obligations.lean ====
section
/-! DEFINITION. The statements for the provers (OBLIGATIONS.json lists them). Each docstring names the rules of the spec it formalises, and which of its clauses rest on a choice of the spec or of the model. -/

open Sys2Proof Sys2Proof.Machine

/-! ## Reset -/

/-- 10_state.md R27 (values the spec takes from general knowledge, D21) and 70 R130 (the time-stamp counter). RDX, the
fields of the segment registers that R27 does not name and the rest of the untouched state are the model's choice
(logs 3 and 4) and are not stated here. -/
def Obligations.ResetHoldsTheResetTable : Prop :=
  (∀ r : RegNo, State.reset.readXmm r = 0#128) ∧ State.reset.mxcsr = 0x1F80#32
    ∧ (∀ r : RegNo, r ≠ 2#4 → State.reset.readGpr r = 0#64) ∧ State.reset.ip = 0xFFF0#64
    ∧ State.reset.cs.selector = 0xF000#16 ∧ State.reset.cs.base = 0xFFFF0000#64 ∧ State.reset.cs.limit = 0xFFFF#32
    ∧ State.reset.cs.readable = true ∧ State.reset.cs.present = true
    ∧ (∀ g : Seg, g ≠ .cs →
        (State.reset.segReg g).selector = 0#16 ∧ (State.reset.segReg g).base = 0#64
          ∧ (State.reset.segReg g).limit = 0xFFFF#32 ∧ (State.reset.segReg g).writable = true
          ∧ (State.reset.segReg g).present = true)
    ∧ State.reset.cr0 = 0x60000010#64 ∧ State.reset.pe = false ∧ State.reset.em = false ∧ State.reset.ts = false
    ∧ State.reset.am = false
    ∧ State.reset.cr4 = 0#64 ∧ State.reset.osfxsr = false ∧ State.reset.osxmmexcpt = false
    ∧ State.reset.rflags = 2#64 ∧ State.reset.acFlag = false ∧ State.reset.vmFlag = false
    ∧ State.reset.efer = 0#64 ∧ State.reset.lma = false ∧ State.reset.cpl = 0#2
    ∧ State.reset.mode = .real ∧ State.reset.csD = false ∧ State.reset.csL = false
    ∧ State.reset.other.tsc = 0#64

/-- The invariant holds after reset. -/
def Obligations.ResetSatisfiesTheInvariant : Prop := Inv State.reset

/-- 10_state.md R27 and 70 R132: straight after reset CR4.OSFXSR = 0, so a MOVHPD raises #UD, and the first step does
so when a MOVHPD stands at the reset vector. -/
def Obligations.MovhpdAfterResetRaisesInvalidOpcode : Prop :=
  (∀ (x : RegNo) (m : MemOp) (len : Nat) (lock : Bool), len ≤ 15 →
      exec (.movhpdLoad x m len lock) State.reset = .fault (.exception .ud)
        ∧ exec (.movhpdStore x m len lock) State.reset = .fault (.exception .ud))
    ∧ step (State.reset.withFetchWord 24 0x0F1600) = .fault (.exception .ud)
    ∧ step (State.reset.withFetchWord 24 0x0F1700) = .fault (.exception .ud)

/-- 70 R131, 10_state.md R27: INIT leaves the XMM registers and MXCSR as they were. That it also leaves memory, the
single-valued parameters, the x87 registers and the time-stamp counter, and gives every other field its reset value,
the data that stand for `translate` and `seg_check` among them, is the model's reading (log 36). -/
def Obligations.InitKeepsXmmAndMxcsr : Prop :=
  ∀ s : State, s.afterInit.xmm = s.xmm ∧ s.afterInit.mxcsr = s.mxcsr ∧ s.afterInit.mem = s.mem
    ∧ s.afterInit.params = s.params ∧ s.afterInit.gpr = State.reset.gpr ∧ s.afterInit.ip = State.reset.ip
    ∧ (∀ g : Seg, s.afterInit.segReg g = State.reset.segReg g)
    ∧ s.afterInit.csL = State.reset.csL ∧ s.afterInit.csD = State.reset.csD
    ∧ s.afterInit.cr0 = State.reset.cr0 ∧ s.afterInit.cr2 = State.reset.cr2 ∧ s.afterInit.cr3 = State.reset.cr3
    ∧ s.afterInit.cr4 = State.reset.cr4
    ∧ s.afterInit.rflags = State.reset.rflags ∧ s.afterInit.efer = State.reset.efer
    ∧ s.afterInit.cpl = State.reset.cpl ∧ s.afterInit.mode = .real
    ∧ s.afterInit.paging = State.reset.paging ∧ s.afterInit.segRules = State.reset.segRules
    ∧ s.afterInit.other = { State.reset.other with
        tsc := s.other.tsc, st := s.other.st, fcw := s.other.fcw, fsw := s.other.fsw, ftw := s.other.ftw }

/-! ## The step -/

/-- 60 R127, 30_encoding.md R77, 20_memory.md R47: what the decoder reads at CS:IP is what the step runs; too long is
#GP(0), another opcode is refused. The clause for bytes that end early, an answer R77 does not have, and the fault it
raises are the model's choice: R47 leaves the faults of a fetch to the model's fetch function (log 12). -/
def Obligations.StepRunsTheDecodedInstruction : Prop :=
  ∀ s : State, s.modeDefined = true →
    (∀ i : Instr, decode s.mode s.csD (fetchWindow s).1 = .instr i → step s = exec i s)
      ∧ (decode s.mode s.csD (fetchWindow s).1 = .tooLong → step s = .fault (.exception (.gp 0#32)))
      ∧ (decode s.mode s.csD (fetchWindow s).1 = .otherOpcode → step s = .refused .otherOpcode)
      ∧ (decode s.mode s.csD (fetchWindow s).1 = .incomplete →
          ∃ e, (fetchWindow s).2 = some e ∧ step s = .fault (.exception e))

/-- The model's choice (log 12), where 20_memory.md R47 leaves the faults of a fetch to the model: only the instruction's
own bytes (30_encoding.md R72) need be fetched: if each of them is at its fetch address, the step runs the instruction
whatever follows it in memory and whether that could be fetched or not. -/
def Obligations.StepNeedsOnlyTheInstructionsBytes : Prop :=
  ∀ (s : State) (i : Instr) (bytes : List Byte), s.modeDefined = true →
    decode s.mode s.csD bytes = .instr i → i.len = bytes.length →
    (∀ k, (hk : k < bytes.length) → ∃ pa, fetchAddress s k = .ok pa ∧ s.readByte pa = bytes[k]) →
    step s = exec i s

/-- 10_state.md R18, 92 D32 and the first half of 93 U15: a step is stuck exactly where LMA = 1 with VM = 1, or LMA = 1
without Intel 64. U15 also puts CS.L = 1 with CS.D = 1 outside the state invariant; that such a state runs, as 64-bit
mode, is the model's choice, and so is the name of the fault (log 11). -/
def Obligations.UndefinedModeIsStuck : Prop :=
  ∀ s : State, (s.lma = true ∧ (s.vmFlag = true ∨ s.params.hasIntel64 = false)) ↔ step s = .fault .noMode

/-! ## Encodings -/

/-- Words written out from 30_encoding.md R51, R60, R65 to R68 (95 V2, V5, V8, V13, V25). -/
def Obligations.SpecWordsDecode : Prop :=
  decode .prot true [0x66#8, 0x0F#8, 0x17#8, 0x4B#8, 0x08#8]
      = .instr (.movhpdStore 1#4 ⟨.ds, ⟨.a32, some 3#4, none, 8#64, false⟩⟩ 5 false)
    ∧ decode .prot true [0x66#8, 0x0F#8, 0x16#8, 0x44#8, 0x24#8, 0x10#8]
      = .instr (.movhpdLoad 0#4 ⟨.ss, ⟨.a32, some 4#4, none, 16#64, false⟩⟩ 6 false)
    ∧ decode .prot true [0x66#8, 0x0F#8, 0x16#8, 0x94#8, 0xC8#8, 0x00#8, 0x01#8, 0x00#8, 0x00#8]
      = .instr (.movhpdLoad 2#4 ⟨.ds, ⟨.a32, some 0#4, some (1#4, 3#2), 256#64, false⟩⟩ 9 false)
    ∧ decode .real false [0x66#8, 0x0F#8, 0x17#8, 0x0E#8, 0x34#8, 0x12#8]
      = .instr (.movhpdStore 1#4 ⟨.ds, ⟨.a16, none, none, 0x1234#64, false⟩⟩ 6 false)
    ∧ decode .long64 false [0x66#8, 0x42#8, 0x0F#8, 0x16#8, 0x04#8, 0x20#8]
      = .instr (.movhpdLoad 0#4 ⟨.ds, ⟨.a64, some 0#4, some (12#4, 0#2), 0#64, false⟩⟩ 6 false)

/-- 30_encoding.md R51, R77: decoding an encoded well-formed instruction gives it back, whatever follows it. -/
def Obligations.DecodeOfEncodeIsIdentity : Prop :=
  ∀ (mode : Mode) (csD : Bool) (i : Instr) (rest : List Byte),
    i.wf mode csD = true → decode mode csD (encode mode csD i ++ rest) = .instr i

/-- 30_encoding.md R72, R73: the encoding of a well-formed instruction has its length, three to fifteen bytes. -/
def Obligations.EncodeHasTheLength : Prop :=
  ∀ (mode : Mode) (csD : Bool) (i : Instr), i.wf mode csD = true →
    (encode mode csD i).length = i.len ∧ 3 ≤ i.len ∧ i.len ≤ 15

/-- 30_encoding.md R72, R77: whatever the bytes, a decoded instruction is well-formed in the mode, and no longer than
the bytes. -/
def Obligations.DecodeAnswersWellFormed : Prop :=
  ∀ (mode : Mode) (csD : Bool) (bytes : List Byte) (i : Instr),
    decode mode csD bytes = .instr i → i.wf mode csD = true ∧ i.len ≤ bytes.length

/-- 30_encoding.md R72: the decoder finds an instruction from its own bytes alone. -/
def Obligations.DecodeReadsOnlyTheInstructionsBytes : Prop :=
  ∀ (mode : Mode) (csD : Bool) (bytes rest : List Byte) (i : Instr),
    decode mode csD bytes = .instr i → decode mode csD (bytes.take i.len ++ rest) = .instr i

/-- 30_encoding.md R74: the cells of the opcode map at 0F 16 and 0F 17, with what each does: MOVHPD, #UD (R75, D5; log
25), or the refusal of a neighbour by name (R76, D1; log 26). `pre` is any run of at most seven prefix bytes; which of
them selects the column is D7 (log 13). `d` stands for the bytes after ModR/M, enough for SIB and displacement. -/
def Obligations.OpcodeMapCells : Prop :=
  ∀ (mode : Mode) (csD : Bool) (pre : List Byte) (modrm : Byte) (d : List Byte) (s : State),
    PrefixRun mode pre → pre.length ≤ 7 → 5 ≤ d.length →
    (lastRep pre = none → 0x66#8 ∈ pre → modrm.toNat < 0xC0 → ∀ store,
        FormWith store (decode mode csD (pre ++ 0x0F#8 :: opByte store :: modrm :: d))
          (fun _ _ _ lock => lock = true ↔ 0xF0#8 ∈ pre))
      ∧ (lastRep pre = none → 0x66#8 ∈ pre → 0xC0 ≤ modrm.toNat → ∀ store,
        DecodesToUd (decode mode csD (pre ++ 0x0F#8 :: opByte store :: modrm :: d)) s)
      ∧ (lastRep pre = none → 0x66#8 ∉ pre → modrm.toNat < 0xC0 → ∀ store,
        DecodesToRefused (decode mode csD (pre ++ 0x0F#8 :: opByte store :: modrm :: d)) s "MOVHPS")
      ∧ (lastRep pre = none → 0x66#8 ∉ pre → 0xC0 ≤ modrm.toNat →
        DecodesToRefused (decode mode csD (pre ++ 0x0F#8 :: 0x16#8 :: modrm :: d)) s "MOVLHPS"
          ∧ DecodesToUd (decode mode csD (pre ++ 0x0F#8 :: 0x17#8 :: modrm :: d)) s)
      ∧ (lastRep pre = some 0xF3#8 →
        DecodesToRefused (decode mode csD (pre ++ 0x0F#8 :: 0x16#8 :: modrm :: d)) s "MOVSHDUP"
          ∧ DecodesToUd (decode mode csD (pre ++ 0x0F#8 :: 0x17#8 :: modrm :: d)) s)
      ∧ (lastRep pre = some 0xF2#8 → ∀ store,
        DecodesToUd (decode mode csD (pre ++ 0x0F#8 :: opByte store :: modrm :: d)) s)

/-- 30_encoding.md R60: the XMM register is REX.R before reg, REX.R being 0 without a REX byte, and mod, r/m, SIB and
displacement alone give the memory operand. -/
def Obligations.XmmNumberIsRexRBeforeReg : Prop :=
  ∀ (mode : Mode) (csD : Bool) (mod : BitVec 2) (rm : BitVec 3) (w x b : BitVec 1) (d : List Byte),
    mod ≠ 3#2 → 5 ≤ d.length →
    (∃ m len, ∀ reg : BitVec 3,
        decode mode csD (0x66#8 :: 0x0F#8 :: 0x16#8 :: (mod ++ reg ++ rm) :: d)
            = .instr (.movhpdLoad (0#1 ++ reg) m len false)
        ∧ decode mode csD (0x66#8 :: 0x0F#8 :: 0x17#8 :: (mod ++ reg ++ rm) :: d)
            = .instr (.movhpdStore (0#1 ++ reg) m len false))
      ∧ ∃ m len, ∀ (r : BitVec 1) (reg : BitVec 3),
        decode .long64 csD (0x66#8 :: (4#4 ++ w ++ r ++ x ++ b) :: 0x0F#8 :: 0x16#8 :: (mod ++ reg ++ rm) :: d)
            = .instr (.movhpdLoad (r ++ reg) m len false)
        ∧ decode .long64 csD (0x66#8 :: (4#4 ++ w ++ r ++ x ++ b) :: 0x0F#8 :: 0x17#8 :: (mod ++ reg ++ rm) :: d)
            = .instr (.movhpdStore (r ++ reg) m len false)

/-- 10_state.md R10: there are sixteen registers of 128 bits and no more, each holding any value whatever the others hold
(the state's first two clauses); outside 64-bit mode an instruction names only XMM0 to XMM7; in 64-bit mode a MOVHPD
that names one of XMM8 to XMM15 has a REX byte with R = 1 among its prefixes, and there is an encoding for each of the
sixteen. (The register of r/m that MOVLHPS and MOVSHDUP name takes its fourth bit from REX.B.) -/
def Obligations.HighXmmRegistersNeedRexR : Prop :=
  (∀ (s : State) (x : RegNo) (v : BitVec 128),
      ∃ t : State, t.readXmm x = v ∧ ∀ y : RegNo, y ≠ x → t.readXmm y = s.readXmm y)
    ∧ (∀ s t : State, (∀ x : RegNo, s.readXmm x = t.readXmm x) → s.xmm = t.xmm)
    ∧ (∀ (mode : Mode) (csD : Bool) (bytes : List Byte) (i : Instr), mode ≠ .long64 →
      decode mode csD bytes = .instr i → ∀ x ∈ xmmRegs i, x.toNat < 8)
    ∧ (∀ (csD : Bool) (bytes : List Byte) (store : Bool) (x : RegNo) (m : MemOp) (len : Nat) (lock : Bool),
      decode .long64 csD bytes = .instr (movhpdForm store x m len lock) → 8 ≤ x.toNat →
        ∃ (ps rest : List Byte) (rex : Byte), bytes = ps ++ rex :: rest ∧ PrefixRun .long64 ps
          ∧ rex.extractLsb' 4 4 = 4#4 ∧ rex.getLsbD 2 = true)
    ∧ (∀ (csD : Bool) (x : RegNo), ∃ (rex : Byte) (modrm : Byte) (m : MemOp),
        rex.extractLsb' 4 4 = 4#4 ∧ rex.getLsbD 2 = x.getLsbD 3
        ∧ decode .long64 csD [0x66#8, rex, 0x0F#8, 0x16#8, modrm] = .instr (.movhpdLoad x m 5 false)
        ∧ decode .long64 csD [0x66#8, rex, 0x0F#8, 0x17#8, modrm] = .instr (.movhpdStore x m 5 false))

/-- 30_encoding.md R61: with 66H the ModR/M bytes C0H to FFH after 0F 16 and 0F 17 are the reserved rows of R75, without
66H those after 0F 16 are MOVLHPS, and the bytes 00H to BFH address memory; with a REX byte directly before 0FH, in
64-bit mode, as without one. Other prefixes are in `OpcodeMapCells`. -/
def Obligations.ModRmFromC0NamesNoMemory : Prop :=
  ∀ (mode : Mode) (csD : Bool) (rex : List Byte) (modrm : Byte) (d : List Byte),
    (rex = [] ∨ (mode = .long64 ∧ ∃ bits : BitVec 4, rex = [4#4 ++ bits])) → 5 ≤ d.length →
    (0xC0 ≤ modrm.toNat →
        (∃ len, decode mode csD (0x66#8 :: rex ++ 0x0F#8 :: 0x16#8 :: modrm :: d)
            = .instr (.reserved66Load (modrm.extractLsb' 3 3) (modrm.extractLsb' 0 3) len))
        ∧ (∃ len, decode mode csD (0x66#8 :: rex ++ 0x0F#8 :: 0x17#8 :: modrm :: d)
            = .instr (.reserved66Store (modrm.extractLsb' 3 3) (modrm.extractLsb' 0 3) len))
        ∧ ∃ len, decode mode csD (rex ++ 0x0F#8 :: 0x16#8 :: modrm :: d)
            = .instr (.movlhps (rexBit rex 2 ++ modrm.extractLsb' 3 3) (rexBit rex 0 ++ modrm.extractLsb' 0 3) len
                false))
      ∧ (modrm.toNat < 0xC0 →
        ∃ m len, ∀ store,
          decode mode csD (0x66#8 :: rex ++ 0x0F#8 :: opByte store :: modrm :: d)
            = .instr (movhpdForm store (rexBit rex 2 ++ modrm.extractLsb' 3 3) m len false))

/-- 30_encoding.md R72: the length of a MOVHPD is its prefix bytes (legacy and REX), 0FH, opcode and ModR/M, one for an
SIB byte if there is one, and its displacement bytes; ModR/M (and base 101B of the SIB byte) and the address size give
the last two by the addressing tables, which the spec takes from general knowledge (R65 to R68, D9; log 14). -/
def Obligations.LengthCountsEveryByte : Prop :=
  ∀ (mode : Mode) (csD : Bool) (bytes : List Byte) (x : RegNo) (m : MemOp) (len : Nat) (lock : Bool),
    (decode mode csD bytes = .instr (.movhpdLoad x m len lock)
      ∨ decode mode csD bytes = .instr (.movhpdStore x m len lock)) →
    ∃ (pre sib disp rest : List Byte) (op modrm : Byte),
      bytes = pre ++ [0x0F#8, op, modrm] ++ sib ++ disp ++ rest
        ∧ (∀ b ∈ pre, b ∈ legacyBytes ∨ (mode = .long64 ∧ b.extractLsb' 4 4 = 4#4))
        ∧ (op = 0x16#8 ∨ op = 0x17#8)
        ∧ sib.length = (if m.form.size ≠ .a16 ∧ modrm.extractLsb' 0 3 = 4#3 then 1 else 0)
        ∧ disp.length
          = (if modrm.extractLsb' 6 2 = 0#2 then
              (if m.form.size = .a16 then (if modrm.extractLsb' 0 3 = 6#3 then 2 else 0)
                else if modrm.extractLsb' 0 3 = 5#3 ∨ sib.any (fun b => b.extractLsb' 0 3 == 5#3) = true then 4
                else 0)
            else if modrm.extractLsb' 6 2 = 1#2 then 1
            else if m.form.size = .a16 then 2 else 4)
        ∧ len = pre.length + 3 + sib.length + disp.length

/-- 30_encoding.md R57, R62, 10_state.md R19: the address size with and without 67H in each mode; in 64-bit mode it is
never 16. That 67H toggles between 16 and 32 outside 64-bit mode is the spec's general knowledge. -/
def Obligations.AddressSizeOfThePrefix : Prop :=
  ∀ (mode : Mode) (csD : Bool) (modrm : Byte) (d : List Byte), modrm.toNat < 0xC0 → 5 ≤ d.length →
    LoadWith (decode mode csD (0x66#8 :: 0x0F#8 :: 0x16#8 :: modrm :: d))
        (fun _ m _ _ => m.form.size = if mode = .long64 then .a64 else if csD then .a32 else .a16)
      ∧ LoadWith (decode mode csD (0x67#8 :: 0x66#8 :: 0x0F#8 :: 0x16#8 :: modrm :: d))
        (fun _ m _ _ => m.form.size = if mode = .long64 then .a32 else if csD then .a16 else .a32)
      ∧ StoreWith (decode mode csD (0x66#8 :: 0x0F#8 :: 0x17#8 :: modrm :: d))
        (fun _ m _ _ => m.form.size = if mode = .long64 then .a64 else if csD then .a32 else .a16)
      ∧ StoreWith (decode mode csD (0x67#8 :: 0x66#8 :: 0x0F#8 :: 0x17#8 :: modrm :: d))
        (fun _ m _ _ => m.form.size = if mode = .long64 then .a32 else if csD then .a16 else .a32)

/-- 30_encoding.md R54 (D7, general knowledge): an instruction with F2H or F3H among its legacy prefixes is never a
MOVHPD, whatever else stands there. -/
def Obligations.RepeatBytesExcludeMovhpd : Prop :=
  ∀ (mode : Mode) (csD : Bool) (ps rest : List Byte), (∀ p ∈ ps, p ∈ legacyBytes) →
    (0xF2#8 ∈ ps ∨ 0xF3#8 ∈ ps) → NotMovhpd (decode mode csD (ps ++ rest))

/-- 30_encoding.md R52 (D7, general knowledge): legacy prefixes may stand in any order: two neighbouring ones may be
exchanged, unless both are segment overrides or both are F2H/F3H. -/
def Obligations.LegacyPrefixOrderIsFree : Prop :=
  ∀ (mode : Mode) (csD : Bool) (a b : Byte) (ps rest : List Byte), (∀ p ∈ ps, p ∈ legacyBytes) →
    a ∈ legacyBytes → b ∈ legacyBytes →
    ¬ (a ∈ [0x26#8, 0x2E#8, 0x36#8, 0x3E#8, 0x64#8, 0x65#8] ∧ b ∈ [0x26#8, 0x2E#8, 0x36#8, 0x3E#8, 0x64#8, 0x65#8]) →
    ¬ (a ∈ [0xF2#8, 0xF3#8] ∧ b ∈ [0xF2#8, 0xF3#8]) →
    decode mode csD (ps ++ a :: b :: rest) = decode mode csD (ps ++ b :: a :: rest)

/-- 30_encoding.md R52, R56, R70, for both forms and any run of prefixes: the operand's segment is that of the last
override, else the default of its form; one more override byte in front changes nothing but the segment, where it has
an effect and no later one has, and the length. Which overrides have an effect in 64-bit mode is D10, that the last
wins D7; that there one without effect leaves an earlier FS or GS in force is the model's choice (log 13). -/
def Obligations.SegmentOverrideSelects : Prop :=
  ∀ (mode : Mode) (csD : Bool) (pre : List Byte) (store : Bool) (modrm : Byte) (d : List Byte) (x : RegNo) (m : MemOp)
    (len : Nat) (lock : Bool) (g : Seg), PrefixRun mode pre →
    decode mode csD (pre ++ 0x0F#8 :: opByte store :: modrm :: d) = .instr (movhpdForm store x m len lock) →
    m.seg = (lastOverride mode pre).getD m.form.defaultSeg
      ∧ (len < 15 →
        decode mode csD (g.overrideByte :: pre ++ 0x0F#8 :: opByte store :: modrm :: d)
          = .instr (movhpdForm store x
              ⟨(lastOverride mode (g.overrideByte :: pre)).getD m.form.defaultSeg, m.form⟩ (len + 1) lock))

/-- 30_encoding.md R58: outside 64-bit mode a byte 40H to 4FH after the legacy prefixes is another instruction; in
64-bit mode one that a legacy prefix follows is ignored, REX.W changes nothing, and REX 40H before the opcode changes
nothing but the length (R59; D8, general knowledge, log 13). -/
def Obligations.RexByteCountsOnlyBeforeTheOpcode : Prop :=
  ∀ (mode : Mode) (csD : Bool) (ps rest : List Byte) (bits : BitVec 4) (p : Byte), (∀ q ∈ ps, q ∈ legacyBytes) →
    p ∈ legacyBytes →
    (mode ≠ .long64 → ps.length < 15 → decode mode csD (ps ++ (4#4 ++ bits) :: rest) = .otherOpcode)
      ∧ scanPrefixes true .empty (ps ++ (4#4 ++ bits) :: p :: rest) = scanPrefixes true .empty (ps ++ p :: rest)
      ∧ (∀ (rxb : BitVec 3), decode .long64 csD (ps ++ (4#4 ++ 0#1 ++ rxb) :: 0x0F#8 :: rest)
          = decode .long64 csD (ps ++ (4#4 ++ 1#1 ++ rxb) :: 0x0F#8 :: rest))
      ∧ ∀ (store : Bool) (x : RegNo) (m : MemOp) (len : Nat) (lock : Bool), len < 15 →
          decode .long64 csD (ps ++ 0x0F#8 :: rest) = .instr (movhpdForm store x m len lock) →
          decode .long64 csD (ps ++ 0x40#8 :: 0x0F#8 :: rest) = .instr (movhpdForm store x m (len + 1) lock)

/-! ## Addressing forms -/

/-- 30_encoding.md R65 (general knowledge, D9; log 14), R70, R71, R72: every row of the 16-bit table, for both forms,
after any run of prefixes, with CS.D = 0 and no 67H or CS.D = 1 and 67H: the effective address modulo 2^16, the
segment (the last override, D7, log 13, else the row's default) and the length. -/
def Obligations.SixteenBitAddressingTable : Prop :=
  ∀ (s : State) (pre : List Byte) (store : Bool) (mod : BitVec 2) (reg rm : BitVec 3) (d0 d1 : Byte) (d : List Byte),
    s.mode ≠ .long64 → With66 s.mode pre → s.csD = decide (0x67#8 ∈ pre) → mod ≠ 3#2 →
    pre.length + 3 + (if mod = 0#2 ∧ rm = 6#3 then 2 else dispLen mod 2) ≤ 15 →
    FormWith store (decode s.mode s.csD (pre ++ 0x0F#8 :: opByte store :: (mod ++ reg ++ rm) :: d0 :: d1 :: d))
      (fun x m len lock => x = 0#1 ++ reg ∧ (lock = true ↔ 0xF0#8 ∈ pre)
        ∧ (effectiveAddress s m.form len).toNat
            = (if mod = 0#2 ∧ rm = 6#3 then (d1 ++ d0).toNat
                else table16 s rm + dispNat mod d0 ((d1 ++ d0).signExtend 64)) % 2 ^ 16
        ∧ m.seg = (lastOverride s.mode pre).getD
            (if (rm = 2#3 ∨ rm = 3#3) ∨ (rm = 6#3 ∧ mod ≠ 0#2) then .ss else .ds)
        ∧ len = pre.length + 3 + (if mod = 0#2 ∧ rm = 6#3 then 2 else dispLen mod 2))

/-- 30_encoding.md R66 (general knowledge, D9; log 14), R70, R71, R72: the 32-bit ModR/M table without an SIB byte, for
both forms, after any run of prefixes, with CS.D = 1 and no 67H or CS.D = 0 and 67H; the last override wins (D7; log
13). -/
def Obligations.ThirtyTwoBitAddressingTable : Prop :=
  ∀ (s : State) (pre : List Byte) (store : Bool) (mod : BitVec 2) (reg rm : BitVec 3) (d0 d1 d2 d3 : Byte)
    (d : List Byte), s.mode ≠ .long64 → With66 s.mode pre → s.csD = !decide (0x67#8 ∈ pre) → mod ≠ 3#2 → rm ≠ 4#3 →
    pre.length + 3 + (if mod = 0#2 ∧ rm = 5#3 then 4 else dispLen mod 4) ≤ 15 →
    FormWith store (decode s.mode s.csD
        (pre ++ 0x0F#8 :: opByte store :: (mod ++ reg ++ rm) :: d0 :: d1 :: d2 :: d3 :: d))
      (fun x m len lock => x = 0#1 ++ reg ∧ (lock = true ↔ 0xF0#8 ∈ pre)
        ∧ (effectiveAddress s m.form len).toNat
            = (if mod = 0#2 ∧ rm = 5#3 then (d3 ++ d2 ++ d1 ++ d0).toNat
                else (s.readGpr (0#1 ++ rm)).toNat
                  + dispNat mod d0 ((d3 ++ d2 ++ d1 ++ d0).signExtend 64)) % 2 ^ 32
        ∧ m.seg = (lastOverride s.mode pre).getD (if rm = 5#3 ∧ mod ≠ 0#2 then .ss else .ds)
        ∧ len = pre.length + 3 + (if mod = 0#2 ∧ rm = 5#3 then 4 else dispLen mod 4))

/-- 30_encoding.md R67 (general knowledge, D9; log 14), R70, R71, R72: the SIB table outside 64-bit mode, for both forms,
after any run of prefixes, with CS.D = 1 and no 67H or CS.D = 0 and 67H: index 100B is none, base 101B with mod = 00B
is a disp32, only the base decides the default segment, and the last override wins (D7; log 13). -/
def Obligations.SibAddressingTable : Prop :=
  ∀ (s : State) (pre : List Byte) (store : Bool) (mod scale : BitVec 2) (reg index base : BitVec 3)
    (d0 d1 d2 d3 : Byte) (d : List Byte),
    s.mode ≠ .long64 → With66 s.mode pre → s.csD = !decide (0x67#8 ∈ pre) → mod ≠ 3#2 →
    pre.length + 4 + (if mod = 0#2 ∧ base = 5#3 then 4 else dispLen mod 4) ≤ 15 →
    FormWith store (decode s.mode s.csD (pre ++ 0x0F#8 :: opByte store :: (mod ++ reg ++ 4#3)
          :: (scale ++ index ++ base) :: d0 :: d1 :: d2 :: d3 :: d))
      (fun x m len lock => x = 0#1 ++ reg ∧ (lock = true ↔ 0xF0#8 ∈ pre)
        ∧ (effectiveAddress s m.form len).toNat
            = ((if mod = 0#2 ∧ base = 5#3 then (d3 ++ d2 ++ d1 ++ d0).toNat
                else (s.readGpr (0#1 ++ base)).toNat
                  + dispNat mod d0 ((d3 ++ d2 ++ d1 ++ d0).signExtend 64))
                + indexNat s (0#1 ++ index) scale) % 2 ^ 32
        ∧ m.seg = (lastOverride s.mode pre).getD
            (if mod = 0#2 ∧ base = 5#3 then .ds else segOfBase (0#1 ++ base))
        ∧ len = pre.length + 4 + (if mod = 0#2 ∧ base = 5#3 then 4 else dispLen mod 4))

/-- 30_encoding.md R68 (general knowledge, D9; log 14), R70 to R72: 64-bit mode without an SIB byte, for both forms, after
any run of prefixes, with a REX byte before the opcode or without one (its bits are then 0): REX.R and REX.B extend
reg and r/m, RIP-relative for mod = 00B and r/m = 101B, at address size 64 and, with 67H, at 32. The segment clause:
FS and GS alone override (D10), the last of them wins (D7), and that an override without effect leaves an earlier FS
or GS in force is the model's choice (log 13). -/
def Obligations.SixtyFourBitAddressingTable : Prop :=
  ∀ (s : State) (pre : List Byte) (store : Bool) (mod : BitVec 2) (reg rm : BitVec 3) (d0 d1 d2 d3 : Byte)
    (d : List Byte), s.mode = .long64 → With66 s.mode pre → mod ≠ 3#2 → rm ≠ 4#3 →
    pre.length + 3 + (if mod = 0#2 ∧ rm = 5#3 then 4 else dispLen mod 4) ≤ 15 →
    FormWith store (decode s.mode s.csD
        (pre ++ 0x0F#8 :: opByte store :: (mod ++ reg ++ rm) :: d0 :: d1 :: d2 :: d3 :: d))
      (fun x m len lock => x = rexBit pre 2 ++ reg ∧ (lock = true ↔ 0xF0#8 ∈ pre)
        ∧ (effectiveAddress s m.form len).toNat
            = (if mod = 0#2 ∧ rm = 5#3 then
                  s.ip.toNat + len + ((d3 ++ d2 ++ d1 ++ d0).signExtend 64).toNat
                else (s.readGpr (rexBit pre 0 ++ rm)).toNat
                  + dispNat mod d0 ((d3 ++ d2 ++ d1 ++ d0).signExtend 64)) % 2 ^ (if 0x67#8 ∈ pre then 32 else 64)
        ∧ m.seg = (lastOverride s.mode pre).getD
            (if mod = 0#2 ∧ rm = 5#3 then .ds else segOfBase (rexBit pre 0 ++ rm))
        ∧ len = pre.length + 3 + (if mod = 0#2 ∧ rm = 5#3 then 4 else dispLen mod 4))

/-- 30_encoding.md R68 (general knowledge, D9; log 14), R70 to R72: 64-bit mode with an SIB byte, for both forms, after any
run of prefixes, with a REX byte before the opcode or without one (its bits are then 0): REX.X and REX.B extend index
and base, only the number 0100B is no index, and the special cases look at three bits. The segment clause: FS and GS
alone override (D10), the last of them wins (D7), and that an override without effect leaves an earlier FS or GS in
force is the model's choice (log 13). -/
def Obligations.SixtyFourBitSibTable : Prop :=
  ∀ (s : State) (pre : List Byte) (store : Bool) (mod scale : BitVec 2) (reg index base : BitVec 3)
    (d0 d1 d2 d3 : Byte) (d : List Byte), s.mode = .long64 → With66 s.mode pre → mod ≠ 3#2 →
    pre.length + 4 + (if mod = 0#2 ∧ base = 5#3 then 4 else dispLen mod 4) ≤ 15 →
    FormWith store (decode s.mode s.csD (pre ++ 0x0F#8 :: opByte store :: (mod ++ reg ++ 4#3)
          :: (scale ++ index ++ base) :: d0 :: d1 :: d2 :: d3 :: d))
      (fun x m len lock => x = rexBit pre 2 ++ reg ∧ (lock = true ↔ 0xF0#8 ∈ pre)
        ∧ (effectiveAddress s m.form len).toNat
            = ((if mod = 0#2 ∧ base = 5#3 then ((d3 ++ d2 ++ d1 ++ d0).signExtend 64).toNat
                else (s.readGpr (rexBit pre 0 ++ base)).toNat
                  + dispNat mod d0 ((d3 ++ d2 ++ d1 ++ d0).signExtend 64))
                + indexNat s (rexBit pre 1 ++ index) scale) % 2 ^ (if 0x67#8 ∈ pre then 32 else 64)
        ∧ m.seg = (lastOverride s.mode pre).getD
            (if mod = 0#2 ∧ base = 5#3 then .ds else segOfBase (rexBit pre 0 ++ base))
        ∧ len = pre.length + 4 + (if mod = 0#2 ∧ base = 5#3 then 4 else dispLen mod 4))

/-! ## The two forms: result and frame -/

/-- 40_movhpd.md R90, R93, R96, 70 R132: a MOVHPD load whose conditions hold completes: bits 127:64 of the register are
the eight bytes, least significant first; its low quadword (D2), every other register, flag, control field and byte
of memory are as before, and IP has advanced. -/
def Obligations.LoadWritesOnlyTheHighQuadword : Prop :=
  ∀ (s : State) (x : RegNo) (m : MemOp) (len : Nat) (pa : Nat → Quad), OperandReady s m len .read pa →
    ∃ t, exec (.movhpdLoad x m len false) s = .next t
      ∧ (∀ k, k < 8 → (t.readXmm x).extractLsb' (64 + 8 * k) 8 = s.readByte (pa k))
      ∧ (t.readXmm x).extractLsb' 0 64 = (s.readXmm x).extractLsb' 0 64
      ∧ (∀ r, r ≠ x → t.readXmm r = s.readXmm r)
      ∧ t.ip.toNat = (s.ip.toNat + len) % 2 ^ ipBits s
      ∧ (∀ a, Memory.read t.mem a = Memory.read s.mem a)
      ∧ { t with xmm := s.xmm, ip := s.ip } = s

/-- 40_movhpd.md R91, R93, R96, 70 R132: a MOVHPD store whose conditions hold completes: the eight bytes are bits 127:64
of the register, least significant first (of two bytes at one physical address the later stays, log 22); every other
byte of memory, every register, flag and control field is as before, and IP has advanced. -/
def Obligations.StoreWritesOnlyTheEightBytes : Prop :=
  ∀ (s : State) (x : RegNo) (m : MemOp) (len : Nat) (pa : Nat → Quad), OperandReady s m len .write pa →
    ∃ t, exec (.movhpdStore x m len false) s = .next t
      ∧ (Memory.wf s.mem = true → ∀ k, k < 8 → (∀ j, k < j → j < 8 → pa j ≠ pa k) →
          t.readByte (pa k) = (s.readXmm x).extractLsb' (64 + 8 * k) 8)
      ∧ (∀ a, (∀ k, k < 8 → a ≠ (pa k).toNat) → Memory.read t.mem a = Memory.read s.mem a)
      ∧ (∀ r, t.readXmm r = s.readXmm r)
      ∧ t.ip.toNat = (s.ip.toNat + len) % 2 ^ ipBits s
      ∧ { t with mem := s.mem, ip := s.ip } = s

/-- 70 R132: the conditions are needed and nothing else is: a MOVHPD completes exactly when they hold. -/
def Obligations.MovhpdCompletesExactlyWhenReady : Prop :=
  ∀ (s : State) (x : RegNo) (m : MemOp) (len : Nat) (lock : Bool),
    ((∃ t, exec (.movhpdLoad x m len lock) s = .next t)
        ↔ lock = false ∧ ∃ pa, OperandReady s m len .read pa)
      ∧ ((∃ t, exec (.movhpdStore x m len lock) s = .next t)
        ↔ lock = false ∧ ∃ pa, OperandReady s m len .write pa)

/-- 40_movhpd.md R94: the value is reproduced exactly: a load followed by the store of the same register to the same
operand leaves memory as it was. The two instructions share the operand; where the parameters `seg_check` and
`translate` tell reading from writing, they give both the same addresses. -/
def Obligations.LoadThenStoreRestoresMemory : Prop :=
  ∀ (s t u : State) (x : RegNo) (m : MemOp) (len len' : Nat) (lock lock' : Bool),
    Memory.wf s.mem = true → m.form.ipRel = false →
    operandLinear s m.seg (effectiveAddress s m.form len) .write
      = operandLinear s m.seg (effectiveAddress s m.form len) .read →
    (∀ (la : Quad), translate s la .write = translate s la .read) →
    exec (.movhpdLoad x m len lock) s = .next t → exec (.movhpdStore x m len' lock') t = .next u →
    u.mem = s.mem ∧ u.xmm = t.xmm

/-- 40_movhpd.md R95, 70 R133: a load straight after a store to the same operand returns the stored quadword, into any
register, with paging off and one linear address for both. -/
def Obligations.StoreThenLoadReturnsTheQuadword : Prop :=
  ∀ (s t u : State) (x y : RegNo) (m : MemOp) (len len' : Nat) (lock lock' : Bool),
    Memory.wf s.mem = true → m.form.ipRel = false → s.paging = none →
    operandLinear s m.seg (effectiveAddress s m.form len) .write
      = operandLinear s m.seg (effectiveAddress s m.form len) .read →
    exec (.movhpdStore x m len lock) s = .next t → exec (.movhpdLoad y m len' lock') t = .next u →
    highQuad (u.readXmm y) = highQuad (s.readXmm x) ∧ (x = y → u.xmm = s.xmm)

/-- 20_memory.md R32: after `MemWrite(la, 8, v)`, `MemRead(la + 4, 4)` returns `v[63:32]` and `MemRead(la, 1)` returns
`v[7:0]`, with paging off. Bytes past the last linear address of the mode wrap as R49 and R95 say (log 9). -/
def Obligations.MixedWidthReadsAfterWrite : Prop :=
  ∀ (s t : State) (la : Quad) (v : BitVec (8 * 8)), Memory.wf s.mem = true → s.paging = none →
    memWrite s la 8 v = .ok t →
    memRead t (linearByte s la 4) 4 = .ok (v.extractLsb' 32 32) ∧ memRead t la 1 = .ok (v.extractLsb' 0 8)
      ∧ memRead t la 8 = .ok v

/-! ## Exceptions -/

/-- 30_encoding.md R75, 40_movhpd.md R97 (D5): the reserved encodings raise #UD in every state, and what is delivered is
the unchanged state. -/
def Obligations.ReservedEncodingsRaiseInvalidOpcode : Prop :=
  ∀ (s : State) (reg rm : BitVec 3) (modrm : Byte) (len : Nat) (deliver : State → Exc → State) (i : Instr), len ≤ 15 →
    i ∈ [.reserved66Load reg rm len, .reserved66Store reg rm len, .reservedF2Load modrm len,
      .reservedF2Store modrm len, .reservedF3Store modrm len, .reservedPlainStore reg rm len] →
    exec i s = .fault (.exception .ud) ∧ deliverTo deliver s (exec i s) = .next (deliver s .ud)

/-- 30_encoding.md R76, 60 R127 (D1): the neighbours are refused by name, in every state. -/
def Obligations.NeighboursAreRefusedByName : Prop :=
  ∀ (s : State) (x y : RegNo) (m : MemOp) (src : XmmOrMem) (len : Nat) (lock : Bool),
    exec (.movhpsLoad x m len lock) s = .refused (.otherInstruction "MOVHPS")
      ∧ exec (.movhpsStore x m len lock) s = .refused (.otherInstruction "MOVHPS")
      ∧ exec (.movlhps x y len lock) s = .refused (.otherInstruction "MOVLHPS")
      ∧ exec (.movshdup x src len lock) s = .refused (.otherInstruction "MOVSHDUP")

/-- 30_encoding.md R73, 60 R111 (1) (D22, general knowledge; log 23): after any run of prefixes that selects MOVHPD's
column, opcode, ModR/M and the SIB and displacement bytes they call for that pass the fifteenth byte decode to
`tooLong`; `StepRunsTheDecodedInstruction` says that the step is then #GP(0). A form whose length is above fifteen,
which no bytes decode to, is #GP(0) whatever the state: the model's choice (log 34). -/
def Obligations.TooLongInstructionRaisesGeneralProtection : Prop :=
  (∀ (mode : Mode) (csD : Bool) (pre : List Byte) (store : Bool) (mod : BitVec 2) (reg rm : BitVec 3)
      (d : List Byte), With66 mode pre →
      (if mod = 3#2 then 0 else sibLen (sizeOf mode csD pre) rm
        + dispCount (sizeOf mode csD pre) mod rm ((d.headD 0#8).extractLsb' 0 3)) ≤ d.length →
      15 < pre.length + 3 + (if mod = 3#2 then 0 else sibLen (sizeOf mode csD pre) rm
        + dispCount (sizeOf mode csD pre) mod rm ((d.headD 0#8).extractLsb' 0 3)) →
      decode mode csD (pre ++ 0x0F#8 :: opByte store :: (mod ++ reg ++ rm) :: d) = .tooLong)
    ∧ ∀ (s : State) (x : RegNo) (m : MemOp) (len : Nat) (lock : Bool), 15 < len →
      exec (.movhpdLoad x m len lock) s = .fault (.exception (.gp 0#32))
        ∧ exec (.movhpdStore x m len lock) s = .fault (.exception (.gp 0#32))

/-- 60 R101: a MOVHPD of at most fifteen bytes raises #UD exactly when it has a LOCK prefix (D6), CR0.EM = 1,
CR4.OSFXSR = 0 or the processor has no SSE2, in every mode, whatever CR0.TS and the operand are. -/
def Obligations.InvalidOpcodeExactlyWhen : Prop :=
  ∀ (s : State) (x : RegNo) (m : MemOp) (len : Nat) (lock : Bool), len ≤ 15 →
    (exec (.movhpdLoad x m len lock) s = .fault (.exception .ud)
        ↔ (lock = true ∨ s.em = true ∨ s.osfxsr = false ∨ s.params.hasSse2 = false))
      ∧ (exec (.movhpdStore x m len lock) s = .fault (.exception .ud)
        ↔ (lock = true ∨ s.em = true ∨ s.osfxsr = false ∨ s.params.hasSse2 = false))

/-- 60 R102, 70 R136: #NM exactly when CR0.TS = 1 and no #UD condition holds, whatever the operand is. -/
def Obligations.DeviceNotAvailableExactlyWhen : Prop :=
  ∀ (s : State) (x : RegNo) (m : MemOp) (len : Nat) (lock : Bool), len ≤ 15 →
    (exec (.movhpdLoad x m len lock) s = .fault (.exception .nm)
        ↔ (s.ts = true ∧ lock = false ∧ s.em = false ∧ s.osfxsr = true ∧ s.params.hasSse2 = true))
      ∧ (exec (.movhpdStore x m len lock) s = .fault (.exception .nm)
        ↔ (s.ts = true ∧ lock = false ∧ s.em = false ∧ s.osfxsr = true ∧ s.params.hasSse2 = true))

/-- 20_memory.md R34, R49, 60 R103 to R106: outside 64-bit mode, with no earlier cause and the default `seg_check` (D11; log
19): a descriptor that does not allow the access (protected and compatibility mode) is #GP(0), an operand outside the
limit, or past FFFFH in real-address and virtual-8086 mode or in a 16-bit offset space (log 40), is #SS(0) in SS and
#GP(0) in the others. Where an entry answers in place of the default (log 38), its `refused`
is #GP(0) and its `outside` #SS(0) in SS and #GP(0) in the others. -/
def Obligations.SegmentViolationOutside64BitMode : Prop :=
  ∀ (s : State) (x : RegNo) (m : MemOp) (len : Nat) (e : Exc) (i : Instr) (kind : AccessKind),
    s.mode ≠ .long64 → len ≤ 15 → SseReady s →
    (i = .movhpdLoad x m len false ∧ kind = .read ∨ i = .movhpdStore x m len false ∧ kind = .write) →
    (match lookupSegRule s.segRules m.seg (effectiveAddress s m.form len) 8 kind with
      | some (.linear _) => False
      | some .refused => e = .gp 0#32
      | some .outside => e = (if m.seg = .ss then .ss 0#32 else .gp 0#32)
      | none =>
        (s.mode = .prot ∨ s.mode = .compat) ∧ ¬ DescriptorAllows (s.segReg m.seg) kind ∧ e = .gp 0#32
          ∨ ¬ ((s.mode = .prot ∨ s.mode = .compat) ∧ ¬ DescriptorAllows (s.segReg m.seg) kind)
            ∧ ¬ (WithinOffsets s m.form.size (effectiveAddress s m.form len).toNat
              ∧ WithinLimit (s.segReg m.seg) (effectiveAddress s m.form len).toNat)
            ∧ e = (if m.seg = .ss then .ss 0#32 else .gp 0#32)) →
    exec i s = .fault (.exception e)

/-- 20_memory.md R49, 60 R105, R106: with the default `seg_check` (D11; log 19) and no earlier cause, an operand whose last
byte lies past FFFFH in real-address or virtual-8086 mode is #SS(0) in SS and #GP(0) in the others, whatever the limit
and the address size are; in protected and compatibility mode so is one of a 16-bit offset space, which the model reads
as the address size 16 (log 40), in a segment that allows the access. -/
def Obligations.OperandPastTheOffsetSpaceFaults : Prop :=
  ∀ (s : State) (x : RegNo) (m : MemOp) (len : Nat) (i : Instr) (kind : AccessKind),
    len ≤ 15 → SseReady s →
    (i = .movhpdLoad x m len false ∧ kind = .read ∨ i = .movhpdStore x m len false ∧ kind = .write) →
    lookupSegRule s.segRules m.seg (effectiveAddress s m.form len) 8 kind = none →
    (s.mode = .real ∨ s.mode = .v86
      ∨ (s.mode = .prot ∨ s.mode = .compat) ∧ m.form.size = .a16 ∧ DescriptorAllows (s.segReg m.seg) kind) →
    0xFFFF < (effectiveAddress s m.form len).toNat + 7 →
    exec i s = .fault (.exception (if m.seg = .ss then .ss 0#32 else .gp 0#32))

/-- 20_memory.md R35, 60 R107: in 64-bit mode, with no earlier cause, a non-canonical operand is #SS(0) in SS and
#GP(0) in the others; and no limit, type or null selector stops a canonical one: with paging off and no alignment
checking it completes. Canonical form with `VA_BITS` and bases of FS and GS alone are D30 and D10 (log 20). -/
def Obligations.NonCanonicalOperandIn64BitMode : Prop :=
  ∀ (s : State) (x : RegNo) (m : MemOp) (len : Nat) (i : Instr) (kind : AccessKind),
    s.mode = .long64 → len ≤ 15 → SseReady s →
    (i = .movhpdLoad x m len false ∧ kind = .read ∨ i = .movhpdStore x m len false ∧ kind = .write) →
    (¬ CanonicalOperand s (operandLinear s m.seg (effectiveAddress s m.form len) kind) →
        exec i s = .fault (.exception (if m.seg = .ss then .ss 0#32 else .gp 0#32)))
      ∧ (CanonicalOperand s (operandLinear s m.seg (effectiveAddress s m.form len) kind) → s.paging = none →
        ¬ AlignmentChecked s → ∃ t, exec i s = .next t)

/-- 60 R108 (D25), 40_movhpd.md R98: the page fault reported is that of the first byte that does not translate, with the
code of `translate` and that byte's linear address, and a store has written nothing: the delivered state is `s`. Bytes
past the last linear address of the mode wrap as R49 and R95 say (log 9). -/
def Obligations.PageFaultOfTheFirstFailingByte : Prop :=
  ∀ (s : State) (x : RegNo) (m : MemOp) (len : Nat) (i : Instr) (kind : AccessKind) (k : Nat) (code : BitVec 32)
    (pa : Nat → Quad) (deliver : State → Exc → State),
    len ≤ 15 → SseReady s →
    (i = .movhpdLoad x m len false ∧ kind = .read ∨ i = .movhpdStore x m len false ∧ kind = .write) →
    SegmentAllows s m.seg m.form.size (effectiveAddress s m.form len) kind →
    ¬ (AlignmentChecked s ∧ (operandLinear s m.seg (effectiveAddress s m.form len) kind).toNat % 8 ≠ 0
        ∧ s.params.acBeforePf = true) →
    k < 8 →
    translate s (byteLinear s (operandLinear s m.seg (effectiveAddress s m.form len) kind) k) kind = .pageFault code →
    (∀ j, j < k →
      translate s (byteLinear s (operandLinear s m.seg (effectiveAddress s m.form len) kind) j) kind = .mapped (pa j)) →
    exec i s = .fault (.exception
        (.pf code (byteLinear s (operandLinear s m.seg (effectiveAddress s m.form len) kind) k)))
      ∧ deliverTo deliver s (exec i s) = .next (deliver s
        (.pf code (byteLinear s (operandLinear s m.seg (effectiveAddress s m.form len) kind) k)))

/-- 60 R109, 20_memory.md R37 (boundary of eight on the linear address: D13): with the segment allowing the operand and
all eight bytes translated, both forms raise #AC(0) exactly when CR0.AM = 1, EFLAGS.AC = 1, the privilege level is 3,
the mode is not real-address mode and the linear address is not a multiple of 8. The privilege level is 3 in
virtual-8086 mode whatever CPL holds (R106; DEDUCED, log 10). -/
def Obligations.AlignmentCheckExactlyWhen : Prop :=
  ∀ (s : State) (x : RegNo) (m : MemOp) (len : Nat) (i : Instr) (kind : AccessKind) (pa : Nat → Quad),
    len ≤ 15 → SseReady s →
    (i = .movhpdLoad x m len false ∧ kind = .read ∨ i = .movhpdStore x m len false ∧ kind = .write) →
    SegmentAllows s m.seg m.form.size (effectiveAddress s m.form len) kind →
    (∀ k, k < 8 →
      translate s (byteLinear s (operandLinear s m.seg (effectiveAddress s m.form len) kind) k) kind = .mapped (pa k)) →
    (exec i s = .fault (.exception (.ac 0#32))
      ↔ s.am = true ∧ s.acFlag = true ∧ s.privilege = 3#2 ∧ s.mode ≠ .real
        ∧ (operandLinear s m.seg (effectiveAddress s m.form len) kind).toNat % 8 ≠ 0)

/-- 60 R111, 92 D14: where a misaligned operand also faults in paging, the parameter `ac_before_pf` decides which of the
two exceptions is reported. -/
def Obligations.AlignmentAgainstPageFault : Prop :=
  ∀ (s : State) (x : RegNo) (m : MemOp) (len : Nat) (i : Instr) (kind : AccessKind),
    len ≤ 15 → SseReady s →
    (i = .movhpdLoad x m len false ∧ kind = .read ∨ i = .movhpdStore x m len false ∧ kind = .write) →
    SegmentAllows s m.seg m.form.size (effectiveAddress s m.form len) kind →
    AlignmentChecked s → (operandLinear s m.seg (effectiveAddress s m.form len) kind).toNat % 8 ≠ 0 →
    (∃ k code, k < 8 ∧
      translate s (byteLinear s (operandLinear s m.seg (effectiveAddress s m.form len) kind) k) kind = .pageFault code) →
    if s.params.acBeforePf = true then exec i s = .fault (.exception (.ac 0#32))
    else ∃ code linear, exec i s = .fault (.exception (.pf code linear))

/-- 60 R100, R105, R106, R110: a MOVHPD raises no exception but #UD, #NM, #SS(0), #GP(0), #AC(0) and #PF, the last two
not in real-address mode; #PF only with paging on; and it always completes or raises one of them. -/
def Obligations.OnlyTheListedExceptions : Prop :=
  ∀ (s : State) (x : RegNo) (m : MemOp) (len : Nat) (lock : Bool) (i : Instr),
    (i = .movhpdLoad x m len lock ∨ i = .movhpdStore x m len lock) →
    (∃ t, exec i s = .next t)
      ∨ ∃ e, exec i s = .fault (.exception e) ∧ ListedException s.mode e
          ∧ (e.vector = 14 → s.paging ≠ none)
          ∧ e.vector ∈ [6, 7, 12, 13, 14, 17]
          ∧ (e.errorCode = none ↔ e.vector = 6 ∨ e.vector = 7)

/-- 60 R102, R112, 70 R136 (95 program P4): a MOVHPD that raised #NM runs again from the start once CR0.TS is cleared in
the state as it was: the step is then that of the same instruction, and it is not #NM. -/
def Obligations.RestartAfterDeviceNotAvailable : Prop :=
  ∀ (s : State) (i : Instr), s.modeDefined = true → fetchDecode s = .instr i →
    step s = .fault (.exception .nm) →
    step { s with cr0 := s.cr0 &&& ~~~8#64 } = exec i { s with cr0 := s.cr0 &&& ~~~8#64 }
      ∧ step { s with cr0 := s.cr0 &&& ~~~8#64 } ≠ .fault (.exception .nm)

/-! ## The machine as a whole -/

/-- 20_memory.md R40, 10_state.md R14, 92 D32: every step keeps memory canonical, the mode defined, and bits 63:32 of
the instruction pointer zero outside 64-bit mode. -/
def Obligations.StepKeepsTheInvariant : Prop :=
  ∀ s t : State, Inv s → step s = .next t → Inv t

/-- 10_state.md R12, R13, R16, R17, R20, R26, 40_movhpd.md R93: whatever the step, a next state differs from the state
before it in IP and either in the high quadword of the register of the load it decoded, or in the eight bytes of the
operand of the store it decoded; outside 64-bit mode XMM8 to XMM15 are untouched. That the time-stamp counter is among
what stays is the model's choice, false of hardware (R121; log 30), and so is that no event arrives in a step (log
29). -/
def Obligations.StepFrame : Prop :=
  ∀ s t : State, step s = .next t →
    { t with xmm := s.xmm, mem := s.mem, ip := s.ip } = s
      ∧ (∀ r, lowQuad (t.readXmm r) = lowQuad (s.readXmm r))
      ∧ (s.mode ≠ .long64 → ∀ r : RegNo, 8 ≤ r.toNat → t.readXmm r = s.readXmm r)
      ∧ ((∃ x m len, fetchDecode s = .instr (.movhpdLoad x m len false)
            ∧ t.mem = s.mem ∧ ∀ r, r ≠ x → t.readXmm r = s.readXmm r)
        ∨ ∃ x m len la pas, fetchDecode s = .instr (.movhpdStore x m len false)
            ∧ operandChecks s m len false .write = .ok (la, pas) ∧ pas.length = 8 ∧ t.xmm = s.xmm
            ∧ ∀ a, (∀ pa ∈ pas, a ≠ pa.toNat) → Memory.read t.mem a = Memory.read s.mem a)

/-- 10_state.md R13, R16, R17, R20, R26: no run, of any length, writes a general register, a segment register, a control
or status register, MXCSR, the privilege level, the parameters, the paging data or the untouched state, and none
changes the low quadword of an XMM register. That the time-stamp counter stays is the model's choice, false of hardware
(R121; log 30), and so is that no interrupt or other event arrives between two steps (log 29). -/
def Obligations.RunsNeverWriteControlState : Prop :=
  ∀ (n : Nat) (s t : State), Host.Core.run Sys2Proof.core n s = .next t →
    { t with xmm := s.xmm, mem := s.mem, ip := s.ip } = s ∧ ∀ r, lowQuad (t.readXmm r) = lowQuad (s.readXmm r)

/-- 10_state.md R20, R26, 40_movhpd.md R94: no step consults MXCSR, CR4.OSXMMEXCPT, CR2 or the untouched state: with
other values there it does the same to everything else. For CR3, which R26 says `translate` reads, it holds by the
model's choice: the field `paging` stands for `translate` apart from CR3 (log 7). -/
def Obligations.StepIgnoresMxcsrAndUntouchedState : Prop :=
  ∀ (s : State) (mx : BitVec 32) (c2 c3 : Quad) (o : Bystanders),
    step { s with mxcsr := mx, cr2 := c2, cr3 := c3, other := o, cr4 := s.cr4 ^^^ 0x400#64 }
      = mapNext (fun t => { t with mxcsr := mx, cr2 := c2, cr3 := c3, other := o, cr4 := s.cr4 ^^^ 0x400#64 }) (step s)

/-- 60 R117: MOVHPD is not privileged: with `translate` answering the same at another privilege level, a step there does
the same, unless one of the two is #AC(0), and it changes no CPL; and #AC needs privilege level 3, which is the CPL
field outside virtual-8086 mode and 3 in it (R106; DEDUCED, log 10). -/
def Obligations.PrivilegeLevelDoesNotMatter : Prop :=
  (∀ (s : State) (c : BitVec 2),
    (∀ (la : Quad) (kind : AccessKind), translate { s with cpl := c } la kind = translate s la kind) →
    step { s with cpl := c } = mapNext (fun t => { t with cpl := c }) (step s)
      ∨ step s = .fault (.exception (.ac 0#32)) ∨ step { s with cpl := c } = .fault (.exception (.ac 0#32)))
    ∧ ∀ (s : State) (code : BitVec 32), step s = .fault (.exception (.ac code)) → s.privilege = 3#2

/-- 40_movhpd.md R95, 20_memory.md R47 (D19): a MOVHPD store over instruction bytes is seen by the next fetch: where
byte `j` of the next window lies at the physical address of byte `k` of the operand, it is that byte of the register. -/
def Obligations.NextFetchSeesTheStore : Prop :=
  ∀ (s t : State) (x : RegNo) (m : MemOp) (len : Nat) (pa : Nat → Quad) (j k : Nat) (b : Byte),
    Memory.wf s.mem = true → OperandReady s m len .write pa → exec (.movhpdStore x m len false) s = .next t → k < 8 →
    (∀ i, k < i → i < 8 → pa i ≠ pa k) → fetchAddress t j = .ok (pa k) → (fetchWindow t).1[j]? = some b →
    b = (s.readXmm x).extractLsb' (64 + 8 * k) 8

/-- 20_memory.md R36, 92 D12: the model's way of taking `translate` as an argument loses nothing (log 7): every function
of a linear address, a kind of access and a privilege level is the answer of some list of mappings. A physical address
is 64 bits wide by the model's choice (log 39), and a fault code 32 (log 37). -/
def Obligations.EveryTranslateIsAListOfMappings : Prop :=
  ∀ f : Quad → AccessKind → BitVec 2 → Translated,
    ∃ ms : List Mapping, ∀ (la : Quad) (kind : AccessKind) (cpl : BitVec 2), lookupMapping ms la kind cpl = f la kind cpl

/-- 00_scope.md R6, 20_memory.md R34, 92 D11: the model's way of taking `seg_check` as an argument loses nothing (log 38):
every function of a segment register, an offset, a number of bytes up to the longest access of the machine, and a kind
of access, whose answers are linear addresses and the faults R34 lists, is the answer of some list of entries. -/
def Obligations.EverySegCheckIsAListOfRules : Prop :=
  ∀ f : Seg → Quad → Nat → AccessKind → SegAnswer,
    ∃ rules : List SegRule, ∀ (g : Seg) (ea : Quad) (n : Nat) (kind : AccessKind), n ≤ 15 →
      lookupSegRule rules g ea n kind = some (f g ea n kind)
end

