-- ==== Sys2Proof/Laws/State.lean ====
section
/-! SUPPORT. One lemma per field and per update of the state, true by rfl, so that no proof unfolds a record update. -/

namespace Sys2Proof.Machine

/-! ## writeByte -/

@[simp] theorem State.writeByte_xmm (s : State) (pa : Quad) (v : Byte) : (s.writeByte pa v).xmm = s.xmm := rfl
@[simp] theorem State.writeByte_mxcsr (s : State) (pa : Quad) (v : Byte) : (s.writeByte pa v).mxcsr = s.mxcsr := rfl
@[simp] theorem State.writeByte_gpr (s : State) (pa : Quad) (v : Byte) : (s.writeByte pa v).gpr = s.gpr := rfl
@[simp] theorem State.writeByte_ip (s : State) (pa : Quad) (v : Byte) : (s.writeByte pa v).ip = s.ip := rfl
@[simp] theorem State.writeByte_es (s : State) (pa : Quad) (v : Byte) : (s.writeByte pa v).es = s.es := rfl
@[simp] theorem State.writeByte_cs (s : State) (pa : Quad) (v : Byte) : (s.writeByte pa v).cs = s.cs := rfl
@[simp] theorem State.writeByte_ss (s : State) (pa : Quad) (v : Byte) : (s.writeByte pa v).ss = s.ss := rfl
@[simp] theorem State.writeByte_ds (s : State) (pa : Quad) (v : Byte) : (s.writeByte pa v).ds = s.ds := rfl
@[simp] theorem State.writeByte_fs (s : State) (pa : Quad) (v : Byte) : (s.writeByte pa v).fs = s.fs := rfl
@[simp] theorem State.writeByte_gs (s : State) (pa : Quad) (v : Byte) : (s.writeByte pa v).gs = s.gs := rfl
@[simp] theorem State.writeByte_csL (s : State) (pa : Quad) (v : Byte) : (s.writeByte pa v).csL = s.csL := rfl
@[simp] theorem State.writeByte_csD (s : State) (pa : Quad) (v : Byte) : (s.writeByte pa v).csD = s.csD := rfl
@[simp] theorem State.writeByte_cr0 (s : State) (pa : Quad) (v : Byte) : (s.writeByte pa v).cr0 = s.cr0 := rfl
@[simp] theorem State.writeByte_cr2 (s : State) (pa : Quad) (v : Byte) : (s.writeByte pa v).cr2 = s.cr2 := rfl
@[simp] theorem State.writeByte_cr3 (s : State) (pa : Quad) (v : Byte) : (s.writeByte pa v).cr3 = s.cr3 := rfl
@[simp] theorem State.writeByte_cr4 (s : State) (pa : Quad) (v : Byte) : (s.writeByte pa v).cr4 = s.cr4 := rfl
@[simp] theorem State.writeByte_rflags (s : State) (pa : Quad) (v : Byte) : (s.writeByte pa v).rflags = s.rflags := rfl
@[simp] theorem State.writeByte_efer (s : State) (pa : Quad) (v : Byte) : (s.writeByte pa v).efer = s.efer := rfl
@[simp] theorem State.writeByte_cpl (s : State) (pa : Quad) (v : Byte) : (s.writeByte pa v).cpl = s.cpl := rfl
@[simp] theorem State.writeByte_paging (s : State) (pa : Quad) (v : Byte) : (s.writeByte pa v).paging = s.paging := rfl
@[simp] theorem State.writeByte_segRules (s : State) (pa : Quad) (v : Byte) : (s.writeByte pa v).segRules = s.segRules := rfl
@[simp] theorem State.writeByte_params (s : State) (pa : Quad) (v : Byte) : (s.writeByte pa v).params = s.params := rfl
@[simp] theorem State.writeByte_other (s : State) (pa : Quad) (v : Byte) : (s.writeByte pa v).other = s.other := rfl
@[simp] theorem State.writeByte_mem (s : State) (pa : Quad) (v : Byte) : (s.writeByte pa v).mem = Memory.write s.mem pa.toNat v := rfl
@[simp] theorem State.writeByte_pe (s : State) (pa : Quad) (v : Byte) : (s.writeByte pa v).pe = s.pe := rfl
@[simp] theorem State.writeByte_em (s : State) (pa : Quad) (v : Byte) : (s.writeByte pa v).em = s.em := rfl
@[simp] theorem State.writeByte_ts (s : State) (pa : Quad) (v : Byte) : (s.writeByte pa v).ts = s.ts := rfl
@[simp] theorem State.writeByte_am (s : State) (pa : Quad) (v : Byte) : (s.writeByte pa v).am = s.am := rfl
@[simp] theorem State.writeByte_osfxsr (s : State) (pa : Quad) (v : Byte) : (s.writeByte pa v).osfxsr = s.osfxsr := rfl
@[simp] theorem State.writeByte_acFlag (s : State) (pa : Quad) (v : Byte) : (s.writeByte pa v).acFlag = s.acFlag := rfl
@[simp] theorem State.writeByte_vmFlag (s : State) (pa : Quad) (v : Byte) : (s.writeByte pa v).vmFlag = s.vmFlag := rfl
@[simp] theorem State.writeByte_lma (s : State) (pa : Quad) (v : Byte) : (s.writeByte pa v).lma = s.lma := rfl
@[simp] theorem State.writeByte_mode (s : State) (pa : Quad) (v : Byte) : (s.writeByte pa v).mode = s.mode := rfl
@[simp] theorem State.writeByte_modeDefined (s : State) (pa : Quad) (v : Byte) : (s.writeByte pa v).modeDefined = s.modeDefined := rfl
@[simp] theorem State.writeByte_privilege (s : State) (pa : Quad) (v : Byte) : (s.writeByte pa v).privilege = s.privilege := rfl
@[simp] theorem State.writeByte_alignmentCheck (s : State) (pa : Quad) (v : Byte) : (s.writeByte pa v).alignmentCheck = s.alignmentCheck := rfl
@[simp] theorem State.writeByte_checksDescriptor (s : State) (pa : Quad) (v : Byte) : (s.writeByte pa v).checksDescriptor = s.checksDescriptor := rfl
@[simp] theorem State.writeByte_segReg (s : State) (pa : Quad) (v : Byte) (g : Seg) : (s.writeByte pa v).segReg g = s.segReg g := by cases g <;> rfl
@[simp] theorem State.writeByte_readGpr (s : State) (pa : Quad) (v : Byte) (q : RegNo) : (s.writeByte pa v).readGpr q = s.readGpr q := rfl
@[simp] theorem State.writeByte_readXmm (s : State) (pa : Quad) (v : Byte) (r : RegNo) : (s.writeByte pa v).readXmm r = s.readXmm r := rfl

/-! ## writeBytes -/

@[simp] theorem State.writeBytes_xmm (s : State) (pas : List Quad) (vs : List Byte) : (s.writeBytes pas vs).xmm = s.xmm := rfl
@[simp] theorem State.writeBytes_mxcsr (s : State) (pas : List Quad) (vs : List Byte) : (s.writeBytes pas vs).mxcsr = s.mxcsr := rfl
@[simp] theorem State.writeBytes_gpr (s : State) (pas : List Quad) (vs : List Byte) : (s.writeBytes pas vs).gpr = s.gpr := rfl
@[simp] theorem State.writeBytes_ip (s : State) (pas : List Quad) (vs : List Byte) : (s.writeBytes pas vs).ip = s.ip := rfl
@[simp] theorem State.writeBytes_es (s : State) (pas : List Quad) (vs : List Byte) : (s.writeBytes pas vs).es = s.es := rfl
@[simp] theorem State.writeBytes_cs (s : State) (pas : List Quad) (vs : List Byte) : (s.writeBytes pas vs).cs = s.cs := rfl
@[simp] theorem State.writeBytes_ss (s : State) (pas : List Quad) (vs : List Byte) : (s.writeBytes pas vs).ss = s.ss := rfl
@[simp] theorem State.writeBytes_ds (s : State) (pas : List Quad) (vs : List Byte) : (s.writeBytes pas vs).ds = s.ds := rfl
@[simp] theorem State.writeBytes_fs (s : State) (pas : List Quad) (vs : List Byte) : (s.writeBytes pas vs).fs = s.fs := rfl
@[simp] theorem State.writeBytes_gs (s : State) (pas : List Quad) (vs : List Byte) : (s.writeBytes pas vs).gs = s.gs := rfl
@[simp] theorem State.writeBytes_csL (s : State) (pas : List Quad) (vs : List Byte) : (s.writeBytes pas vs).csL = s.csL := rfl
@[simp] theorem State.writeBytes_csD (s : State) (pas : List Quad) (vs : List Byte) : (s.writeBytes pas vs).csD = s.csD := rfl
@[simp] theorem State.writeBytes_cr0 (s : State) (pas : List Quad) (vs : List Byte) : (s.writeBytes pas vs).cr0 = s.cr0 := rfl
@[simp] theorem State.writeBytes_cr2 (s : State) (pas : List Quad) (vs : List Byte) : (s.writeBytes pas vs).cr2 = s.cr2 := rfl
@[simp] theorem State.writeBytes_cr3 (s : State) (pas : List Quad) (vs : List Byte) : (s.writeBytes pas vs).cr3 = s.cr3 := rfl
@[simp] theorem State.writeBytes_cr4 (s : State) (pas : List Quad) (vs : List Byte) : (s.writeBytes pas vs).cr4 = s.cr4 := rfl
@[simp] theorem State.writeBytes_rflags (s : State) (pas : List Quad) (vs : List Byte) : (s.writeBytes pas vs).rflags = s.rflags := rfl
@[simp] theorem State.writeBytes_efer (s : State) (pas : List Quad) (vs : List Byte) : (s.writeBytes pas vs).efer = s.efer := rfl
@[simp] theorem State.writeBytes_cpl (s : State) (pas : List Quad) (vs : List Byte) : (s.writeBytes pas vs).cpl = s.cpl := rfl
@[simp] theorem State.writeBytes_paging (s : State) (pas : List Quad) (vs : List Byte) : (s.writeBytes pas vs).paging = s.paging := rfl
@[simp] theorem State.writeBytes_segRules (s : State) (pas : List Quad) (vs : List Byte) : (s.writeBytes pas vs).segRules = s.segRules := rfl
@[simp] theorem State.writeBytes_params (s : State) (pas : List Quad) (vs : List Byte) : (s.writeBytes pas vs).params = s.params := rfl
@[simp] theorem State.writeBytes_other (s : State) (pas : List Quad) (vs : List Byte) : (s.writeBytes pas vs).other = s.other := rfl
@[simp] theorem State.writeBytes_mem (s : State) (pas : List Quad) (vs : List Byte) : (s.writeBytes pas vs).mem = Memory.writeAll s.mem pas vs := rfl
@[simp] theorem State.writeBytes_pe (s : State) (pas : List Quad) (vs : List Byte) : (s.writeBytes pas vs).pe = s.pe := rfl
@[simp] theorem State.writeBytes_em (s : State) (pas : List Quad) (vs : List Byte) : (s.writeBytes pas vs).em = s.em := rfl
@[simp] theorem State.writeBytes_ts (s : State) (pas : List Quad) (vs : List Byte) : (s.writeBytes pas vs).ts = s.ts := rfl
@[simp] theorem State.writeBytes_am (s : State) (pas : List Quad) (vs : List Byte) : (s.writeBytes pas vs).am = s.am := rfl
@[simp] theorem State.writeBytes_osfxsr (s : State) (pas : List Quad) (vs : List Byte) : (s.writeBytes pas vs).osfxsr = s.osfxsr := rfl
@[simp] theorem State.writeBytes_acFlag (s : State) (pas : List Quad) (vs : List Byte) : (s.writeBytes pas vs).acFlag = s.acFlag := rfl
@[simp] theorem State.writeBytes_vmFlag (s : State) (pas : List Quad) (vs : List Byte) : (s.writeBytes pas vs).vmFlag = s.vmFlag := rfl
@[simp] theorem State.writeBytes_lma (s : State) (pas : List Quad) (vs : List Byte) : (s.writeBytes pas vs).lma = s.lma := rfl
@[simp] theorem State.writeBytes_mode (s : State) (pas : List Quad) (vs : List Byte) : (s.writeBytes pas vs).mode = s.mode := rfl
@[simp] theorem State.writeBytes_modeDefined (s : State) (pas : List Quad) (vs : List Byte) : (s.writeBytes pas vs).modeDefined = s.modeDefined := rfl
@[simp] theorem State.writeBytes_privilege (s : State) (pas : List Quad) (vs : List Byte) : (s.writeBytes pas vs).privilege = s.privilege := rfl
@[simp] theorem State.writeBytes_alignmentCheck (s : State) (pas : List Quad) (vs : List Byte) : (s.writeBytes pas vs).alignmentCheck = s.alignmentCheck := rfl
@[simp] theorem State.writeBytes_checksDescriptor (s : State) (pas : List Quad) (vs : List Byte) : (s.writeBytes pas vs).checksDescriptor = s.checksDescriptor := rfl
@[simp] theorem State.writeBytes_segReg (s : State) (pas : List Quad) (vs : List Byte) (g : Seg) : (s.writeBytes pas vs).segReg g = s.segReg g := by cases g <;> rfl
@[simp] theorem State.writeBytes_readGpr (s : State) (pas : List Quad) (vs : List Byte) (q : RegNo) : (s.writeBytes pas vs).readGpr q = s.readGpr q := rfl
@[simp] theorem State.writeBytes_readXmm (s : State) (pas : List Quad) (vs : List Byte) (r : RegNo) : (s.writeBytes pas vs).readXmm r = s.readXmm r := rfl

/-! ## writeQuad -/

@[simp] theorem State.writeQuad_xmm (s : State) (pas : List Quad) (v : Quad) : (s.writeQuad pas v).xmm = s.xmm := rfl
@[simp] theorem State.writeQuad_mxcsr (s : State) (pas : List Quad) (v : Quad) : (s.writeQuad pas v).mxcsr = s.mxcsr := rfl
@[simp] theorem State.writeQuad_gpr (s : State) (pas : List Quad) (v : Quad) : (s.writeQuad pas v).gpr = s.gpr := rfl
@[simp] theorem State.writeQuad_ip (s : State) (pas : List Quad) (v : Quad) : (s.writeQuad pas v).ip = s.ip := rfl
@[simp] theorem State.writeQuad_es (s : State) (pas : List Quad) (v : Quad) : (s.writeQuad pas v).es = s.es := rfl
@[simp] theorem State.writeQuad_cs (s : State) (pas : List Quad) (v : Quad) : (s.writeQuad pas v).cs = s.cs := rfl
@[simp] theorem State.writeQuad_ss (s : State) (pas : List Quad) (v : Quad) : (s.writeQuad pas v).ss = s.ss := rfl
@[simp] theorem State.writeQuad_ds (s : State) (pas : List Quad) (v : Quad) : (s.writeQuad pas v).ds = s.ds := rfl
@[simp] theorem State.writeQuad_fs (s : State) (pas : List Quad) (v : Quad) : (s.writeQuad pas v).fs = s.fs := rfl
@[simp] theorem State.writeQuad_gs (s : State) (pas : List Quad) (v : Quad) : (s.writeQuad pas v).gs = s.gs := rfl
@[simp] theorem State.writeQuad_csL (s : State) (pas : List Quad) (v : Quad) : (s.writeQuad pas v).csL = s.csL := rfl
@[simp] theorem State.writeQuad_csD (s : State) (pas : List Quad) (v : Quad) : (s.writeQuad pas v).csD = s.csD := rfl
@[simp] theorem State.writeQuad_cr0 (s : State) (pas : List Quad) (v : Quad) : (s.writeQuad pas v).cr0 = s.cr0 := rfl
@[simp] theorem State.writeQuad_cr2 (s : State) (pas : List Quad) (v : Quad) : (s.writeQuad pas v).cr2 = s.cr2 := rfl
@[simp] theorem State.writeQuad_cr3 (s : State) (pas : List Quad) (v : Quad) : (s.writeQuad pas v).cr3 = s.cr3 := rfl
@[simp] theorem State.writeQuad_cr4 (s : State) (pas : List Quad) (v : Quad) : (s.writeQuad pas v).cr4 = s.cr4 := rfl
@[simp] theorem State.writeQuad_rflags (s : State) (pas : List Quad) (v : Quad) : (s.writeQuad pas v).rflags = s.rflags := rfl
@[simp] theorem State.writeQuad_efer (s : State) (pas : List Quad) (v : Quad) : (s.writeQuad pas v).efer = s.efer := rfl
@[simp] theorem State.writeQuad_cpl (s : State) (pas : List Quad) (v : Quad) : (s.writeQuad pas v).cpl = s.cpl := rfl
@[simp] theorem State.writeQuad_paging (s : State) (pas : List Quad) (v : Quad) : (s.writeQuad pas v).paging = s.paging := rfl
@[simp] theorem State.writeQuad_segRules (s : State) (pas : List Quad) (v : Quad) : (s.writeQuad pas v).segRules = s.segRules := rfl
@[simp] theorem State.writeQuad_params (s : State) (pas : List Quad) (v : Quad) : (s.writeQuad pas v).params = s.params := rfl
@[simp] theorem State.writeQuad_other (s : State) (pas : List Quad) (v : Quad) : (s.writeQuad pas v).other = s.other := rfl
@[simp] theorem State.writeQuad_mem (s : State) (pas : List Quad) (v : Quad) : (s.writeQuad pas v).mem = Memory.writeAll s.mem pas (leBytes Config.operandBytes v.toNat) := rfl
@[simp] theorem State.writeQuad_pe (s : State) (pas : List Quad) (v : Quad) : (s.writeQuad pas v).pe = s.pe := rfl
@[simp] theorem State.writeQuad_em (s : State) (pas : List Quad) (v : Quad) : (s.writeQuad pas v).em = s.em := rfl
@[simp] theorem State.writeQuad_ts (s : State) (pas : List Quad) (v : Quad) : (s.writeQuad pas v).ts = s.ts := rfl
@[simp] theorem State.writeQuad_am (s : State) (pas : List Quad) (v : Quad) : (s.writeQuad pas v).am = s.am := rfl
@[simp] theorem State.writeQuad_osfxsr (s : State) (pas : List Quad) (v : Quad) : (s.writeQuad pas v).osfxsr = s.osfxsr := rfl
@[simp] theorem State.writeQuad_acFlag (s : State) (pas : List Quad) (v : Quad) : (s.writeQuad pas v).acFlag = s.acFlag := rfl
@[simp] theorem State.writeQuad_vmFlag (s : State) (pas : List Quad) (v : Quad) : (s.writeQuad pas v).vmFlag = s.vmFlag := rfl
@[simp] theorem State.writeQuad_lma (s : State) (pas : List Quad) (v : Quad) : (s.writeQuad pas v).lma = s.lma := rfl
@[simp] theorem State.writeQuad_mode (s : State) (pas : List Quad) (v : Quad) : (s.writeQuad pas v).mode = s.mode := rfl
@[simp] theorem State.writeQuad_modeDefined (s : State) (pas : List Quad) (v : Quad) : (s.writeQuad pas v).modeDefined = s.modeDefined := rfl
@[simp] theorem State.writeQuad_privilege (s : State) (pas : List Quad) (v : Quad) : (s.writeQuad pas v).privilege = s.privilege := rfl
@[simp] theorem State.writeQuad_alignmentCheck (s : State) (pas : List Quad) (v : Quad) : (s.writeQuad pas v).alignmentCheck = s.alignmentCheck := rfl
@[simp] theorem State.writeQuad_checksDescriptor (s : State) (pas : List Quad) (v : Quad) : (s.writeQuad pas v).checksDescriptor = s.checksDescriptor := rfl
@[simp] theorem State.writeQuad_segReg (s : State) (pas : List Quad) (v : Quad) (g : Seg) : (s.writeQuad pas v).segReg g = s.segReg g := by cases g <;> rfl
@[simp] theorem State.writeQuad_readGpr (s : State) (pas : List Quad) (v : Quad) (q : RegNo) : (s.writeQuad pas v).readGpr q = s.readGpr q := rfl
@[simp] theorem State.writeQuad_readXmm (s : State) (pas : List Quad) (v : Quad) (r : RegNo) : (s.writeQuad pas v).readXmm r = s.readXmm r := rfl

/-! ## writeXmmHigh -/

@[simp] theorem State.writeXmmHigh_xmm (s : State) (r : RegNo) (v : Quad) : (s.writeXmmHigh r v).xmm = s.xmm.set r.toNat (v ++ lowQuad (s.readXmm r)) := rfl
@[simp] theorem State.writeXmmHigh_mxcsr (s : State) (r : RegNo) (v : Quad) : (s.writeXmmHigh r v).mxcsr = s.mxcsr := rfl
@[simp] theorem State.writeXmmHigh_gpr (s : State) (r : RegNo) (v : Quad) : (s.writeXmmHigh r v).gpr = s.gpr := rfl
@[simp] theorem State.writeXmmHigh_ip (s : State) (r : RegNo) (v : Quad) : (s.writeXmmHigh r v).ip = s.ip := rfl
@[simp] theorem State.writeXmmHigh_es (s : State) (r : RegNo) (v : Quad) : (s.writeXmmHigh r v).es = s.es := rfl
@[simp] theorem State.writeXmmHigh_cs (s : State) (r : RegNo) (v : Quad) : (s.writeXmmHigh r v).cs = s.cs := rfl
@[simp] theorem State.writeXmmHigh_ss (s : State) (r : RegNo) (v : Quad) : (s.writeXmmHigh r v).ss = s.ss := rfl
@[simp] theorem State.writeXmmHigh_ds (s : State) (r : RegNo) (v : Quad) : (s.writeXmmHigh r v).ds = s.ds := rfl
@[simp] theorem State.writeXmmHigh_fs (s : State) (r : RegNo) (v : Quad) : (s.writeXmmHigh r v).fs = s.fs := rfl
@[simp] theorem State.writeXmmHigh_gs (s : State) (r : RegNo) (v : Quad) : (s.writeXmmHigh r v).gs = s.gs := rfl
@[simp] theorem State.writeXmmHigh_csL (s : State) (r : RegNo) (v : Quad) : (s.writeXmmHigh r v).csL = s.csL := rfl
@[simp] theorem State.writeXmmHigh_csD (s : State) (r : RegNo) (v : Quad) : (s.writeXmmHigh r v).csD = s.csD := rfl
@[simp] theorem State.writeXmmHigh_cr0 (s : State) (r : RegNo) (v : Quad) : (s.writeXmmHigh r v).cr0 = s.cr0 := rfl
@[simp] theorem State.writeXmmHigh_cr2 (s : State) (r : RegNo) (v : Quad) : (s.writeXmmHigh r v).cr2 = s.cr2 := rfl
@[simp] theorem State.writeXmmHigh_cr3 (s : State) (r : RegNo) (v : Quad) : (s.writeXmmHigh r v).cr3 = s.cr3 := rfl
@[simp] theorem State.writeXmmHigh_cr4 (s : State) (r : RegNo) (v : Quad) : (s.writeXmmHigh r v).cr4 = s.cr4 := rfl
@[simp] theorem State.writeXmmHigh_rflags (s : State) (r : RegNo) (v : Quad) : (s.writeXmmHigh r v).rflags = s.rflags := rfl
@[simp] theorem State.writeXmmHigh_efer (s : State) (r : RegNo) (v : Quad) : (s.writeXmmHigh r v).efer = s.efer := rfl
@[simp] theorem State.writeXmmHigh_cpl (s : State) (r : RegNo) (v : Quad) : (s.writeXmmHigh r v).cpl = s.cpl := rfl
@[simp] theorem State.writeXmmHigh_paging (s : State) (r : RegNo) (v : Quad) : (s.writeXmmHigh r v).paging = s.paging := rfl
@[simp] theorem State.writeXmmHigh_segRules (s : State) (r : RegNo) (v : Quad) : (s.writeXmmHigh r v).segRules = s.segRules := rfl
@[simp] theorem State.writeXmmHigh_params (s : State) (r : RegNo) (v : Quad) : (s.writeXmmHigh r v).params = s.params := rfl
@[simp] theorem State.writeXmmHigh_other (s : State) (r : RegNo) (v : Quad) : (s.writeXmmHigh r v).other = s.other := rfl
@[simp] theorem State.writeXmmHigh_mem (s : State) (r : RegNo) (v : Quad) : (s.writeXmmHigh r v).mem = s.mem := rfl
@[simp] theorem State.writeXmmHigh_pe (s : State) (r : RegNo) (v : Quad) : (s.writeXmmHigh r v).pe = s.pe := rfl
@[simp] theorem State.writeXmmHigh_em (s : State) (r : RegNo) (v : Quad) : (s.writeXmmHigh r v).em = s.em := rfl
@[simp] theorem State.writeXmmHigh_ts (s : State) (r : RegNo) (v : Quad) : (s.writeXmmHigh r v).ts = s.ts := rfl
@[simp] theorem State.writeXmmHigh_am (s : State) (r : RegNo) (v : Quad) : (s.writeXmmHigh r v).am = s.am := rfl
@[simp] theorem State.writeXmmHigh_osfxsr (s : State) (r : RegNo) (v : Quad) : (s.writeXmmHigh r v).osfxsr = s.osfxsr := rfl
@[simp] theorem State.writeXmmHigh_acFlag (s : State) (r : RegNo) (v : Quad) : (s.writeXmmHigh r v).acFlag = s.acFlag := rfl
@[simp] theorem State.writeXmmHigh_vmFlag (s : State) (r : RegNo) (v : Quad) : (s.writeXmmHigh r v).vmFlag = s.vmFlag := rfl
@[simp] theorem State.writeXmmHigh_lma (s : State) (r : RegNo) (v : Quad) : (s.writeXmmHigh r v).lma = s.lma := rfl
@[simp] theorem State.writeXmmHigh_mode (s : State) (r : RegNo) (v : Quad) : (s.writeXmmHigh r v).mode = s.mode := rfl
@[simp] theorem State.writeXmmHigh_modeDefined (s : State) (r : RegNo) (v : Quad) : (s.writeXmmHigh r v).modeDefined = s.modeDefined := rfl
@[simp] theorem State.writeXmmHigh_privilege (s : State) (r : RegNo) (v : Quad) : (s.writeXmmHigh r v).privilege = s.privilege := rfl
@[simp] theorem State.writeXmmHigh_alignmentCheck (s : State) (r : RegNo) (v : Quad) : (s.writeXmmHigh r v).alignmentCheck = s.alignmentCheck := rfl
@[simp] theorem State.writeXmmHigh_checksDescriptor (s : State) (r : RegNo) (v : Quad) : (s.writeXmmHigh r v).checksDescriptor = s.checksDescriptor := rfl
@[simp] theorem State.writeXmmHigh_segReg (s : State) (r : RegNo) (v : Quad) (g : Seg) : (s.writeXmmHigh r v).segReg g = s.segReg g := by cases g <;> rfl
@[simp] theorem State.writeXmmHigh_readGpr (s : State) (r : RegNo) (v : Quad) (q : RegNo) : (s.writeXmmHigh r v).readGpr q = s.readGpr q := rfl
@[simp] theorem State.writeXmmHigh_readByte (s : State) (r : RegNo) (v : Quad) (x : Quad) : (s.writeXmmHigh r v).readByte x = s.readByte x := rfl

/-! ## advanceIp -/

@[simp] theorem State.advanceIp_xmm (s : State) (len : Nat) : (s.advanceIp len).xmm = s.xmm := rfl
@[simp] theorem State.advanceIp_mxcsr (s : State) (len : Nat) : (s.advanceIp len).mxcsr = s.mxcsr := rfl
@[simp] theorem State.advanceIp_gpr (s : State) (len : Nat) : (s.advanceIp len).gpr = s.gpr := rfl
@[simp] theorem State.advanceIp_ip (s : State) (len : Nat) : (s.advanceIp len).ip = s.truncIp (s.ip + BitVec.ofNat 64 len) := rfl
@[simp] theorem State.advanceIp_es (s : State) (len : Nat) : (s.advanceIp len).es = s.es := rfl
@[simp] theorem State.advanceIp_cs (s : State) (len : Nat) : (s.advanceIp len).cs = s.cs := rfl
@[simp] theorem State.advanceIp_ss (s : State) (len : Nat) : (s.advanceIp len).ss = s.ss := rfl
@[simp] theorem State.advanceIp_ds (s : State) (len : Nat) : (s.advanceIp len).ds = s.ds := rfl
@[simp] theorem State.advanceIp_fs (s : State) (len : Nat) : (s.advanceIp len).fs = s.fs := rfl
@[simp] theorem State.advanceIp_gs (s : State) (len : Nat) : (s.advanceIp len).gs = s.gs := rfl
@[simp] theorem State.advanceIp_csL (s : State) (len : Nat) : (s.advanceIp len).csL = s.csL := rfl
@[simp] theorem State.advanceIp_csD (s : State) (len : Nat) : (s.advanceIp len).csD = s.csD := rfl
@[simp] theorem State.advanceIp_cr0 (s : State) (len : Nat) : (s.advanceIp len).cr0 = s.cr0 := rfl
@[simp] theorem State.advanceIp_cr2 (s : State) (len : Nat) : (s.advanceIp len).cr2 = s.cr2 := rfl
@[simp] theorem State.advanceIp_cr3 (s : State) (len : Nat) : (s.advanceIp len).cr3 = s.cr3 := rfl
@[simp] theorem State.advanceIp_cr4 (s : State) (len : Nat) : (s.advanceIp len).cr4 = s.cr4 := rfl
@[simp] theorem State.advanceIp_rflags (s : State) (len : Nat) : (s.advanceIp len).rflags = s.rflags := rfl
@[simp] theorem State.advanceIp_efer (s : State) (len : Nat) : (s.advanceIp len).efer = s.efer := rfl
@[simp] theorem State.advanceIp_cpl (s : State) (len : Nat) : (s.advanceIp len).cpl = s.cpl := rfl
@[simp] theorem State.advanceIp_paging (s : State) (len : Nat) : (s.advanceIp len).paging = s.paging := rfl
@[simp] theorem State.advanceIp_segRules (s : State) (len : Nat) : (s.advanceIp len).segRules = s.segRules := rfl
@[simp] theorem State.advanceIp_params (s : State) (len : Nat) : (s.advanceIp len).params = s.params := rfl
@[simp] theorem State.advanceIp_other (s : State) (len : Nat) : (s.advanceIp len).other = s.other := rfl
@[simp] theorem State.advanceIp_mem (s : State) (len : Nat) : (s.advanceIp len).mem = s.mem := rfl
@[simp] theorem State.advanceIp_pe (s : State) (len : Nat) : (s.advanceIp len).pe = s.pe := rfl
@[simp] theorem State.advanceIp_em (s : State) (len : Nat) : (s.advanceIp len).em = s.em := rfl
@[simp] theorem State.advanceIp_ts (s : State) (len : Nat) : (s.advanceIp len).ts = s.ts := rfl
@[simp] theorem State.advanceIp_am (s : State) (len : Nat) : (s.advanceIp len).am = s.am := rfl
@[simp] theorem State.advanceIp_osfxsr (s : State) (len : Nat) : (s.advanceIp len).osfxsr = s.osfxsr := rfl
@[simp] theorem State.advanceIp_acFlag (s : State) (len : Nat) : (s.advanceIp len).acFlag = s.acFlag := rfl
@[simp] theorem State.advanceIp_vmFlag (s : State) (len : Nat) : (s.advanceIp len).vmFlag = s.vmFlag := rfl
@[simp] theorem State.advanceIp_lma (s : State) (len : Nat) : (s.advanceIp len).lma = s.lma := rfl
@[simp] theorem State.advanceIp_mode (s : State) (len : Nat) : (s.advanceIp len).mode = s.mode := rfl
@[simp] theorem State.advanceIp_modeDefined (s : State) (len : Nat) : (s.advanceIp len).modeDefined = s.modeDefined := rfl
@[simp] theorem State.advanceIp_privilege (s : State) (len : Nat) : (s.advanceIp len).privilege = s.privilege := rfl
@[simp] theorem State.advanceIp_alignmentCheck (s : State) (len : Nat) : (s.advanceIp len).alignmentCheck = s.alignmentCheck := rfl
@[simp] theorem State.advanceIp_checksDescriptor (s : State) (len : Nat) : (s.advanceIp len).checksDescriptor = s.checksDescriptor := rfl
@[simp] theorem State.advanceIp_segReg (s : State) (len : Nat) (g : Seg) : (s.advanceIp len).segReg g = s.segReg g := by cases g <;> rfl
@[simp] theorem State.advanceIp_readGpr (s : State) (len : Nat) (q : RegNo) : (s.advanceIp len).readGpr q = s.readGpr q := rfl
@[simp] theorem State.advanceIp_readXmm (s : State) (len : Nat) (r : RegNo) : (s.advanceIp len).readXmm r = s.readXmm r := rfl
@[simp] theorem State.advanceIp_readByte (s : State) (len : Nat) (x : Quad) : (s.advanceIp len).readByte x = s.readByte x := rfl

end Sys2Proof.Machine
end

