-- ==== Sys2Proof/Laws/Memory.lean ====
section
/-! SUPPORT. Memory: what a read gives after a write, that every operation keeps the canonical form, and that canonical memories with equal bytes are equal data. -/

namespace Sys2Proof.Machine

theorem Memory.read_erase_self (lo : Nat) (m : List Host.Cell) (x : Nat) (h : Memory.wfFrom lo m = true) :
    Memory.read (Memory.erase m x) x = Config.unlistedByte := by
  induction m generalizing lo with
  | nil => rfl
  | cons c rest ih =>
    obtain ⟨a, b⟩ := c
    simp only [Memory.wfFrom, Bool.and_eq_true] at h
    simp only [Memory.erase]
    split
    · rename_i hx
      subst hx
      have : ∀ (k : Nat) (l : List Host.Cell), x < k → Memory.wfFrom k l = true →
          Memory.read l x = Config.unlistedByte := by
        intro k l
        induction l generalizing k with
        | nil => intros; rfl
        | cons c l ihl =>
          obtain ⟨a', b'⟩ := c
          intro hk hl
          simp only [Memory.wfFrom, Bool.and_eq_true, decide_eq_true_eq] at hl
          simp only [Memory.read]
          rw [if_neg (by omega)]
          exact ihl (a' + 1) (by omega) hl.2
      exact this (x + 1) rest (by omega) h.2
    · rename_i hx
      simp only [Memory.read, if_neg hx]
      exact ih (a + 1) h.2

/-- Below the least listed address memory reads as unlisted. -/
theorem Memory.read_below (lo : Nat) (m : List Host.Cell) (x : Nat) (hx : x < lo) (h : Memory.wfFrom lo m = true) :
    Memory.read m x = Config.unlistedByte := by
  induction m generalizing lo with
  | nil => rfl
  | cons c rest ih =>
    obtain ⟨a, b⟩ := c
    simp only [Memory.wfFrom, Bool.and_eq_true, decide_eq_true_eq] at h
    simp only [Memory.read]
    rw [if_neg (by omega)]
    exact ih (a + 1) (by omega) h.2

theorem Memory.read_erase_other (m : List Host.Cell) (x y : Nat) (h : y ≠ x) :
    Memory.read (Memory.erase m x) y = Memory.read m y := by
  induction m with
  | nil => rfl
  | cons c rest ih =>
    obtain ⟨a, b⟩ := c
    simp only [Memory.erase]
    split
    · rename_i hx
      simp only [Memory.read]
      rw [if_neg (by omega)]
    · simp only [Memory.read, ih]

theorem Memory.read_insert (m : List Host.Cell) (x y : Nat) (v : Byte) :
    Memory.read (Memory.insert m x v) y = if y = x then v else Memory.read m y := by
  induction m with
  | nil => simp [Memory.insert, Memory.read]
  | cons c rest ih =>
    obtain ⟨a, b⟩ := c
    simp only [Memory.insert]
    split
    · simp [Memory.read]
    · split
      · rename_i hx
        subst hx
        by_cases hy : y = x <;> simp [Memory.read, hy]
      · rename_i h1 h2
        simp only [Memory.read, ih]
        by_cases hy : y = a
        · subst hy
          rw [if_pos rfl, if_neg (by omega)]
          simp
        · simp [hy]

/-- What a read gives after a write. -/
theorem Memory.read_write (m : List Host.Cell) (x y : Nat) (v : Byte) (h : Memory.wf m = true) :
    Memory.read (Memory.write m x v) y = if y = x then v else Memory.read m y := by
  unfold Memory.write
  split
  · rename_i hv
    by_cases hy : y = x
    · subst hy
      rw [if_pos rfl, hv]
      exact Memory.read_erase_self 0 m y h
    · rw [if_neg hy]
      exact Memory.read_erase_other m x y hy
  · exact Memory.read_insert m x y v

/-- A write leaves every other place alone, whatever form memory has. -/
theorem Memory.read_write_other (m : List Host.Cell) (x y : Nat) (v : Byte) (h : y ≠ x) :
    Memory.read (Memory.write m x v) y = Memory.read m y := by
  unfold Memory.write
  split
  · exact Memory.read_erase_other m x y h
  · rw [Memory.read_insert, if_neg h]

theorem Memory.wfFrom_mono (lo lo' : Nat) (m : List Host.Cell) (hlo : lo' ≤ lo) (h : Memory.wfFrom lo m = true) :
    Memory.wfFrom lo' m = true := by
  cases m with
  | nil => rfl
  | cons c rest =>
    obtain ⟨a, b⟩ := c
    simp only [Memory.wfFrom, Bool.and_eq_true, decide_eq_true_eq] at h ⊢
    exact ⟨⟨⟨by omega, h.1.1.2⟩, h.1.2⟩, h.2⟩

theorem Memory.wfFrom_erase (lo : Nat) (m : List Host.Cell) (x : Nat) (h : Memory.wfFrom lo m = true) :
    Memory.wfFrom lo (Memory.erase m x) = true := by
  induction m generalizing lo with
  | nil => rfl
  | cons c rest ih =>
    obtain ⟨a, b⟩ := c
    have h0 := h
    simp only [Memory.wfFrom, Bool.and_eq_true, decide_eq_true_eq] at h
    simp only [Memory.erase]
    split
    · exact Memory.wfFrom_mono (a + 1) lo rest (by omega) h.2
    · simp only [Memory.wfFrom, Bool.and_eq_true, decide_eq_true_eq]
      exact ⟨h.1, ih (a + 1) h.2⟩

theorem Memory.wfFrom_insert (lo : Nat) (m : List Host.Cell) (x : Nat) (v : Byte) (hlo : lo ≤ x) (hx : x < 2 ^ 64)
    (hv : v ≠ Config.unlistedByte) (h : Memory.wfFrom lo m = true) :
    Memory.wfFrom lo (Memory.insert m x v) = true := by
  induction m generalizing lo with
  | nil =>
    simp only [Memory.insert, Memory.wfFrom, Bool.and_eq_true, decide_eq_true_eq]
    exact ⟨⟨⟨hlo, hx⟩, by simpa using hv⟩, trivial⟩
  | cons c rest ih =>
    obtain ⟨a, b⟩ := c
    simp only [Memory.wfFrom, Bool.and_eq_true, decide_eq_true_eq] at h
    simp only [Memory.insert]
    split
    · rename_i hxa
      simp only [Memory.wfFrom, Bool.and_eq_true, decide_eq_true_eq]
      exact ⟨⟨⟨hlo, hx⟩, by simpa using hv⟩, ⟨⟨⟨by omega, h.1.1.2⟩, h.1.2⟩, h.2⟩⟩
    · split
      · rename_i hxa
        subst hxa
        simp only [Memory.wfFrom, Bool.and_eq_true, decide_eq_true_eq]
        exact ⟨⟨⟨hlo, hx⟩, by simpa using hv⟩, h.2⟩
      · simp only [Memory.wfFrom, Bool.and_eq_true, decide_eq_true_eq]
        exact ⟨h.1, ih (a + 1) (by omega) h.2⟩

/-- A write at a 64-bit address keeps the canonical form. -/
theorem Memory.wf_write (m : List Host.Cell) (x : Nat) (v : Byte) (hx : x < 2 ^ 64) (h : Memory.wf m = true) :
    Memory.wf (Memory.write m x v) = true := by
  unfold Memory.write
  split
  · exact Memory.wfFrom_erase 0 m x h
  · rename_i hv
    exact Memory.wfFrom_insert 0 m x v (Nat.zero_le x) hx hv h

/-- Writing several bytes keeps the canonical form. -/
theorem Memory.wf_writeAll (m : List Host.Cell) (pas : List Quad) (vs : List Byte) (h : Memory.wf m = true) :
    Memory.wf (Memory.writeAll m pas vs) = true := by
  induction pas generalizing m vs with
  | nil => simpa [Memory.writeAll] using h
  | cons pa pas ih =>
    cases vs with
    | nil => simpa [Memory.writeAll] using h
    | cons v vs => exact ih _ vs (Memory.wf_write m pa.toNat v pa.isLt h)

theorem Memory.wf_reset : Memory.wf State.reset.mem = true := rfl

/-- An address outside those written reads as before. -/
theorem Memory.read_writeAll_other (m : List Host.Cell) (pas : List Quad) (vs : List Byte) (y : Nat)
    (h : ∀ pa ∈ pas, y ≠ pa.toNat) : Memory.read (Memory.writeAll m pas vs) y = Memory.read m y := by
  induction pas generalizing m vs with
  | nil => simp [Memory.writeAll]
  | cons pa pas ih =>
    cases vs with
    | nil => simp [Memory.writeAll]
    | cons v vs =>
      rw [Memory.writeAll, ih _ vs (fun p hp => h p (List.mem_cons_of_mem _ hp)),
        Memory.read_write_other _ _ _ _ (h pa List.mem_cons_self)]

/-- An address that no later write hits reads as the byte written to it. -/
theorem Memory.read_writeAll_at (m : List Host.Cell) (pas : List Quad) (vs : List Byte) (k : Nat)
    (hk : k < pas.length) (hv : k < vs.length) (hm : Memory.wf m = true)
    (h : ∀ j, (hj : j < pas.length) → k < j → pas[j] ≠ pas[k]) :
    Memory.read (Memory.writeAll m pas vs) pas[k].toNat = vs[k] := by
  induction pas generalizing m vs k with
  | nil => simp at hk
  | cons pa pas ih =>
    cases vs with
    | nil => simp at hv
    | cons v vs =>
      rw [Memory.writeAll]
      have hw := Memory.wf_write m pa.toNat v pa.isLt hm
      cases k with
      | zero =>
        rw [Memory.read_writeAll_other, List.getElem_cons_zero, Memory.read_write _ _ _ _ hm, if_pos rfl,
          List.getElem_cons_zero]
        intro p hp heq
        obtain ⟨j, hj, rfl⟩ := List.mem_iff_getElem.mp hp
        exact h (j + 1) (by simpa using hj) (by omega) (by simpa using (BitVec.eq_of_toNat_eq heq).symm)
      | succ k =>
        simp only [List.getElem_cons_succ]
        refine ih _ vs k (by simpa using hk) (by simpa using hv) hw ?_
        intro j hj hkj
        exact fun e => h (j + 1) (Nat.succ_lt_succ hj) (by omega) e

/-- Canonical memories with the same bytes are the same data. -/
theorem Memory.ext_wfFrom (lo : Nat) (m m' : List Host.Cell) (h : Memory.wfFrom lo m = true)
    (h' : Memory.wfFrom lo m' = true) (heq : ∀ x, Memory.read m x = Memory.read m' x) : m = m' := by
  induction m generalizing lo m' with
  | nil =>
    cases m' with
    | nil => rfl
    | cons c rest =>
      obtain ⟨a, b⟩ := c
      simp only [Memory.wfFrom, Bool.and_eq_true, bne_iff_ne, ne_eq] at h'
      have := heq a
      simp only [Memory.read, if_pos] at this
      exact absurd this.symm h'.1.2
  | cons c rest ih =>
    obtain ⟨a, b⟩ := c
    cases m' with
    | nil =>
      simp only [Memory.wfFrom, Bool.and_eq_true, bne_iff_ne, ne_eq] at h
      have := heq a
      simp only [Memory.read, if_pos] at this
      exact absurd this h.1.2
    | cons c' rest' =>
      obtain ⟨a', b'⟩ := c'
      simp only [Memory.wfFrom, Bool.and_eq_true, bne_iff_ne, ne_eq, decide_eq_true_eq] at h h'
      have haa : a = a' := by
        rcases Nat.lt_trichotomy a a' with hlt | heq' | hgt
        · have := heq a
          simp only [Memory.read, if_pos, if_neg (Nat.ne_of_lt hlt)] at this
          rw [Memory.read_below (a' + 1) rest' a (by omega) h'.2] at this
          exact absurd this h.1.2
        · exact heq'
        · have := heq a'
          simp only [Memory.read, if_pos, if_neg (Nat.ne_of_lt hgt)] at this
          rw [Memory.read_below (a + 1) rest a' (by omega) h.2] at this
          exact absurd this.symm h'.1.2
      subst haa
      have hb : b = b' := by
        have := heq a
        simpa only [Memory.read, if_pos] using this
      subst hb
      have hrest : rest = rest' := by
        refine ih (a + 1) rest' h.2 h'.2 ?_
        intro x
        by_cases hx : x = a
        · subst hx
          rw [Memory.read_below (x + 1) rest x (by omega) h.2, Memory.read_below (x + 1) rest' x (by omega) h'.2]
        · have := heq x
          simpa only [Memory.read, if_neg hx] using this
      rw [hrest]

theorem Memory.ext (m m' : List Host.Cell) (h : Memory.wf m = true) (h' : Memory.wf m' = true)
    (heq : ∀ x, Memory.read m x = Memory.read m' x) : m = m' := Memory.ext_wfFrom 0 m m' h h' heq

/-- A canonical memory lists no address of more than 64 bits. -/
theorem Memory.read_above (m : List Host.Cell) (x : Nat) (hx : 2 ^ 64 ≤ x) (h : Memory.wf m = true) :
    Memory.read m x = Config.unlistedByte := by
  unfold Memory.wf at h
  generalize 0 = lo at h
  induction m generalizing lo with
  | nil => rfl
  | cons c rest ih =>
    obtain ⟨a, b⟩ := c
    simp only [Memory.wfFrom, Bool.and_eq_true, decide_eq_true_eq] at h
    simp only [Memory.read]
    rw [if_neg (by omega)]
    exact ih (a + 1) h.2

end Sys2Proof.Machine
end

