-- ==== Sys2Proof/Laws/Bytes.lean ====
section
/-! SUPPORT. Byte order and the quadwords of an XMM register: what the bytes of a value are, and what the two halves of a register are after a write. -/

namespace Sys2Proof.Machine

@[simp] theorem leBytes_length (n v : Nat) : (leBytes n v).length = n := by
  induction n generalizing v with
  | zero => rfl
  | succ n ih => simp [leBytes, ih]

theorem leNat_lt (bs : List Byte) : leNat bs < 256 ^ bs.length := by
  induction bs with
  | nil => simp [leNat]
  | cons b bs ih =>
    have hb := b.isLt
    simp only [leNat, List.length_cons, Nat.pow_succ]
    omega

theorem leNat_leBytes (n v : Nat) : leNat (leBytes n v) = v % 256 ^ n := by
  induction n generalizing v with
  | zero => simp [leBytes, leNat, Nat.mod_one]
  | succ n ih =>
    simp only [leBytes, leNat, ih, BitVec.toNat_ofNat]
    rw [show (256 : Nat) ^ (n + 1) = 256 * 256 ^ n from by ring, Nat.mod_mul]

theorem leBytes_leNat (bs : List Byte) : leBytes bs.length (leNat bs) = bs := by
  induction bs with
  | nil => rfl
  | cons b bs ih =>
    have hb := b.isLt
    have h1 : BitVec.ofNat 8 (b.toNat + 256 * leNat bs) = b := by
      apply BitVec.eq_of_toNat_eq
      simp only [BitVec.toNat_ofNat]
      omega
    have h2 : (b.toNat + 256 * leNat bs) / 256 = leNat bs := by omega
    simp only [leNat, List.length_cons, leBytes, h1, h2, ih]

theorem leBytes_getElem (n v k : Nat) (hk : k < (leBytes n v).length) :
    (leBytes n v)[k] = BitVec.ofNat 8 (v / 256 ^ k) := by
  induction n generalizing v k with
  | zero => simp [leBytes] at hk
  | succ n ih =>
    cases k with
    | zero => simp [leBytes]
    | succ k =>
      simp only [leBytes, List.getElem_cons_succ]
      rw [ih, Nat.div_div_eq_div_mul, Nat.pow_succ, Nat.mul_comm]

theorem leNat_div (bs : List Byte) (k : Nat) (hk : k < bs.length) :
    BitVec.ofNat 8 (leNat bs / 256 ^ k) = bs[k] := by
  have h := leBytes_getElem bs.length (leNat bs) k (by simpa using hk)
  rw [← h]
  congr 1
  exact leBytes_leNat bs

/-- Bit slice `k` of a quadword is byte `k` of its bytes. -/
theorem extract_byte (v : Quad) (k : Nat) : v.extractLsb' (8 * k) 8 = BitVec.ofNat 8 (v.toNat / 256 ^ k) := by
  apply BitVec.eq_of_toNat_eq
  simp only [BitVec.extractLsb'_toNat, BitVec.toNat_ofNat, Nat.shiftRight_eq_div_pow, Nat.pow_mul]

/-- Byte `k` of the bytes of a quadword. -/
theorem leBytes_quad (v : Quad) (k : Nat) (hk : k < (leBytes Config.operandBytes v.toNat).length) :
    (leBytes Config.operandBytes v.toNat)[k] = v.extractLsb' (8 * k) 8 := by
  rw [leBytes_getElem, extract_byte]

@[simp] theorem highQuad_append (h l : Quad) : highQuad (h ++ l) = h := by
  unfold highQuad
  exact BitVec.extractLsb'_append_eq_left

@[simp] theorem lowQuad_append (h l : Quad) : lowQuad (h ++ l) = l := by
  unfold lowQuad
  exact BitVec.extractLsb'_append_eq_right

/-- A register is its two quadwords. -/
theorem quads_eq (x : DQuad) : highQuad x ++ lowQuad x = x := by
  unfold highQuad lowQuad
  rw [BitVec.extractLsb'_append_extractLsb'_eq_extractLsb' (by norm_num)]
  exact BitVec.extractLsb'_eq_self

theorem State.readXmm_writeXmmHigh_self (s : State) (r : RegNo) (v : Quad) :
    (s.writeXmmHigh r v).readXmm r = v ++ lowQuad (s.readXmm r) := by
  simp [State.readXmm]

theorem State.readXmm_writeXmmHigh_other (s : State) (r q : RegNo) (v : Quad) (h : q ≠ r) :
    (s.writeXmmHigh r v).readXmm q = s.readXmm q := by
  have hne : r.toNat ≠ q.toNat := fun e => h (BitVec.eq_of_toNat_eq e).symm
  simp only [State.readXmm, State.writeXmmHigh_xmm]
  rw [Vector.getElem_set_ne _ _ hne]

/-- Byte `k` of the quadword read at eight addresses is the byte at the `k`-th (20_memory.md R32). -/
theorem State.readQuad_byte (s : State) (pas : List Quad) (k : Nat) (hl : pas.length = 8) (hk : k < pas.length) :
    (s.readQuad pas).extractLsb' (8 * k) 8 = s.readByte pas[k] := by
  have hlen : (s.readBytes pas).length = 8 := by simp [State.readBytes, hl]
  have hlt : leNat (s.readBytes pas) < 2 ^ 64 := by
    have := leNat_lt (s.readBytes pas)
    rw [hlen] at this
    exact lt_of_lt_of_eq this (by norm_num)
  have hv : (s.readQuad pas).toNat = leNat (s.readBytes pas) := by
    simp only [State.readQuad, BitVec.toNat_ofNat]
    exact Nat.mod_eq_of_lt hlt
  rw [extract_byte, hv, leNat_div _ k (by simpa [State.readBytes] using hk)]
  simp [State.readBytes]

end Sys2Proof.Machine
end

