-- ==== Sys2Proof/Laws/Checks.lean ====
section
/-! SUPPORT. What the checks of one MOVHPD can answer: one lemma per shared operation, for its success and for its exception. -/

namespace Sys2Proof.Machine

/-! ## Common checks -/

theorem commonChecks_none (s : State) (len : Nat) (lock : Bool) :
    commonChecks s len lock = none ↔
      len ≤ Config.maxInsnBytes ∧ lock = false ∧ s.em = false ∧ s.osfxsr = true ∧ s.params.hasSse2 = true
        ∧ s.ts = false := by
  unfold commonChecks
  by_cases h : Config.maxInsnBytes < len
  · simp [h]
  · cases lock <;> cases s.em <;> cases s.osfxsr <;> cases s.params.hasSse2 <;> cases s.ts <;> simp [h] <;> omega

/-- The common checks raise nothing but #GP(0), #UD and #NM. -/
theorem commonChecks_some (s : State) (len : Nat) (lock : Bool) (e : Exc) (h : commonChecks s len lock = some e) :
    (e = .gp 0#32 ∧ Config.maxInsnBytes < len) ∨ e = .ud ∨ e = .nm := by
  unfold commonChecks at h
  split at h
  · rename_i hl
    exact .inl ⟨by simpa using h.symm, hl⟩
  · split at h
    · exact .inr (.inl (by simpa using h.symm))
    · split at h
      · exact .inr (.inr (by simpa using h.symm))
      · simp at h

/-! ## Segmentation -/

theorem SegReg.holds_iff (r : SegReg) (ea n : Nat) :
    r.holds ea n = true ↔
      if r.expandDown then r.limit.toNat < ea ∧ ea + (n - 1) ≤ (if r.big then 0xFFFFFFFF else 0xFFFF)
      else ea + (n - 1) ≤ r.limit.toNat := by
  unfold SegReg.holds
  split <;> simp

theorem segCheckDefault_ok (s : State) (g : Seg) (size : AddrSize) (ea : Quad) (n : Nat) (kind : AccessKind) (la : Quad) :
    segCheckDefault s g size ea n kind = .ok la ↔
      s.descriptorRefuses g kind = false ∧ ea.toNat + (n - 1) ≤ lastOffset s.mode size
        ∧ (s.segReg g).holds ea.toNat n = true
        ∧ la = (((s.segReg g).base + ea).setWidth 32).setWidth 64 := by
  unfold segCheckDefault
  by_cases h : ea.toNat + (n - 1) ≤ lastOffset s.mode size <;> cases s.descriptorRefuses g kind <;>
    cases (s.segReg g).holds ea.toNat n <;> simp [h, eq_comm]

theorem segCheckDefault_error (s : State) (g : Seg) (size : AddrSize) (ea : Quad) (n : Nat) (kind : AccessKind) (e : Exc) :
    segCheckDefault s g size ea n kind = .error e ↔
      (s.descriptorRefuses g kind = true ∧ e = .gp 0#32)
        ∨ (s.descriptorRefuses g kind = false
            ∧ ¬ (ea.toNat + (n - 1) ≤ lastOffset s.mode size ∧ (s.segReg g).holds ea.toNat n = true)
            ∧ e = segFault g) := by
  unfold segCheckDefault
  by_cases h : ea.toNat + (n - 1) ≤ lastOffset s.mode size <;> cases s.descriptorRefuses g kind <;>
    cases (s.segReg g).holds ea.toNat n <;> simp [h, eq_comm]

/-- Without entries `seg_check` is its default. -/
@[simp] theorem lookupSegRule_nil (g : Seg) (ea : Quad) (n : Nat) (kind : AccessKind) :
    lookupSegRule [] g ea n kind = none := rfl

theorem segCheck_default (s : State) (g : Seg) (size : AddrSize) (ea : Quad) (n : Nat) (kind : AccessKind)
    (h : lookupSegRule s.segRules g ea n kind = none) : segCheck s g size ea n kind = segCheckDefault s g size ea n kind := by
  simp [segCheck, h]

theorem segCheck_ok (s : State) (g : Seg) (size : AddrSize) (ea : Quad) (n : Nat) (kind : AccessKind) (la : Quad) :
    segCheck s g size ea n kind = .ok la ↔
      (∃ l : BitVec 32, lookupSegRule s.segRules g ea n kind = some (.linear l) ∧ la = l.setWidth 64)
        ∨ (lookupSegRule s.segRules g ea n kind = none ∧ segCheckDefault s g size ea n kind = .ok la) := by
  unfold segCheck
  rcases lookupSegRule s.segRules g ea n kind with _ | _ | _ | _ <;> simp [eq_comm]

theorem segCheck_error (s : State) (g : Seg) (size : AddrSize) (ea : Quad) (n : Nat) (kind : AccessKind) (e : Exc) :
    segCheck s g size ea n kind = .error e ↔
      (lookupSegRule s.segRules g ea n kind = some .refused ∧ e = .gp 0#32)
        ∨ (lookupSegRule s.segRules g ea n kind = some .outside ∧ e = segFault g)
        ∨ (lookupSegRule s.segRules g ea n kind = none ∧ segCheckDefault s g size ea n kind = .error e) := by
  unfold segCheck
  rcases lookupSegRule s.segRules g ea n kind with _ | _ | _ | _ <;> simp [eq_comm]

/-- `seg_check` raises nothing but #GP(0) and #SS(0), the latter in SS alone (20_memory.md R34). -/
theorem segCheck_error_cases (s : State) (g : Seg) (size : AddrSize) (ea : Quad) (n : Nat) (kind : AccessKind) (e : Exc)
    (h : segCheck s g size ea n kind = .error e) : e = .gp 0#32 ∨ e = segFault g := by
  rcases (segCheck_error s g size ea n kind e).mp h with h | h | ⟨-, h⟩
  · exact .inl h.2
  · exact .inr h.2
  · rcases (segCheckDefault_error s g size ea n kind e).mp h with h | h
    · exact .inl h.2
    · exact .inr h.2.2

theorem segCheck64_ok (s : State) (g : Seg) (ea : Quad) (n : Nat) (kind : AccessKind) (la : Quad) :
    segCheck64 s g ea n kind = .ok la ↔
      canonicalRange s.params.vaBits (s.base64 g + ea) n = true ∧ la = s.base64 g + ea := by
  unfold segCheck64
  cases h : canonicalRange s.params.vaBits (s.base64 g + ea) n <;> simp [h, eq_comm]

theorem segCheck64_error (s : State) (g : Seg) (ea : Quad) (n : Nat) (kind : AccessKind) (e : Exc) :
    segCheck64 s g ea n kind = .error e ↔
      canonicalRange s.params.vaBits (s.base64 g + ea) n = false ∧ e = segFault g := by
  unfold segCheck64
  cases h : canonicalRange s.params.vaBits (s.base64 g + ea) n <;> simp [h, eq_comm]

theorem linearAddress_long (s : State) (g : Seg) (size : AddrSize) (ea : Quad) (n : Nat) (kind : AccessKind) (h : s.mode = .long64) :
    linearAddress s g size ea n kind = segCheck64 s g ea n kind := by
  simp [linearAddress, h]

theorem linearAddress_legacy (s : State) (g : Seg) (size : AddrSize) (ea : Quad) (n : Nat) (kind : AccessKind) (h : s.mode ≠ .long64) :
    linearAddress s g size ea n kind = segCheck s g size ea n kind := by
  cases hm : s.mode <;> simp_all [linearAddress]

theorem segFault_cases (g : Seg) : segFault g = .ss 0#32 ∨ segFault g = .gp 0#32 := by
  unfold segFault
  split
  · exact .inl rfl
  · exact .inr rfl

/-- Segmentation raises nothing but #GP(0) and #SS(0) (20_memory.md R34, R35). -/
theorem linearAddress_error (s : State) (g : Seg) (size : AddrSize) (ea : Quad) (n : Nat) (kind : AccessKind) (e : Exc)
    (h : linearAddress s g size ea n kind = .error e) : e = .ss 0#32 ∨ e = .gp 0#32 := by
  by_cases hm : s.mode = .long64
  · rw [linearAddress_long s g size ea n kind hm, segCheck64_error] at h
    rw [h.2]
    exact segFault_cases g
  · rw [linearAddress_legacy s g size ea n kind hm] at h
    rcases segCheck_error_cases s g size ea n kind e h with rfl | rfl
    · exact .inr rfl
    · exact segFault_cases g

/-! ## Paging -/

theorem translate_off (s : State) (la : Quad) (kind : AccessKind) (h : s.paging = none) :
    translate s la kind = .mapped la := by
  simp [translate, h]

theorem translate_real (s : State) (la : Quad) (kind : AccessKind) (h : s.mode = .real) :
    translate s la kind = .mapped la := by
  cases hp : s.paging <;> simp [translate, hp, h]

theorem translateFrom_ok (s : State) (la : Quad) (kind : AccessKind) (k n : Nat) (pas : List Quad) :
    translateFrom s la kind k n = .ok pas ↔
      pas.length = n ∧ ∀ j, (hj : j < pas.length) → translate s (linearByte s la (k + j)) kind = .mapped pas[j] := by
  induction n generalizing k pas with
  | zero =>
    simp only [translateFrom]
    constructor
    · intro h
      cases h
      exact ⟨rfl, fun j hj => absurd hj (by simp)⟩
    · rintro ⟨h, -⟩
      rw [List.length_eq_zero_iff.mp h]
  | succ n ih =>
    simp only [translateFrom]
    cases ht : translate s (linearByte s la k) kind with
    | pageFault code =>
      simp only [reduceCtorEq, false_iff, not_and]
      intro hl hall
      have := hall 0 (by omega)
      simp [ht] at this
    | mapped pa =>
      cases hr : translateFrom s la kind (k + 1) n with
      | error e =>
        simp only [reduceCtorEq, false_iff, not_and]
        intro hl hall
        cases pas with
        | nil => simp at hl
        | cons p ps =>
          have hps : translateFrom s la kind (k + 1) n = .ok ps := by
            refine (ih (k + 1) ps).mpr ⟨by simpa using hl, fun j hj => ?_⟩
            have h1 := hall (j + 1) (Nat.succ_lt_succ hj)
            rwa [show k + (j + 1) = k + 1 + j from by omega] at h1
          rw [hr] at hps
          cases hps
      | ok qs =>
        have hq := (ih (k + 1) qs).mp hr
        simp only [Except.ok.injEq]
        constructor
        · rintro rfl
          refine ⟨by simpa using hq.1, fun j hj => ?_⟩
          cases j with
          | zero => simpa using ht
          | succ j =>
            have h1 := hq.2 j (Nat.lt_of_succ_lt_succ hj)
            rw [show k + (j + 1) = k + 1 + j from by omega]
            exact h1
        · rintro ⟨hl, hall⟩
          cases pas with
          | nil => simp at hl
          | cons p ps =>
            have hp : p = pa := by
              have := hall 0 (by simp)
              simp [ht] at this
              exact this.symm
            have hps : translateFrom s la kind (k + 1) n = .ok ps := by
              refine (ih (k + 1) ps).mpr ⟨by simpa using hl, fun j hj => ?_⟩
              have h1 := hall (j + 1) (Nat.succ_lt_succ hj)
              rwa [show k + (j + 1) = k + 1 + j from by omega] at h1
            rw [hr] at hps
            cases hps
            rw [hp]

/-- A page fault is that of the first byte that does not translate (60_exceptions.md R108). -/
theorem translateFrom_error (s : State) (la : Quad) (kind : AccessKind) (k n : Nat) (e : Exc) :
    translateFrom s la kind k n = .error e ↔
      ∃ j code, j < n ∧ translate s (linearByte s la (k + j)) kind = .pageFault code
        ∧ e = .pf code (linearByte s la (k + j))
        ∧ ∀ i, i < j → ∃ pa, translate s (linearByte s la (k + i)) kind = .mapped pa := by
  induction n generalizing k with
  | zero => simp [translateFrom]
  | succ n ih =>
    simp only [translateFrom]
    cases ht : translate s (linearByte s la k) kind with
    | pageFault code =>
      simp only [Except.error.injEq]
      constructor
      · rintro rfl
        exact ⟨0, code, by omega, ht, rfl, fun i hi => absurd hi (by omega)⟩
      · rintro ⟨j, code', hj, h1, h2, h3⟩
        cases j with
        | zero =>
          rw [Nat.add_zero] at h1 h2
          rw [ht] at h1
          cases h1
          exact h2.symm
        | succ j =>
          obtain ⟨pa, hpa⟩ := h3 0 (by omega)
          rw [Nat.add_zero, ht] at hpa
          cases hpa
    | mapped pa =>
      have key : (∃ j code, j < n + 1 ∧ translate s (linearByte s la (k + j)) kind = .pageFault code
          ∧ e = .pf code (linearByte s la (k + j))
          ∧ ∀ i, i < j → ∃ pa, translate s (linearByte s la (k + i)) kind = .mapped pa)
          ↔ translateFrom s la kind (k + 1) n = .error e := by
        rw [ih (k + 1)]
        constructor
        · rintro ⟨j, code, hj, h1, h2, h3⟩
          cases j with
          | zero =>
            rw [Nat.add_zero, ht] at h1
            cases h1
          | succ j =>
            have hk : k + (j + 1) = k + 1 + j := by omega
            rw [hk] at h1 h2
            refine ⟨j, code, by omega, h1, h2, fun i hi => ?_⟩
            obtain ⟨p, hp⟩ := h3 (i + 1) (by omega)
            exact ⟨p, by rwa [show k + (i + 1) = k + 1 + i from by omega] at hp⟩
        · rintro ⟨j, code, hj, h1, h2, h3⟩
          have hk : k + 1 + j = k + (j + 1) := by omega
          rw [hk] at h1 h2
          refine ⟨j + 1, code, by omega, h1, h2, fun i hi => ?_⟩
          cases i with
          | zero => exact ⟨pa, ht⟩
          | succ i =>
            obtain ⟨p, hp⟩ := h3 i (by omega)
            exact ⟨p, by rwa [show k + 1 + i = k + (i + 1) from by omega] at hp⟩
      rw [key]
      cases translateFrom s la kind (k + 1) n <;> simp

theorem translateAll_ok (s : State) (la : Quad) (n : Nat) (kind : AccessKind) (pas : List Quad) :
    translateAll s la n kind = .ok pas ↔
      pas.length = n ∧ ∀ j, (hj : j < pas.length) → translate s (linearByte s la j) kind = .mapped pas[j] := by
  have := translateFrom_ok s la kind 0 n pas
  simpa only [translateAll, Nat.zero_add] using this

theorem translateAll_error (s : State) (la : Quad) (n : Nat) (kind : AccessKind) (e : Exc) :
    translateAll s la n kind = .error e ↔
      ∃ j code, j < n ∧ translate s (linearByte s la j) kind = .pageFault code ∧ e = .pf code (linearByte s la j)
        ∧ ∀ i, i < j → ∃ pa, translate s (linearByte s la i) kind = .mapped pa := by
  have := translateFrom_error s la kind 0 n e
  simpa only [translateAll, Nat.zero_add] using this

/-! ## Alignment, and all the address checks -/

theorem State.misaligned_iff (s : State) (la : Quad) :
    s.misaligned la = true ↔ s.alignmentCheck = true ∧ la.extractLsb' 0 3 ≠ 0#3 := by
  simp [State.misaligned]

theorem addressChecks_ok (s : State) (g : Seg) (size : AddrSize) (ea : Quad) (kind : AccessKind) (la : Quad) (pas : List Quad) :
    addressChecks s g size ea kind = .ok (la, pas) ↔
      linearAddress s g size ea Config.operandBytes kind = .ok la ∧ s.misaligned la = false
        ∧ translateAll s la Config.operandBytes kind = .ok pas := by
  unfold addressChecks
  cases hl : linearAddress s g size ea Config.operandBytes kind with
  | error e => simp
  | ok la' =>
    cases hm : s.misaligned la' <;> cases hp : s.params.acBeforePf
      <;> cases ht : translateAll s la' Config.operandBytes kind <;> simp <;> grind

/-- The exceptions of steps 4 to 6 of 40_movhpd.md R92. -/
theorem addressChecks_error (s : State) (g : Seg) (size : AddrSize) (ea : Quad) (kind : AccessKind) (e : Exc)
    (h : addressChecks s g size ea kind = .error e) :
    linearAddress s g size ea Config.operandBytes kind = .error e
      ∨ ∃ la, linearAddress s g size ea Config.operandBytes kind = .ok la
          ∧ ((e = .ac 0#32 ∧ s.misaligned la = true)
              ∨ translateAll s la Config.operandBytes kind = .error e) := by
  unfold addressChecks at h
  cases hl : linearAddress s g size ea Config.operandBytes kind with
  | error e' =>
    rw [hl] at h
    exact .inl (by simpa using h)
  | ok la =>
    rw [hl] at h
    refine .inr ⟨la, rfl, ?_⟩
    cases hm : s.misaligned la <;> cases hp : s.params.acBeforePf
      <;> cases ht : translateAll s la Config.operandBytes kind <;> simp_all

theorem operandChecks_ok (s : State) (m : MemOp) (len : Nat) (lock : Bool) (kind : AccessKind) (la : Quad)
    (pas : List Quad) :
    operandChecks s m len lock kind = .ok (la, pas) ↔
      commonChecks s len lock = none
        ∧ addressChecks s m.seg m.form.size (effectiveAddress s m.form len) kind = .ok (la, pas) := by
  unfold operandChecks
  cases commonChecks s len lock <;> simp

theorem operandChecks_error (s : State) (m : MemOp) (len : Nat) (lock : Bool) (kind : AccessKind) (e : Exc) :
    operandChecks s m len lock kind = .error e ↔
      commonChecks s len lock = some e
        ∨ (commonChecks s len lock = none
            ∧ addressChecks s m.seg m.form.size (effectiveAddress s m.form len) kind = .error e) := by
  unfold operandChecks
  cases commonChecks s len lock <;> simp

/-- The operand of a completed check has eight bytes. -/
theorem operandChecks_length (s : State) (m : MemOp) (len : Nat) (lock : Bool) (kind : AccessKind) (la : Quad)
    (pas : List Quad) (h : operandChecks s m len lock kind = .ok (la, pas)) : pas.length = 8 := by
  rw [operandChecks_ok, addressChecks_ok, translateAll_ok] at h
  exact h.2.2.2.1

end Sys2Proof.Machine
end

