-- ==== Sys2Proof/Laws/Exec.lean ====
section
/-! SUPPORT. What one instruction and one step can do: the inversion lemmas of the meanings, of exec, of fetch and of step. -/

namespace Sys2Proof.Machine

/-! ## Meanings -/

theorem execMovhpdLoad_next (x : RegNo) (m : MemOp) (len : Nat) (lock : Bool) (s t : State) :
    execMovhpdLoad x m len lock s = .next t ↔
      ∃ la pas, operandChecks s m len lock .read = .ok (la, pas)
        ∧ t = (s.writeXmmHigh x (s.readQuad pas)).advanceIp len := by
  unfold execMovhpdLoad raise
  rcases operandChecks s m len lock .read with e | ⟨la, pas⟩ <;> simp [eq_comm]

theorem execMovhpdLoad_fault (x : RegNo) (m : MemOp) (len : Nat) (lock : Bool) (s : State) (f : Fault) :
    execMovhpdLoad x m len lock s = .fault f ↔
      ∃ e, operandChecks s m len lock .read = .error e ∧ f = .exception e := by
  unfold execMovhpdLoad raise
  rcases operandChecks s m len lock .read with e | ⟨la, pas⟩ <;> simp [eq_comm]

theorem execMovhpdStore_next (x : RegNo) (m : MemOp) (len : Nat) (lock : Bool) (s t : State) :
    execMovhpdStore x m len lock s = .next t ↔
      ∃ la pas, operandChecks s m len lock .write = .ok (la, pas)
        ∧ t = (s.writeQuad pas (highQuad (s.readXmm x))).advanceIp len := by
  unfold execMovhpdStore raise
  rcases operandChecks s m len lock .write with e | ⟨la, pas⟩ <;> simp [eq_comm]

theorem execMovhpdStore_fault (x : RegNo) (m : MemOp) (len : Nat) (lock : Bool) (s : State) (f : Fault) :
    execMovhpdStore x m len lock s = .fault f ↔
      ∃ e, operandChecks s m len lock .write = .error e ∧ f = .exception e := by
  unfold execMovhpdStore raise
  rcases operandChecks s m len lock .write with e | ⟨la, pas⟩ <;> simp [eq_comm]

theorem raiseReserved_eq (len : Nat) (s : State) :
    raiseReserved len s = .fault (.exception (if Config.maxInsnBytes < len then .gp 0#32 else .ud)) := by
  unfold raiseReserved raise
  split <;> rfl

/-- Only the two forms of MOVHPD answer a next state (60_exceptions.md R127). -/
theorem exec_next_cases (i : Instr) (s t : State) (h : exec i s = .next t) :
    (∃ x m len lock la pas, i = .movhpdLoad x m len lock ∧ operandChecks s m len lock .read = .ok (la, pas)
        ∧ t = (s.writeXmmHigh x (s.readQuad pas)).advanceIp len)
      ∨ ∃ x m len lock la pas, i = .movhpdStore x m len lock ∧ operandChecks s m len lock .write = .ok (la, pas)
        ∧ t = (s.writeQuad pas (highQuad (s.readXmm x))).advanceIp len := by
  cases i with
  | movhpdLoad x m len lock =>
    obtain ⟨la, pas, h1, h2⟩ := (execMovhpdLoad_next x m len lock s t).mp h
    exact .inl ⟨x, m, len, lock, la, pas, rfl, h1, h2⟩
  | movhpdStore x m len lock =>
    obtain ⟨la, pas, h1, h2⟩ := (execMovhpdStore_next x m len lock s t).mp h
    exact .inr ⟨x, m, len, lock, la, pas, rfl, h1, h2⟩
  | reserved66Load _ _ len => simp [exec, execReserved66Load, raiseReserved_eq] at h
  | reserved66Store _ _ len => simp [exec, execReserved66Store, raiseReserved_eq] at h
  | reservedF2Load _ len => simp [exec, execReservedF2Load, raiseReserved_eq] at h
  | reservedF2Store _ len => simp [exec, execReservedF2Store, raiseReserved_eq] at h
  | reservedF3Store _ len => simp [exec, execReservedF3Store, raiseReserved_eq] at h
  | reservedPlainStore _ _ len => simp [exec, execReservedPlainStore, raiseReserved_eq] at h
  | movhpsLoad => simp [exec, execMovhpsLoad, refuseOther] at h
  | movlhps => simp [exec, execMovlhps, refuseOther] at h
  | movhpsStore => simp [exec, execMovhpsStore, refuseOther] at h
  | movshdup => simp [exec, execMovshdup, refuseOther] at h

/-! ## Fetch -/

theorem fetchFrom_length_le (s : State) (k n : Nat) : (fetchFrom s k n).1.length ≤ n := by
  induction n generalizing k with
  | zero => simp [fetchFrom]
  | succ n ih =>
    simp only [fetchFrom]
    cases fetchAddress s k with
    | error e => simp
    | ok pa => simpa using ih (k + 1)

/-- A fetch without a fault has all its bytes. -/
theorem fetchFrom_none (s : State) (k n : Nat) (h : (fetchFrom s k n).2 = none) : (fetchFrom s k n).1.length = n := by
  induction n generalizing k with
  | zero => simp [fetchFrom]
  | succ n ih =>
    simp only [fetchFrom] at h ⊢
    cases hf : fetchAddress s k with
    | error e => simp [hf] at h
    | ok pa =>
      simp only [hf] at h ⊢
      simpa using ih (k + 1) h

/-- Byte `j` of what was fetched is the byte at its fetch address. -/
theorem fetchFrom_getElem? (s : State) (k n j : Nat) (b : Byte) (h : (fetchFrom s k n).1[j]? = some b) :
    ∃ pa, fetchAddress s (k + j) = .ok pa ∧ b = s.readByte pa := by
  induction n generalizing k j with
  | zero => simp [fetchFrom] at h
  | succ n ih =>
    simp only [fetchFrom] at h
    cases hf : fetchAddress s k with
    | error e => simp [hf] at h
    | ok pa =>
      simp only [hf] at h
      cases j with
      | zero => exact ⟨pa, by simpa using hf, by simpa using h.symm⟩
      | succ j =>
        obtain ⟨q, h1, h2⟩ := ih (k + 1) j (by simpa using h)
        exact ⟨q, by rwa [show k + (j + 1) = k + 1 + j from by omega], h2⟩

theorem outOfBytes_ne_instr (w : List Byte) (i : Instr) : outOfBytes w ≠ .instr i := by
  unfold outOfBytes
  split <;> simp

theorem outOfBytes_incomplete (w : List Byte) (h : outOfBytes w = .incomplete) : w.length < Config.maxInsnBytes := by
  unfold outOfBytes at h
  split at h
  · assumption
  · simp at h

theorem decodeMem_incomplete (mode : Mode) (csD : Bool) (w : List Byte) (p : Prefixes) (modrm : Byte)
    (tail : List Byte) (mk : MemOp → Nat → Instr) (h : decodeMem mode csD w p modrm tail mk = .incomplete) :
    w.length < Config.maxInsnBytes := by
  unfold decodeMem at h
  split at h
  · exact outOfBytes_incomplete w h
  · simp at h

/-- The decoder asks for more bytes only when it has fewer than fifteen (30_encoding.md R77 (1)). -/
theorem decode_incomplete (mode : Mode) (csD : Bool) (bytes : List Byte) (h : decode mode csD bytes = .incomplete) :
    bytes.length < Config.maxInsnBytes := by
  have key : (bytes.take Config.maxInsnBytes).length < Config.maxInsnBytes := by
    simp only [decode, decodeOpcode] at h
    split at h
    · exact outOfBytes_incomplete _ h
    · split at h
      · split at h
        · exact outOfBytes_incomplete _ h
        · split at h
          · split at h
            · exact outOfBytes_incomplete _ h
            · simp only [decode16] at h
              split at h <;> (try split at h) <;> first
                | exact decodeMem_incomplete _ _ _ _ _ _ _ h
                | simp at h
          · split at h
            · split at h
              · exact outOfBytes_incomplete _ h
              · simp only [decode17] at h
                split at h <;> (try split at h) <;> first
                  | exact decodeMem_incomplete _ _ _ _ _ _ _ h
                  | simp at h
            · simp at h
      · simp at h
  simp only [List.length_take] at key
  omega

/-- Where the decoder asks for more bytes, the fetch has a fault to raise: the default of `fetchFault` is not taken. -/
theorem fetchFault_of_incomplete (s : State) (h : fetchDecode s = .incomplete) :
    (fetchWindow s).2 = some (fetchFault s) := by
  have hl := decode_incomplete _ _ _ h
  unfold fetchFault
  cases hw : (fetchWindow s).2 with
  | some e => rfl
  | none =>
    have := fetchFrom_none s 0 Config.maxInsnBytes hw
    unfold fetchWindow at hl
    omega

/-! ## Step -/

/-- A step that answers a next state ran a decoded instruction. -/
theorem step_next (s t : State) (h : step s = .next t) :
    s.modeDefined = true ∧ ∃ i, fetchDecode s = .instr i ∧ exec i s = .next t := by
  unfold step raise at h
  split at h
  · rename_i hm
    refine ⟨hm, ?_⟩
    split at h <;> simp_all
  · simp at h

/-- What a step that answers a next state did. -/
theorem step_next_cases (s t : State) (h : step s = .next t) :
    s.modeDefined = true
      ∧ ((∃ x m len lock la pas, fetchDecode s = .instr (.movhpdLoad x m len lock)
            ∧ operandChecks s m len lock .read = .ok (la, pas)
            ∧ t = (s.writeXmmHigh x (s.readQuad pas)).advanceIp len)
          ∨ ∃ x m len lock la pas, fetchDecode s = .instr (.movhpdStore x m len lock)
            ∧ operandChecks s m len lock .write = .ok (la, pas)
            ∧ t = (s.writeQuad pas (highQuad (s.readXmm x))).advanceIp len) := by
  obtain ⟨hm, i, hd, he⟩ := step_next s t h
  refine ⟨hm, ?_⟩
  rcases exec_next_cases i s t he with ⟨x, m, len, lock, la, pas, rfl, h1, h2⟩ | ⟨x, m, len, lock, la, pas, rfl, h1, h2⟩
  · exact .inl ⟨x, m, len, lock, la, pas, hd, h1, h2⟩
  · exact .inr ⟨x, m, len, lock, la, pas, hd, h1, h2⟩

/-- With the parameter `deliver`, an exception goes to the unchanged state (60_exceptions.md R113). -/
theorem stepDelivering_exception (deliver : State → Exc → State) (s : State) (e : Exc)
    (h : step s = .fault (.exception e)) : stepDelivering deliver s = .next (deliver s e) := by
  simp [stepDelivering, h, deliverTo]

end Sys2Proof.Machine
end

