-- ==== Sys2Proof/Laws/Address.lean ====
section
/-! SUPPORT. The machine's address arithmetic in the terms of Safety: canonical addresses, segmentation, linear addresses of bytes, address and instruction-pointer widths, and what MemRead and MemWrite answer. -/

namespace Sys2Proof.Machine

/-! ## Widths -/

/-- The number of bits of an address size (10_state.md R19). -/
def sizeBits : AddrSize → Nat
  | .a16 => 16
  | .a32 => 32
  | .a64 => 64

theorem truncTo_toNat (size : AddrSize) (v : Quad) : (truncTo size v).toNat = v.toNat % 2 ^ sizeBits size := by
  have := v.isLt
  cases size <;> simp [truncTo, sizeBits] <;> omega

theorem effectiveAddress_toNat (s : State) (f : AddrForm) (len : Nat) :
    (effectiveAddress s f len).toNat
      = (s.baseValue f len + s.indexValue f + f.disp).toNat % 2 ^ sizeBits f.size :=
  truncTo_toNat _ _

theorem State.truncIp_toNat (s : State) (a : Quad) : (s.truncIp a).toNat = a.toNat % 2 ^ ipBits s := by
  have := a.isLt
  cases hm : s.mode <;> cases hd : s.csD <;> simp [State.truncIp, ipBits, hm, hd] <;> omega

theorem linearByte_eq (s : State) (la : Quad) (k : Nat) : linearByte s la k = byteLinear s la k := by
  apply BitVec.eq_of_toNat_eq
  cases hm : s.mode <;> simp [linearByte, byteLinear, hm]

/-! ## Canonical addresses (20_memory.md R35) -/

theorem canonical_iff (vaBits : Nat) (a : Quad) : canonical vaBits a = true ↔ CanonicalNat vaBits a.toNat := by
  unfold canonical CanonicalNat
  generalize vaBits - 1 = n
  have ha := a.isLt
  rw [Bool.or_eq_true, beq_iff_eq, beq_iff_eq, ← BitVec.toNat_inj, ← BitVec.toNat_inj, BitVec.toNat_ushiftRight,
    BitVec.toNat_ushiftRight, BitVec.toNat_allOnes, BitVec.toNat_zero, Nat.shiftRight_eq_div_pow,
    Nat.shiftRight_eq_div_pow]
  have hp : 0 < 2 ^ n := Nat.two_pow_pos n
  have h0 : a.toNat / 2 ^ n = 0 ↔ a.toNat < 2 ^ n := by
    rw [Nat.div_eq_zero_iff]
    omega
  rw [h0]
  by_cases hn : n < 64
  · have hs : 2 ^ n * 2 ^ (64 - n) = 2 ^ 64 := by rw [← Nat.pow_add]; congr 1; omega
    have hq : (2 ^ 64 - 1) / 2 ^ n = 2 ^ (64 - n) - 1 := by
      apply Nat.div_eq_of_lt_le
      · rw [Nat.sub_mul, Nat.mul_comm, hs]
        omega
      · rw [Nat.sub_add_cancel (Nat.two_pow_pos _), Nat.mul_comm, hs]
        omega
    rw [hq]
    have hle : a.toNat / 2 ^ n ≤ 2 ^ (64 - n) - 1 := by rw [← hq]; exact Nat.div_le_div_right (by omega)
    have h2 : 2 ^ (64 - n) - 1 ≤ a.toNat / 2 ^ n ↔ 2 ^ 64 - 2 ^ n ≤ a.toNat := by
      rw [Nat.le_div_iff_mul_le hp, Nat.sub_mul, Nat.mul_comm, hs, Nat.one_mul]
    constructor
    · rintro (h | h)
      · exact .inl h
      · exact .inr (h2.mp (Nat.le_of_eq h.symm))
    · rintro (h | h)
      · exact .inl h
      · exact .inr (Nat.le_antisymm hle (h2.mpr h))
  · have hl : 2 ^ 64 ≤ 2 ^ n := Nat.pow_le_pow_right (by omega) (by omega)
    exact ⟨fun _ => .inl (by omega), fun _ => .inl (by omega)⟩

theorem canonicalRange_iff (s : State) (la : Quad) :
    canonicalRange s.params.vaBits la Config.operandBytes = true ↔ CanonicalOperand s la := by
  have h8 : Config.operandBytes = 8 := rfl
  unfold canonicalRange CanonicalOperand
  rw [Bool.and_eq_true, Bool.and_eq_true, decide_eq_true_eq, canonical_iff, canonical_iff, h8]
  constructor
  · rintro ⟨⟨h1, h2⟩, h3⟩
    refine ⟨h3, h1, ?_⟩
    rwa [BitVec.toNat_add_of_lt (by simpa using h3)] at h2
  · rintro ⟨h3, h1, h2⟩
    refine ⟨⟨h1, ?_⟩, h3⟩
    rwa [BitVec.toNat_add_of_lt (by simpa using h3)]

/-! ## Segmentation -/

theorem SegReg.holds_operand (r : SegReg) (ea : Nat) :
    r.holds ea Config.operandBytes = true ↔ WithinLimit r ea := SegReg.holds_iff r ea 8

theorem State.descriptorRefuses_eq_false (s : State) (g : Seg) (kind : AccessKind) :
    s.descriptorRefuses g kind = false ↔
      ((s.mode = .prot ∨ s.mode = .compat) → DescriptorAllows (s.segReg g) kind) := by
  unfold State.descriptorRefuses State.checksDescriptor DescriptorAllows
  cases s.mode <;> cases kind <;> cases (s.segReg g).null <;> cases (s.segReg g).writable <;>
    cases (s.segReg g).readable <;> decide

theorem lastOffset_operand (s : State) (size : AddrSize) (ea : Nat) (hm : s.mode ≠ .long64) :
    ea + (Config.operandBytes - 1) ≤ lastOffset s.mode size ↔ WithinOffsets s size ea := by
  have h8 : Config.operandBytes - 1 = 7 := rfl
  unfold WithinOffsets lastOffset
  rw [h8]
  cases h : s.mode <;> cases size <;> simp_all <;> omega

theorem segCheckDefault_operand (s : State) (g : Seg) (size : AddrSize) (ea la : Quad) (kind : AccessKind)
    (hm : s.mode ≠ .long64) :
    segCheckDefault s g size ea Config.operandBytes kind = .ok la ↔
      DefaultAllows s g size ea kind ∧ la = (((s.segReg g).base + ea).setWidth 32).setWidth 64 := by
  rw [segCheckDefault_ok, lastOffset_operand s size _ hm, SegReg.holds_operand, State.descriptorRefuses_eq_false]
  simp only [DefaultAllows, and_assoc]

theorem operandLinear_long (s : State) (g : Seg) (ea : Quad) (kind : AccessKind) (h : s.mode = .long64) :
    operandLinear s g ea kind = s.base64 g + ea := by
  cases g <;> simp [State.base64, operandLinear, h]

theorem operandLinear_rule (s : State) (g : Seg) (ea : Quad) (kind : AccessKind) (l : BitVec 32)
    (h : s.mode ≠ .long64) (hr : lookupSegRule s.segRules g ea Config.operandBytes kind = some (.linear l)) :
    operandLinear s g ea kind = l.setWidth 64 := by
  simp [operandLinear, h, hr]

theorem operandLinear_default (s : State) (g : Seg) (ea : Quad) (kind : AccessKind) (h : s.mode ≠ .long64)
    (hr : lookupSegRule s.segRules g ea Config.operandBytes kind = none) :
    operandLinear s g ea kind = (((s.segReg g).base + ea).setWidth 32).setWidth 64 := by
  apply BitVec.eq_of_toNat_eq
  simp [operandLinear, h, hr]

/-- Segmentation allows an operand exactly where Safety says so, and answers its linear address. -/
theorem linearAddress_ok (s : State) (g : Seg) (size : AddrSize) (ea : Quad) (kind : AccessKind) (la : Quad) :
    linearAddress s g size ea Config.operandBytes kind = .ok la ↔
      SegmentAllows s g size ea kind ∧ la = operandLinear s g ea kind := by
  by_cases hm : s.mode = .long64
  · rw [linearAddress_long s g size ea _ kind hm, segCheck64_ok, ← operandLinear_long s g ea kind hm, canonicalRange_iff]
    simp [SegmentAllows, hm]
  · rw [linearAddress_legacy s g size ea _ kind hm, segCheck_ok, segCheckDefault_operand s g size ea la kind hm]
    cases hr : lookupSegRule s.segRules g ea Config.operandBytes kind with
    | none => simp [SegmentAllows, hm, hr, operandLinear_default s g ea kind hm hr]
    | some a =>
      cases a with
      | linear l => simp [SegmentAllows, hm, hr, operandLinear_rule s g ea kind l hm hr]
      | refused => simp [SegmentAllows, hm, hr]
      | outside => simp [SegmentAllows, hm, hr]

/-! ## MemRead and MemWrite (20_memory.md R32) -/

theorem memRead_ok (s : State) (la : Quad) (n : Nat) (v : BitVec (8 * n)) :
    memRead s la n = .ok v ↔
      ∃ pas, translateAll s la n .read = .ok pas ∧ v = BitVec.ofNat (8 * n) (leNat (s.readBytes pas)) := by
  unfold memRead
  cases translateAll s la n .read <;> simp [eq_comm]

theorem memWrite_ok (s t : State) (la : Quad) (n : Nat) (v : BitVec (8 * n)) :
    memWrite s la n v = .ok t ↔
      ∃ pas, translateAll s la n .write = .ok pas ∧ t = s.writeBytes pas (leBytes n v.toNat) := by
  unfold memWrite
  cases translateAll s la n .write <;> simp [eq_comm]

/-- What a MOVHPD load writes into its register is `MemRead` of its operand (40_movhpd.md R90). -/
theorem memRead_of_addressChecks (s : State) (g : Seg) (size : AddrSize) (ea la : Quad) (pas : List Quad)
    (h : addressChecks s g size ea .read = .ok (la, pas)) : memRead s la 8 = .ok (s.readQuad pas) :=
  (memRead_ok s la 8 _).mpr ⟨pas, ((addressChecks_ok s g size ea .read la pas).mp h).2.2, rfl⟩

/-- What a MOVHPD store leaves in memory is `MemWrite` of its operand (40_movhpd.md R91). -/
theorem memWrite_of_addressChecks (s : State) (g : Seg) (size : AddrSize) (ea la : Quad) (pas : List Quad) (v : BitVec (8 * 8))
    (h : addressChecks s g size ea .write = .ok (la, pas)) : memWrite s la 8 v = .ok (s.writeQuad pas v) :=
  (memWrite_ok s _ la 8 v).mpr ⟨pas, ((addressChecks_ok s g size ea .write la pas).mp h).2.2, rfl⟩

/-! ## A ready operand passes every check (70_reset_and_hazards.md R132) -/

theorem State.misaligned_eq_false (s : State) (la : Quad) (h : AlignmentChecked s → la.toNat % 8 = 0) :
    s.misaligned la = false := by
  rw [Bool.eq_false_iff]
  intro hm
  obtain ⟨hc, hm⟩ := (State.misaligned_iff s la).mp hm
  have hck : AlignmentChecked s := by
    simp only [State.alignmentCheck, Bool.and_eq_true, beq_iff_eq, bne_iff_ne] at hc
    exact ⟨hc.1.1.1, hc.1.1.2, hc.1.2, hc.2⟩
  exact hm (BitVec.eq_of_toNat_eq (by simpa using h hck))

theorem operandChecks_of_ready (s : State) (m : MemOp) (len : Nat) (kind : AccessKind) (pa : Nat → Quad)
    (h : OperandReady s m len kind pa) :
    operandChecks s m len false kind
      = .ok (operandLinear s m.seg (effectiveAddress s m.form len) kind, (List.range 8).map pa) := by
  obtain ⟨hl, ⟨h1, h2, h3, h4⟩, hs, ha, ht⟩ := h
  rw [operandChecks_ok, commonChecks_none, addressChecks_ok, linearAddress_ok]
  refine ⟨⟨hl, rfl, h2, h3, h1, h4⟩, ⟨hs, rfl⟩, State.misaligned_eq_false s _ ha,
    (translateAll_ok s _ _ kind _).mpr ⟨by simp [Config.operandBytes], fun j hj => ?_⟩⟩
  rw [linearByte_eq]
  simpa using ht j (by simpa using hj)

/-! ## The store of an instruction where it is fetched -/

/-- Placing an instruction changes memory alone. -/
theorem storeFetch_frame (s : State) (k : Nat) (bs : List Byte) :
    storeFetch s k bs = { s with mem := (storeFetch s k bs).mem } := by
  induction bs generalizing k with
  | nil => rfl
  | cons b rest ih =>
    unfold storeFetch
    cases fetchAddress s k with
    | error e => exact ih (k + 1)
    | ok pa =>
      simp only [State.writeByte]
      rw [ih (k + 1)]

end Sys2Proof.Machine
end

