-- ==== Sys2Proof/Laws/PerInstr.lean ====
section
/-! SUPPORT. The laws of the syntax that are stated for every instruction, one lemma per constructor: a well-formed instruction is three to fifteen bytes long (30_encoding.md R72, R73). -/

namespace Sys2Proof.Laws

/-- A well-formed instruction is three to fifteen bytes long (30_encoding.md R72, R73). -/
def LengthBounds.Statement (i : Instr) : Prop :=
  ∀ (mode : Mode) (csD : Bool), i.wf mode csD = true → 3 ≤ i.len ∧ i.len ≤ 15

/-- A row with a memory operand. -/
theorem mem_length_bounds {mode : Mode} {csD : Bool} {k : Nat} {x : RegNo} {m : MemOp} {len : Nat} {lock : Bool}
    (h : m.wf mode csD k x len lock = true) : 3 ≤ len ∧ len ≤ 15 := by
  simp [MemOp.wf, MemOp.bareLength] at h
  have h15 : Config.maxInsnBytes = 15 := rfl
  omega

/-- A row with two XMM registers. -/
theorem regs_length_bounds {mode : Mode} {k : Nat} {d s : RegNo} {len : Nat} {lock : Bool}
    (h : wfRegs mode k d s len lock = true) : 3 ≤ len ∧ len ≤ 15 := by
  simp [wfRegs] at h
  have h15 : Config.maxInsnBytes = 15 := rfl
  omega

/-- A reserved row. -/
theorem reserved_length_bounds {k len : Nat} (h : wfReserved k len = true) : 3 ≤ len ∧ len ≤ 15 := by
  simp [wfReserved] at h
  have h15 : Config.maxInsnBytes = 15 := rfl
  omega

theorem LengthBounds.movhpdLoad (xmm : RegNo) (m : MemOp) (len : Nat) (lock : Bool) :
    LengthBounds.Statement (.movhpdLoad xmm m len lock) := fun _ _ h => mem_length_bounds h

theorem LengthBounds.movhpdStore (xmm : RegNo) (m : MemOp) (len : Nat) (lock : Bool) :
    LengthBounds.Statement (.movhpdStore xmm m len lock) := fun _ _ h => mem_length_bounds h

theorem LengthBounds.reserved66Load (reg rm : BitVec 3) (len : Nat) :
    LengthBounds.Statement (.reserved66Load reg rm len) := fun _ _ h => reserved_length_bounds h

theorem LengthBounds.reserved66Store (reg rm : BitVec 3) (len : Nat) :
    LengthBounds.Statement (.reserved66Store reg rm len) := fun _ _ h => reserved_length_bounds h

theorem LengthBounds.reservedF2Load (modrm : Byte) (len : Nat) :
    LengthBounds.Statement (.reservedF2Load modrm len) := fun _ _ h => reserved_length_bounds h

theorem LengthBounds.reservedF2Store (modrm : Byte) (len : Nat) :
    LengthBounds.Statement (.reservedF2Store modrm len) := fun _ _ h => reserved_length_bounds h

theorem LengthBounds.reservedF3Store (modrm : Byte) (len : Nat) :
    LengthBounds.Statement (.reservedF3Store modrm len) := fun _ _ h => reserved_length_bounds h

theorem LengthBounds.reservedPlainStore (reg rm : BitVec 3) (len : Nat) :
    LengthBounds.Statement (.reservedPlainStore reg rm len) := fun _ _ h => reserved_length_bounds h

theorem LengthBounds.movhpsLoad (xmm : RegNo) (m : MemOp) (len : Nat) (lock : Bool) :
    LengthBounds.Statement (.movhpsLoad xmm m len lock) := fun _ _ h => mem_length_bounds h

theorem LengthBounds.movlhps (dst src : RegNo) (len : Nat) (lock : Bool) :
    LengthBounds.Statement (.movlhps dst src len lock) := fun _ _ h => regs_length_bounds h

theorem LengthBounds.movhpsStore (xmm : RegNo) (m : MemOp) (len : Nat) (lock : Bool) :
    LengthBounds.Statement (.movhpsStore xmm m len lock) := fun _ _ h => mem_length_bounds h

theorem LengthBounds.movshdup (dst : RegNo) (src : XmmOrMem) (len : Nat) (lock : Bool) :
    LengthBounds.Statement (.movshdup dst src len lock) := by
  intro mode csD h
  cases src with
  | xmm s => exact regs_length_bounds (mode := mode) h
  | mem m => exact mem_length_bounds (mode := mode) h

end Sys2Proof.Laws
end

