-- ==== Sys2Proof/Tests/Slice0.lean ====
section
/-! SUPPORT. Tests: the smoke of WellFormed, words decoded as the spec's encodings and vectors (95_test_vectors.md) give them, single steps of the vectors, and for each statement with hypotheses a state and operands that meet them all. -/

namespace Sys2Proof.Tests

open Sys2Proof.Machine

/-! ## The start states of 95_test_vectors.md -/

/-- A flat segment. -/
def flat : SegReg := { SegReg.resetData with limit := 0xFFFFFFFF#32, big := true }

/-- PM32: protected mode, 32-bit code. -/
def pm32 : State :=
  { State.reset with
    ip := 0x1000#64, cr0 := 1#64, cr4 := 0x200#64, csD := true, es := flat, ss := flat, ds := flat, fs := flat
    gs := flat, cs := { flat with writable := false } }

/-- LM64: 64-bit mode. -/
def lm64 : State := { pm32 with csL := true, efer := 0x400#64 }

/-- RM16: real-address mode. -/
def rm16 : State :=
  { State.reset with ip := 0#64, cr0 := 0#64, cr4 := 0x200#64, cs := SegReg.resetData }

/-- Virtual-8086 mode (vectors X36, X37). -/
def v86 : State := { rm16 with cr0 := 1#64, rflags := 0x20002#64, cpl := 3#2 }

/-- A state with a general register changed. -/
def withGpr (s : State) (r : RegNo) (v : Quad) : State := { s with gpr := s.gpr.set r.toNat v }

/-- A state with an XMM register changed. -/
def withXmm (s : State) (r : RegNo) (high low : Quad) : State := { s with xmm := s.xmm.set r.toNat (high ++ low) }

/-- A state with bytes in memory. -/
def withBytes (s : State) (a : Nat) : List Byte → State
  | [] => s
  | b :: rest => withBytes (s.writeByte (BitVec.ofNat 64 a) b) (a + 1) rest

/-- A state with an instruction where it is fetched. -/
def withCode (s : State) (bytes : List Byte) : State := storeFetch s 0 bytes

/-- A next state of which `p` holds. -/
def isNext (o : Host.Outcome State Fault Refusal) (p : State → Bool) : Bool :=
  match o with
  | .next t => p t
  | .fault _ => false
  | .refused _ => false

/-- The exception a step ended in. -/
def faultOf (o : Host.Outcome State Fault Refusal) : Option Fault :=
  match o with
  | .next _ => none
  | .fault f => some f
  | .refused _ => none

/-- Why a step was refused. -/
def refusalOf (o : Host.Outcome State Fault Refusal) : Option Refusal :=
  match o with
  | .next _ => none
  | .fault _ => none
  | .refused r => some r

/-- The bytes of a range of memory. -/
def bytesAt (s : State) (a : Nat) : Nat → List Byte
  | 0 => []
  | n + 1 => Memory.read s.mem a :: bytesAt s (a + 1) n

/-- `66 0F 16 00` and `66 0F 17 00`. -/
def loadCode : List Byte := [0x66#8, 0x0F#8, 0x16#8, 0x00#8]
def storeCode : List Byte := [0x66#8, 0x0F#8, 0x17#8, 0x00#8]

/-- The operand `DS:[EAX]`, and its 16- and 64-bit fellows. -/
def atEax : MemOp := ⟨.ds, ⟨.a32, some 0#4, none, 0#64, false⟩⟩
def atRax : MemOp := ⟨.ds, ⟨.a64, some 0#4, none, 0#64, false⟩⟩
def atBx : MemOp := ⟨.ds, ⟨.a16, some 3#4, none, 0#64, false⟩⟩

/-! ## WellFormed: one ill-formed term for each check -/

theorem test_wf_accepts : (Instr.movhpdLoad 0#4 atEax 4 false).wf .prot true = true := by decide

theorem test_wf_longest : (Instr.movhpdStore 7#4 atEax 15 false).wf .prot true = true := by decide

theorem test_wf_refuses_xmm8_outside_64 : (Instr.movhpdLoad 8#4 atEax 15 false).wf .prot true = false := by decide

theorem test_wf_refuses_r8_outside_64 :
    (Instr.movhpdLoad 0#4 ⟨.ds, ⟨.a32, some 8#4, none, 0#64, false⟩⟩ 15 false).wf .compat true = false := by decide

theorem test_wf_refuses_r9_index_outside_64 :
    (Instr.movhpdLoad 0#4 ⟨.ds, ⟨.a32, some 0#4, some (9#4, 0#2), 0#64, false⟩⟩ 15 false).wf .prot true = false := by
  decide

theorem test_wf_refuses_esp_index :
    (Instr.movhpdStore 0#4 ⟨.ds, ⟨.a32, some 0#4, some (4#4, 0#2), 0#64, false⟩⟩ 15 false).wf .prot true = false := by
  decide

theorem test_wf_refuses_bx_bp :
    (Instr.movhpdLoad 0#4 ⟨.ds, ⟨.a16, some 3#4, some (5#4, 0#2), 0#64, false⟩⟩ 15 false).wf .real false = false := by
  decide

theorem test_wf_refuses_wide_disp16 :
    (Instr.movhpdLoad 0#4 ⟨.ds, ⟨.a16, some 3#4, none, 0x8000#64, false⟩⟩ 15 false).wf .real false = false := by decide

theorem test_wf_refuses_wide_disp32 :
    (Instr.movhpdLoad 0#4 ⟨.ds, ⟨.a32, some 3#4, none, 0x80000000#64, false⟩⟩ 15 false).wf .prot true = false := by
  decide

theorem test_wf_refuses_ip_relative_outside_64 :
    (Instr.movhpsLoad 0#4 ⟨.ds, ⟨.a32, none, none, 0#64, true⟩⟩ 15 false).wf .prot true = false := by decide

theorem test_wf_refuses_ip_relative_with_base :
    (Instr.movhpsStore 0#4 ⟨.ds, ⟨.a64, some 0#4, none, 0#64, true⟩⟩ 15 false).wf .long64 false = false := by decide

theorem test_wf_refuses_size64_outside_64 : (Instr.movhpdLoad 0#4 atRax 15 false).wf .prot true = false := by decide

theorem test_wf_refuses_size16_in_64 : (Instr.movhpdLoad 0#4 atBx 15 false).wf .long64 false = false := by decide

theorem test_wf_refuses_es_in_64 :
    (Instr.movhpdLoad 0#4 ⟨.es, ⟨.a64, some 0#4, none, 0#64, false⟩⟩ 15 false).wf .long64 false = false := by decide

theorem test_wf_refuses_override_without_room :
    (Instr.movhpdLoad 0#4 ⟨.es, ⟨.a32, some 0#4, none, 0#64, false⟩⟩ 4 false).wf .prot true = false := by decide

theorem test_wf_refuses_three_bytes : (Instr.movhpdLoad 0#4 atEax 3 false).wf .prot true = false := by decide

theorem test_wf_refuses_lock_without_room : (Instr.movhpdStore 0#4 atEax 4 true).wf .prot true = false := by decide

theorem test_wf_refuses_sixteen_bytes : (Instr.movhpdLoad 0#4 atEax 16 false).wf .prot true = false := by decide

theorem test_wf_refuses_movlhps :
    (Instr.movlhps 8#4 0#4 15 false).wf .prot true = false ∧ (Instr.movlhps 0#4 8#4 15 false).wf .prot true = false
      ∧ (Instr.movlhps 0#4 0#4 2 false).wf .prot true = false
      ∧ (Instr.movlhps 0#4 0#4 16 false).wf .prot true = false := by decide

theorem test_wf_refuses_movshdup :
    (Instr.movshdup 0#4 (.xmm 0#4) 3 false).wf .prot true = false
      ∧ (Instr.movshdup 0#4 (.mem atEax) 3 false).wf .prot true = false := by decide

theorem test_wf_refuses_reserved_lengths :
    (Instr.reserved66Load 0#3 0#3 3).wf .prot true = false ∧ (Instr.reserved66Store 0#3 0#3 16).wf .prot true = false
      ∧ (Instr.reservedF2Load 0#8 3).wf .prot true = false ∧ (Instr.reservedF2Store 0#8 3).wf .prot true = false
      ∧ (Instr.reservedF3Store 0#8 16).wf .prot true = false
      ∧ (Instr.reservedPlainStore 0#3 0#3 2).wf .prot true = false := by decide

/-! ## Decoding: words of 95_test_vectors.md section 2 -/

/-- V1: `0110 0110 : 0000 1111 : 0001 0110 : 00 000 000`. -/
theorem test_decode_v1 : decode .prot true loadCode = .instr (.movhpdLoad 0#4 atEax 4 false) := by decide

/-- V2: ModR/M `01 001 011`. -/
theorem test_decode_v2 : decode .prot true [0x66#8, 0x0F#8, 0x17#8, 0x4B#8, 0x08#8]
    = .instr (.movhpdStore 1#4 ⟨.ds, ⟨.a32, some 3#4, none, 8#64, false⟩⟩ 5 false) := by decide

/-- V6: EBP with a negative disp8, SS by default. -/
theorem test_decode_v6 : decode .prot true [0x66#8, 0x0F#8, 0x17#8, 0x45#8, 0xF8#8]
    = .instr (.movhpdStore 0#4 ⟨.ss, ⟨.a32, some 5#4, none, 0xFFFFFFFFFFFFFFF8#64, false⟩⟩ 5 false) := by decide

/-- V10: SIB `01 101 101` with mod 00: no base, and EBP as index does not select SS. -/
theorem test_decode_v10 : decode .prot true [0x66#8, 0x0F#8, 0x16#8, 0x04#8, 0x6D#8, 0#8, 0#8, 0#8, 0#8]
    = .instr (.movhpdLoad 0#4 ⟨.ds, ⟨.a32, none, some (5#4, 1#2), 0#64, false⟩⟩ 9 false) := by decide

/-- V15: `[BP + SI]`, SS by default. -/
theorem test_decode_v15 : decode .real false [0x66#8, 0x0F#8, 0x16#8, 0x02#8]
    = .instr (.movhpdLoad 0#4 ⟨.ss, ⟨.a16, some 5#4, some (6#4, 0#2), 0#64, false⟩⟩ 4 false) := by decide

/-- V19: the last override wins. -/
theorem test_decode_v19 : decode .prot true [0x2E#8, 0x36#8, 0x66#8, 0x0F#8, 0x16#8, 0x00#8]
    = .instr (.movhpdLoad 0#4 ⟨.ss, ⟨.a32, some 0#4, none, 0#64, false⟩⟩ 6 false) := by decide

/-- V28: RIP-relative although REX.B = 1. -/
theorem test_decode_v28 : decode .long64 false [0x66#8, 0x41#8, 0x0F#8, 0x16#8, 0x05#8, 0#8, 0#8, 0#8, 0#8]
    = .instr (.movhpdLoad 0#4 ⟨.ds, ⟨.a64, none, none, 0#64, true⟩⟩ 9 false) := by decide

/-- V30: a REX byte before a legacy prefix is ignored. -/
theorem test_decode_v30 : decode .long64 false [0x44#8, 0x66#8, 0x0F#8, 0x16#8, 0x08#8]
    = .instr (.movhpdLoad 1#4 atRax 5 false) := by decide

/-- V32: GS:[R12 + R12*1], xmm15. -/
theorem test_decode_v32 : decode .long64 false [0x65#8, 0x66#8, 0x4F#8, 0x0F#8, 0x17#8, 0x3C#8, 0x24#8]
    = .instr (.movhpdStore 15#4 ⟨.gs, ⟨.a64, some 12#4, some (12#4, 0#2), 0#64, false⟩⟩ 7 false) := by decide

/-- V33: outside 64-bit mode 44H is another opcode. -/
theorem test_decode_v33 : decode .prot true [0x66#8, 0x44#8, 0x0F#8, 0x16#8, 0x08#8] = .otherOpcode := by decide

/-- V34 and V35: `66 0F 16 11 000 001` and `66 0F 17 11 111 111`. -/
theorem test_decode_v34_v35 :
    decode .long64 false [0x66#8, 0x0F#8, 0x16#8, 0xC1#8] = .instr (.reserved66Load 0#3 1#3 4)
      ∧ decode .real false [0x66#8, 0x0F#8, 0x17#8, 0xFF#8] = .instr (.reserved66Store 7#3 7#3 4) := by decide

/-- V36: MOVLHPS xmm0, xmm1. -/
theorem test_decode_v36 : decode .prot true [0x0F#8, 0x16#8, 0xC1#8] = .instr (.movlhps 0#4 1#4 3 false) := by decide

/-- V37 and V38: MOVHPS. -/
theorem test_decode_v37_v38 :
    decode .prot true [0x0F#8, 0x16#8, 0x00#8] = .instr (.movhpsLoad 0#4 atEax 3 false)
      ∧ decode .prot true [0x0F#8, 0x17#8, 0x00#8] = .instr (.movhpsStore 0#4 atEax 3 false) := by decide

/-- V39: `0F 17` with mod = 11B. -/
theorem test_decode_v39 :
    decode .prot true [0x0F#8, 0x17#8, 0xC0#8] = .instr (.reservedPlainStore 0#3 0#3 3) := by decide

/-- V40 and V43: MOVSHDUP, F3H before 66H too. -/
theorem test_decode_v40_v43 :
    decode .prot true [0xF3#8, 0x0F#8, 0x16#8, 0xC1#8] = .instr (.movshdup 0#4 (.xmm 1#4) 4 false)
      ∧ decode .prot true [0xF3#8, 0x66#8, 0x0F#8, 0x16#8, 0x00#8] = .instr (.movshdup 0#4 (.mem atEax) 5 false) := by
  decide

/-- V41, V42 and V44: the reserved columns. -/
theorem test_decode_v41_v42_v44 :
    decode .prot true [0xF2#8, 0x0F#8, 0x16#8, 0x00#8] = .instr (.reservedF2Load 0#8 4)
      ∧ decode .prot true [0xF3#8, 0x0F#8, 0x17#8, 0x00#8] = .instr (.reservedF3Store 0#8 4)
      ∧ decode .prot true [0xF2#8, 0x0F#8, 0x17#8, 0x00#8] = .instr (.reservedF2Store 0#8 4)
      ∧ decode .prot true [0x66#8, 0xF2#8, 0x0F#8, 0x16#8, 0x00#8] = .instr (.reservedF2Load 0#8 5) := by decide

/-- V45: a LOCK prefix decodes and is recorded. -/
theorem test_decode_v45 : decode .prot true [0xF0#8, 0x66#8, 0x0F#8, 0x17#8, 0x00#8]
    = .instr (.movhpdStore 0#4 atEax 5 true) := by decide

/-- V46 and V47: fifteen bytes decode, sixteen do not. -/
theorem test_decode_v46_v47 :
    decode .prot true (List.replicate 12 0x66#8 ++ [0x0F#8, 0x16#8, 0x00#8]) = .instr (.movhpdLoad 0#4 atEax 15 false)
      ∧ decode .prot true (List.replicate 13 0x66#8 ++ [0x0F#8, 0x16#8, 0x00#8]) = .tooLong := by decide

/-- V48: another opcode. -/
theorem test_decode_v48 : decode .prot true [0x66#8, 0x0F#8, 0x18#8, 0x00#8] = .otherOpcode := by decide

/-- V32 again: the encoder writes the same bytes. -/
theorem test_encode_v32 :
    encode .long64 false (.movhpdStore 15#4 ⟨.gs, ⟨.a64, some 12#4, some (12#4, 0#2), 0#64, false⟩⟩ 7 false)
      = [0x65#8, 0x66#8, 0x47#8, 0x0F#8, 0x17#8, 0x3C#8, 0x24#8] := by decide

/-! ## Single steps: vectors of 95_test_vectors.md sections 3 and 4 -/

/-- E1. -/
def e1 : State :=
  withCode (withXmm (withGpr (withBytes pm32 0x2000 [1#8, 2#8, 3#8, 4#8, 5#8, 6#8, 7#8, 8#8]) 0#4 0x2000#64)
    0#4 0xAAAAAAAAAAAAAAAA#64 0xBBBBBBBBBBBBBBBB#64) loadCode

/-- E1: only the high quadword and IP change. -/
theorem test_step_e1 : isNext (step e1) (fun t =>
    t == { e1 with xmm := e1.xmm.set 0 0x0807060504030201BBBBBBBBBBBBBBBB#128, ip := 0x1004#64 }) = true := by
  decide +kernel

/-- E7: the effective address wraps modulo 2^32. -/
theorem test_step_e7 : isNext
    (step (withCode (withGpr (withGpr (withBytes pm32 0x104 (List.replicate 8 0x11#8)) 0#4 0xFFFFFFFC#64) 1#4 1#64)
      [0x66#8, 0x0F#8, 0x16#8, 0x94#8, 0xC8#8, 0x00#8, 0x01#8, 0x00#8, 0x00#8]))
    (fun t => t.readXmm 2#4 == 0x11111111111111110000000000000000#128) = true := by decide +kernel

/-- E2. -/
def e2 : State :=
  withCode (withXmm (withGpr pm32 3#4 0x1000#64) 1#4 0x1122334455667788#64 0x99AABBCCDDEEFF00#64)
    [0x66#8, 0x0F#8, 0x17#8, 0x4B#8, 0x08#8]

/-- E2: the bytes stored, least significant first, and nothing beside them. -/
theorem test_step_e2 : isNext (step e2) (fun t =>
    bytesAt t 0x1005 12 == [0#8, 0#8, 0#8, 0x88#8, 0x77#8, 0x66#8, 0x55#8, 0x44#8, 0x33#8, 0x22#8, 0x11#8, 0#8]
      && t.ip == 0x1005#64 && t.xmm == e2.xmm) = true := by decide +kernel

/-- E9: real-address mode, the operand ends at the limit. -/
theorem test_step_e9 : isNext
    (step (withCode (withXmm (withGpr { rm16 with ds := { rm16.ds with base := 0x12340#64 } } 3#4 0xFFF8#64)
      0#4 0x4000000000000000#64 0#64) [0x66#8, 0x0F#8, 0x17#8, 0x07#8]))
    (fun t => bytesAt t 0x22338 9 == [0#8, 0#8, 0#8, 0#8, 0#8, 0#8, 0#8, 0x40#8, 0#8]) = true := by decide +kernel

/-- X6 and V35: a reserved encoding is #UD, whatever CR0.TS is. -/
theorem test_step_reserved66 :
    faultOf (step (withCode { pm32 with cr0 := 9#64 } [0x66#8, 0x0F#8, 0x16#8, 0xC1#8])) = some (.exception .ud)
      ∧ faultOf (step (withCode pm32 [0x66#8, 0x0F#8, 0x17#8, 0xFF#8])) = some (.exception .ud) := by decide +kernel

/-- V39, V41 and V42 execute as #UD. -/
theorem test_step_reserved_others :
    faultOf (step (withCode pm32 [0x0F#8, 0x17#8, 0xC0#8])) = some (.exception .ud)
      ∧ faultOf (step (withCode pm32 [0xF2#8, 0x0F#8, 0x16#8, 0x00#8])) = some (.exception .ud)
      ∧ faultOf (step (withCode pm32 [0xF2#8, 0x0F#8, 0x17#8, 0x00#8])) = some (.exception .ud)
      ∧ faultOf (step (withCode pm32 [0xF3#8, 0x0F#8, 0x17#8, 0x00#8])) = some (.exception .ud) := by decide +kernel

/-- X35, V37, V38 and V40: the neighbours are refused. -/
theorem test_step_neighbours :
    refusalOf (step (withCode pm32 [0x0F#8, 0x16#8, 0xC1#8])) = some (.otherInstruction "MOVLHPS")
      ∧ refusalOf (step (withCode pm32 [0x0F#8, 0x16#8, 0x00#8])) = some (.otherInstruction "MOVHPS")
      ∧ refusalOf (step (withCode pm32 [0x0F#8, 0x17#8, 0x00#8])) = some (.otherInstruction "MOVHPS")
      ∧ refusalOf (step (withCode pm32 [0xF3#8, 0x0F#8, 0x16#8, 0x00#8])) = some (.otherInstruction "MOVSHDUP") := by
  decide +kernel

/-- `withFetchWord` places the row's instruction where the next step reads it. -/
theorem test_fetch_word :
    decodeTableWord 24 0x0F1600 = some (.movhpdLoad 0#4 ⟨.ds, ⟨.a16, some 3#4, some (6#4, 0#2), 0#64, false⟩⟩ 4 false)
      ∧ isNext (step (State.withFetchWord rm16 24 0x0F1600)) (fun t => t.ip == 4#64) = true := by decide +kernel

/-! ## Witnesses: a state and operands that meet the hypotheses of each statement -/

/-- `StepRunsTheDecodedInstruction`: each of the four answers of the decoder occurs. -/
theorem witness_StepRunsTheDecodedInstruction :
    e1.modeDefined = true ∧ decode e1.mode e1.csD (fetchWindow e1).1 = .instr (.movhpdLoad 0#4 atEax 4 false)
      ∧ decode .prot true (fetchWindow (withCode pm32 (List.replicate 15 0x66#8))).1 = .tooLong
      ∧ decode .prot true (fetchWindow (withCode pm32 [0x90#8])).1 = .otherOpcode
      ∧ decode .prot true
          (fetchWindow (withCode { pm32 with cs := { pm32.cs with limit := 0x1001#32 } } loadCode)).1 = .incomplete := by
  decide +kernel

/-- E1 in a code segment that ends with the instruction. -/
def e1Short : State := { e1 with cs := { e1.cs with limit := 0x1003#32 } }

/-- `StepNeedsOnlyTheInstructionsBytes`: the byte after the instruction cannot be fetched. -/
theorem witness_StepNeedsOnlyTheInstructionsBytes :
    e1Short.modeDefined = true ∧ decode e1Short.mode e1Short.csD loadCode = .instr (.movhpdLoad 0#4 atEax 4 false)
      ∧ (Instr.movhpdLoad 0#4 atEax 4 false).len = loadCode.length
      ∧ (∀ k, (hk : k < loadCode.length) → ∃ pa, fetchAddress e1Short k = .ok pa ∧ e1Short.readByte pa = loadCode[k])
      ∧ fetchAddress e1Short 4 = .error (.gp 0#32) := by
  refine ⟨by decide +kernel, by decide, by decide, fun k hk => ?_, by decide +kernel⟩
  match k, hk with
  | 0, _ => exact ⟨0x1000#64, by decide +kernel, by rfl⟩
  | 1, _ => exact ⟨0x1001#64, by decide +kernel, by rfl⟩
  | 2, _ => exact ⟨0x1002#64, by decide +kernel, by rfl⟩
  | 3, _ => exact ⟨0x1003#64, by decide +kernel, by rfl⟩

/-- `UndefinedModeIsStuck`: both causes occur. -/
theorem witness_UndefinedModeIsStuck :
    ({ lm64 with rflags := 0x20002#64 }.lma = true ∧ { lm64 with rflags := 0x20002#64 }.vmFlag = true)
      ∧ { lm64 with params := { lm64.params with hasIntel64 := false } }.lma = true
      ∧ { lm64 with params := { lm64.params with hasIntel64 := false } }.params.hasIntel64 = false := by decide

/-- `DecodeOfEncodeIsIdentity`, `EncodeHasTheLength`: the shortest and the longest instruction, in two modes. -/
theorem witness_DecodeOfEncodeIsIdentity :
    (Instr.movlhps 0#4 1#4 3 false).wf .real false = true
      ∧ (Instr.movhpdStore 15#4 ⟨.fs, ⟨.a32, some 13#4, some (12#4, 3#2), 0x12345678#64, false⟩⟩ 15 true).wf
          .long64 false = true := by decide

theorem witness_EncodeHasTheLength :
    (Instr.reservedPlainStore 0#3 0#3 3).wf .v86 true = true 
      ∧ (Instr.movhpdLoad 7#4 atEax 15 false).wf .compat true = true := by decide

/-- `DecodeAnswersWellFormed`, `DecodeReadsOnlyTheInstructionsBytes`: bytes with others after the instruction. -/
theorem witness_DecodeAnswersWellFormed :
    decode .prot true (loadCode ++ [0x90#8, 0x90#8]) = .instr (.movhpdLoad 0#4 atEax 4 false) := by decide

theorem witness_DecodeReadsOnlyTheInstructionsBytes :
    decode .long64 true (storeCode ++ List.replicate 20 0x66#8) = .instr (.movhpdStore 0#4 atRax 4 false) := by decide

/-- `OpcodeMapCells`: seven prefixes of each column, and the ModR/M bytes on both sides of C0H. -/
theorem witness_OpcodeMapCells :
    (∀ pre ∈ [[], [0x66#8, 0x41#8], [0xF0#8, 0x66#8, 0x67#8, 0x64#8, 0x2E#8, 0x48#8, 0x66#8], [0x66#8, 0xF2#8, 0xF3#8],
        [0xF3#8, 0xF2#8]], PrefixRun .long64 pre ∧ pre.length ≤ 7)
      ∧ lastRep [0xF0#8, 0x66#8, 0x67#8, 0x64#8, 0x2E#8, 0x48#8, 0x66#8] = none
      ∧ lastRep [0x66#8, 0xF2#8, 0xF3#8] = some 0xF3#8 ∧ lastRep [0xF3#8, 0xF2#8] = some 0xF2#8
      ∧ 5 ≤ (List.replicate 5 0#8).length ∧ (0xBF#8).toNat < 0xC0 ∧ 0xC0 ≤ (0xC0#8).toNat
      ∧ decode .prot true (0x66#8 :: 0x0F#8 :: 0x16#8 :: 0xBF#8 :: List.replicate 5 0#8)
          = .instr (.movhpdLoad 7#4 ⟨.ds, ⟨.a32, some 7#4, none, 0#64, false⟩⟩ 8 false)
      ∧ decode .prot true (0x66#8 :: 0x0F#8 :: 0x16#8 :: 0xC0#8 :: List.replicate 5 0#8)
          = .instr (.reserved66Load 0#3 0#3 4) := by
  simp only [PrefixRun]
  decide

theorem witness_XmmNumberIsRexRBeforeReg : (2#2 : BitVec 2) ≠ 3#2 ∧ 5 ≤ (List.replicate 5 1#8).length := by decide

/-- `HighXmmRegistersNeedRexR`: XMM7 outside 64-bit mode; V21, XMM9 in it; two states that agree in every register. -/
theorem witness_HighXmmRegistersNeedRexR :
    (Mode.v86 ≠ .long64)
      ∧ decode .v86 false [0x66#8, 0x0F#8, 0x17#8, 0x3F#8]
        = .instr (.movhpdStore 7#4 ⟨.ds, ⟨.a16, some 3#4, none, 0#64, false⟩⟩ 4 false)
      ∧ decode .long64 false [0x66#8, 0x44#8, 0x0F#8, 0x16#8, 0x08#8] = .instr (movhpdForm false 9#4 atRax 5 false)
      ∧ 8 ≤ (9#4 : RegNo).toNat ∧ ∀ x : RegNo, pm32.readXmm x = State.reset.readXmm x :=
  ⟨by decide, by decide, by decide, by decide, fun _ => rfl⟩

/-- `ModRmFromC0NamesNoMemory`: the two sides of C0H, without and with a REX byte. -/
theorem witness_ModRmFromC0NamesNoMemory :
    5 ≤ (List.replicate 5 0#8).length ∧ (0xBF#8).toNat < 0xC0 ∧ 0xC0 ≤ (0xC0#8).toNat
      ∧ (∃ bits : BitVec 4, [0x45#8] = [4#4 ++ bits])
      ∧ decode .long64 false [0x45#8, 0x0F#8, 0x16#8, 0xC1#8] = .instr (.movlhps 8#4 9#4 4 false) := by decide

/-- `LengthCountsEveryByte`: V8, four displacement bytes after an SIB byte. -/
theorem witness_LengthCountsEveryByte :
    decode .prot true [0x66#8, 0x0F#8, 0x16#8, 0x94#8, 0xC8#8, 0x00#8, 0x01#8, 0x00#8, 0x00#8]
      = .instr (.movhpdLoad 2#4 ⟨.ds, ⟨.a32, some 0#4, some (1#4, 3#2), 0x100#64, false⟩⟩ 9 false) := by decide

theorem witness_AddressSizeOfThePrefix :
    (0xBF#8).toNat < 0xC0 ∧ 5 ≤ (List.replicate 5 0#8).length
      ∧ decode .real false (0x67#8 :: 0x66#8 :: 0x0F#8 :: 0x16#8 :: 0xBF#8 :: List.replicate 5 0#8)
        = .instr (.movhpdLoad 7#4 ⟨.ds, ⟨.a32, some 7#4, none, 0#64, false⟩⟩ 9 false) := by decide

theorem witness_RepeatBytesExcludeMovhpd :
    (∀ p ∈ [0x66#8, 0xF3#8, 0x36#8], p ∈ legacyBytes) ∧ 0xF3#8 ∈ [0x66#8, 0xF3#8, 0x36#8] := by decide

theorem witness_LegacyPrefixOrderIsFree :
    (∀ p ∈ [0x67#8], p ∈ legacyBytes) ∧ 0x66#8 ∈ legacyBytes ∧ 0x64#8 ∈ legacyBytes
      ∧ ¬ (0x66#8 ∈ [0x26#8, 0x2E#8, 0x36#8, 0x3E#8, 0x64#8, 0x65#8]
        ∧ 0x64#8 ∈ [0x26#8, 0x2E#8, 0x36#8, 0x3E#8, 0x64#8, 0x65#8])
      ∧ ¬ (0x66#8 ∈ [0xF2#8, 0xF3#8] ∧ 0x64#8 ∈ [0xF2#8, 0xF3#8]) := by decide

/-- `SegmentOverrideSelects`: V19, two overrides of a load; in 64-bit mode DS after FS, of a store of fourteen bytes. -/
theorem witness_SegmentOverrideSelects :
    PrefixRun .prot [0x2E#8, 0x36#8, 0x66#8] ∧ lastOverride .prot [0x2E#8, 0x36#8, 0x66#8] = some .ss
      ∧ decode .prot true [0x2E#8, 0x36#8, 0x66#8, 0x0F#8, 0x16#8, 0x00#8]
        = .instr (movhpdForm false 0#4 ⟨.ss, atEax.form⟩ 6 false)
      ∧ PrefixRun .long64 (0x64#8 :: 0x3E#8 :: List.replicate 8 0x66#8 ++ [0x44#8])
      ∧ lastOverride .long64 (0x64#8 :: 0x3E#8 :: List.replicate 8 0x66#8 ++ [0x44#8]) = some .fs
      ∧ decode .long64 true (0x64#8 :: 0x3E#8 :: List.replicate 8 0x66#8 ++ [0x44#8] ++ [0x0F#8, 0x17#8, 0x00#8])
        = .instr (movhpdForm true 8#4 ⟨.fs, atRax.form⟩ 14 false) ∧ 14 < 15 := by
  simp only [PrefixRun]
  decide

/-- `RexByteCountsOnlyBeforeTheOpcode`: the longest prefix that leaves room for the byte, and for REX 40H. -/
theorem witness_RexByteCountsOnlyBeforeTheOpcode :
    (∀ q ∈ List.replicate 14 0x66#8, q ∈ legacyBytes) ∧ 0x66#8 ∈ legacyBytes ∧ Mode.prot ≠ .long64
      ∧ (List.replicate 14 0x66#8).length < 15
      ∧ decode .long64 true (List.replicate 11 0x66#8 ++ 0x0F#8 :: [0x17#8, 0x00#8])
        = .instr (movhpdForm true 0#4 atRax 14 false) ∧ 14 < 15 := by decide

/-- The five addressing tables: their modes and address sizes, with and without 67H (V11, V16), at the special case and
beside it, up to fifteen bytes. -/
theorem witness_SixteenBitAddressingTable :
    rm16.mode ≠ .long64 ∧ With66 rm16.mode [0x66#8] ∧ rm16.csD = decide (0x67#8 ∈ [0x66#8])
      ∧ pm32.mode ≠ .long64 ∧ With66 pm32.mode (0x67#8 :: 0xF0#8 :: List.replicate 8 0x66#8)
      ∧ pm32.csD = decide (0x67#8 ∈ 0x67#8 :: 0xF0#8 :: List.replicate 8 0x66#8) ∧ (0#2 : BitVec 2) ≠ 3#2
      ∧ (0x67#8 :: 0xF0#8 :: List.replicate 8 0x66#8).length + 3 + 2 ≤ 15
      ∧ decode .real false [0x66#8, 0x0F#8, 0x16#8, 0x06#8, 0x34#8, 0x12#8]
        = .instr (.movhpdLoad 0#4 ⟨.ds, ⟨.a16, none, none, 0x1234#64, false⟩⟩ 6 false)
      ∧ decode .prot true [0x67#8, 0x66#8, 0x0F#8, 0x17#8, 0x00#8]
        = .instr (.movhpdStore 0#4 ⟨.ds, ⟨.a16, some 3#4, some (6#4, 0#2), 0#64, false⟩⟩ 5 false) := by
  simp only [With66, PrefixRun]
  decide

theorem witness_ThirtyTwoBitAddressingTable :
    pm32.mode ≠ .long64 ∧ With66 pm32.mode [0x26#8, 0x66#8] ∧ pm32.csD = !decide (0x67#8 ∈ [0x26#8, 0x66#8])
      ∧ rm16.mode ≠ .long64 ∧ With66 rm16.mode (0x67#8 :: List.replicate 7 0x66#8)
      ∧ rm16.csD = !decide (0x67#8 ∈ 0x67#8 :: List.replicate 7 0x66#8)
      ∧ (0x67#8 :: List.replicate 7 0x66#8).length + 3 + 4 ≤ 15 ∧ (0#2 : BitVec 2) ≠ 3#2 ∧ (5#3 : BitVec 3) ≠ 4#3
      ∧ decode .real false [0x67#8, 0x66#8, 0x0F#8, 0x17#8, 0x00#8] = .instr (.movhpdStore 0#4 atEax 5 false) := by
  simp only [With66, PrefixRun]
  decide

theorem witness_SibAddressingTable :
    pm32.mode ≠ .long64 ∧ With66 pm32.mode [0x66#8] ∧ pm32.csD = !decide (0x67#8 ∈ [0x66#8])
      ∧ rm16.mode ≠ .long64 ∧ With66 rm16.mode (0x67#8 :: List.replicate 6 0x66#8)
      ∧ rm16.csD = !decide (0x67#8 ∈ 0x67#8 :: List.replicate 6 0x66#8)
      ∧ (0x67#8 :: List.replicate 6 0x66#8).length + 4 + 4 ≤ 15 ∧ (2#2 : BitVec 2) ≠ 3#2 := by
  simp only [With66, PrefixRun]
  decide

/-- Without a REX byte (V23, V31), and with one after 67H. -/
theorem witness_SixtyFourBitAddressingTable :
    lm64.mode = .long64 ∧ With66 lm64.mode [0x66#8] ∧ rexBit [0x66#8] 2 = 0#1
      ∧ With66 lm64.mode [0x67#8, 0x66#8, 0x45#8] ∧ rexBit [0x67#8, 0x66#8, 0x45#8] 2 = 1#1
      ∧ With66 lm64.mode (List.replicate 8 0x66#8) ∧ (List.replicate 8 0x66#8).length + 3 + 4 ≤ 15
      ∧ (0#2 : BitVec 2) ≠ 3#2 ∧ (5#3 : BitVec 3) ≠ 4#3
      ∧ decode .long64 true [0x67#8, 0x66#8, 0x45#8, 0x0F#8, 0x17#8, 0x00#8]
        = .instr (.movhpdStore 8#4 ⟨.ds, ⟨.a32, some 8#4, none, 0#64, false⟩⟩ 6 false) := by
  simp only [With66, PrefixRun]
  decide

theorem witness_SixtyFourBitSibTable :
    lm64.mode = .long64 ∧ With66 lm64.mode [0x66#8] ∧ With66 lm64.mode (0x67#8 :: List.replicate 5 0x66#8 ++ [0x42#8])
      ∧ rexBit (0x67#8 :: List.replicate 5 0x66#8 ++ [0x42#8]) 1 = 1#1
      ∧ (0x67#8 :: List.replicate 5 0x66#8 ++ [0x42#8]).length + 4 + 4 ≤ 15 ∧ (1#2 : BitVec 2) ≠ 3#2 := by
  simp only [With66, PrefixRun]
  decide

/-- `LoadWritesOnlyTheHighQuadword`: X10, the operand ends at the limit. -/
theorem witness_LoadWritesOnlyTheHighQuadword :
    OperandReady { e1 with ds := { e1.ds with limit := 0x2007#32 } } atEax 4 .read
      (fun k => 0x2000#64 + BitVec.ofNat 64 k) := by
  exact ⟨by decide, ⟨by decide +kernel, by decide +kernel, by decide +kernel, by decide +kernel⟩,
    ((linearAddress_ok _ _ _ _ _ 0x2000#64).mp (by decide +kernel)).1, fun h => absurd h.1 (by decide +kernel),
    by decide +kernel⟩

/-- X27: alignment checking on, the operand aligned; paging on, two pages away from where they are linear. -/
def e3 : State :=
  withXmm
    { withGpr pm32 0#4 0x1FF8#64 with
      cr0 := 0x40001#64, rflags := 0x40002#64, cpl := 3#2
      paging := some [⟨0x1000, 0x1FFF, none, none, .mapped 0x9000#64⟩] }
    0#4 0x1122334455667788#64 0x99AABBCCDDEEFF00#64

/-- `StoreWritesOnlyTheEightBytes`, and the hypotheses of each of its clauses. -/
theorem witness_StoreWritesOnlyTheEightBytes :
    OperandReady e3 atEax 4 .write (fun k => 0x9FF8#64 + BitVec.ofNat 64 k) ∧ Memory.wf e3.mem = true
      ∧ (∀ k, k < 8 → ∀ j, j < 8 → k < j → 0x9FF8#64 + BitVec.ofNat 64 j ≠ 0x9FF8#64 + BitVec.ofNat 64 k)
      ∧ AlignmentChecked e3 := by
  exact ⟨⟨by decide, ⟨by decide +kernel, by decide +kernel, by decide +kernel, by decide +kernel⟩,
      ((linearAddress_ok _ _ _ _ _ 0x1FF8#64).mp (by decide +kernel)).1, fun _ => by decide +kernel, by decide +kernel⟩,
    by decide, by decide +kernel, ⟨by decide, by decide, by decide, by decide⟩⟩

/-- The state after a next step, or the state itself. -/
def after (o : Host.Outcome State Fault Refusal) (s : State) : State :=
  match o with
  | .next t => t
  | .fault _ => s
  | .refused _ => s

/-- `LoadThenStoreRestoresMemory`. -/
theorem witness_LoadThenStoreRestoresMemory :
    ∃ t u, Memory.wf e1.mem = true ∧ atEax.form.ipRel = false
      ∧ operandLinear e1 .ds (effectiveAddress e1 atEax.form 4) .write
        = operandLinear e1 .ds (effectiveAddress e1 atEax.form 4) .read
      ∧ (∀ (la : Quad), translate e1 la .write = translate e1 la .read)
      ∧ exec (.movhpdLoad 0#4 atEax 4 false) e1 = .next t ∧ exec (.movhpdStore 0#4 atEax 4 false) t = .next u
      ∧ u.readByte 0x2007#64 = 8#8 :=
  ⟨after (exec (.movhpdLoad 0#4 atEax 4 false) e1) e1,
    after (exec (.movhpdStore 0#4 atEax 4 false) (after (exec (.movhpdLoad 0#4 atEax 4 false) e1) e1)) e1,
    by decide +kernel, rfl, by decide +kernel, fun _ => rfl, by rfl, by rfl, by decide +kernel⟩

/-- `StoreThenLoadReturnsTheQuadword`. -/
theorem witness_StoreThenLoadReturnsTheQuadword :
    ∃ t u, Memory.wf e1.mem = true ∧ atEax.form.ipRel = false ∧ e1.paging = none
      ∧ operandLinear e1 .ds (effectiveAddress e1 atEax.form 4) .write
        = operandLinear e1 .ds (effectiveAddress e1 atEax.form 4) .read
      ∧ exec (.movhpdStore 0#4 atEax 4 false) e1 = .next t ∧ exec (.movhpdLoad 5#4 atEax 4 false) t = .next u
      ∧ u.readXmm 5#4 = 0xAAAAAAAAAAAAAAAA0000000000000000#128 :=
  ⟨after (exec (.movhpdStore 0#4 atEax 4 false) e1) e1,
    after (exec (.movhpdLoad 5#4 atEax 4 false) (after (exec (.movhpdStore 0#4 atEax 4 false) e1) e1)) e1,
    by decide +kernel, rfl, rfl, by decide +kernel, by rfl, by rfl, by decide +kernel⟩

/-- `MixedWidthReadsAfterWrite`: at the top of the 32-bit linear addresses too. -/
theorem witness_MixedWidthReadsAfterWrite :
    ∃ t, Memory.wf pm32.mem = true ∧ pm32.paging = none
      ∧ memWrite pm32 0xFFFFFFFC#64 8 0x1122334455667788#64 = .ok t ∧ t.readByte 0#64 = 0x44#8 :=
  ⟨_, rfl, rfl, rfl, by decide +kernel⟩

/-- `ReservedEncodingsRaiseInvalidOpcode`. -/
theorem witness_ReservedEncodingsRaiseInvalidOpcode :
    15 ≤ 15 ∧ Instr.reservedF3Store 0#8 15 ∈ [.reserved66Load 0#3 0#3 15, .reserved66Store 0#3 0#3 15,
      .reservedF2Load 0#8 15, .reservedF2Store 0#8 15, .reservedF3Store 0#8 15, .reservedPlainStore 0#3 0#3 15] := by
  decide

/-- `TooLongInstructionRaisesGeneralProtection`: thirteen prefixes; eight with an SIB byte and a disp32; sixteen bytes. -/
theorem witness_TooLongInstructionRaisesGeneralProtection :
    With66 .prot (List.replicate 13 0x66#8) ∧ 15 < (List.replicate 13 0x66#8).length + 3
      ∧ With66 .long64 (List.replicate 7 0x66#8 ++ [0x4F#8])
      ∧ sibLen (sizeOf .long64 true (List.replicate 7 0x66#8 ++ [0x4F#8])) 4#3
        + dispCount (sizeOf .long64 true (List.replicate 7 0x66#8 ++ [0x4F#8])) 0#2 4#3 ((0x25#8).extractLsb' 0 3) = 5
      ∧ 5 ≤ [0x25#8, 0#8, 0#8, 0#8, 0#8].length ∧ 15 < (List.replicate 7 0x66#8 ++ [0x4F#8]).length + 3 + 5
      ∧ decode .long64 true (List.replicate 7 0x66#8 ++ [0x4F#8] ++ [0x0F#8, 0x17#8, 0x04#8, 0x25#8, 0#8, 0#8, 0#8, 0#8])
        = .tooLong ∧ 15 < 16 := by
  simp only [With66, PrefixRun]
  decide

/-- `InvalidOpcodeExactlyWhen`: X1, X2, X3, X5, X7, and E1, which meets none of the causes. -/
theorem witness_InvalidOpcodeExactlyWhen :
    4 ≤ 15 ∧ faultOf (exec (.movhpdLoad 0#4 atEax 4 false) { e1 with cr0 := 5#64 }) = some (.exception .ud)
      ∧ faultOf (exec (.movhpdLoad 0#4 atEax 4 false) { e1 with cr4 := 0#64 }) = some (.exception .ud)
      ∧ faultOf (exec (.movhpdStore 0#4 atEax 4 false) { e1 with params := { e1.params with hasSse2 := false } })
        = some (.exception .ud)
      ∧ faultOf (exec (.movhpdLoad 0#4 atEax 4 false) { e1 with cr0 := 13#64 }) = some (.exception .ud)
      ∧ faultOf (exec (.movhpdStore 0#4 atEax 5 true) { e1 with cr0 := 9#64 }) = some (.exception .ud)
      ∧ faultOf (exec (.movhpdLoad 0#4 atEax 4 false) e1) = none := by decide +kernel

/-- `DeviceNotAvailableExactlyWhen`: X4 and X8. -/
theorem witness_DeviceNotAvailableExactlyWhen :
    4 ≤ 15 ∧ faultOf (exec (.movhpdLoad 0#4 atEax 4 false) { e1 with cr0 := 9#64 }) = some (.exception .nm)
      ∧ faultOf (exec (.movhpdStore 0#4 atEax 4 false) { e1 with cr0 := 9#64, ds := { e1.ds with limit := 0#32 } })
        = some (.exception .nm) := by decide +kernel

theorem e1_ready : SseReady e1 := ⟨by decide +kernel, by decide +kernel, by decide +kernel, by decide +kernel⟩

/-- E1 with `seg_check` given by one entry for reads of eight bytes in DS. -/
def e1Rule (answer : SegAnswer) : State :=
  { e1 with segRules := [⟨some .ds, 0x1FF0, 0x2000, some 8, some .read, answer⟩] }

/-- An entry of `seg_check` answers in place of the default: the load reads 0x5010, sixteen bytes above the answer for
the first offset of the entry; the store, which no entry covers, goes to 0x2000. -/
theorem test_step_seg_rule :
    isNext (step (withBytes (e1Rule (.linear 0x5000#32)) 0x5010 [1#8]))
        (fun t => t.readXmm 0#4 == 0x0000000000000001BBBBBBBBBBBBBBBB#128) = true
      ∧ isNext (exec (.movhpdStore 0#4 atEax 4 false) (e1Rule .refused))
        (fun t => bytesAt t 0x2000 1 == [0xAA#8]) = true := by decide +kernel

/-- `SegmentViolationOutside64BitMode`, the clauses for an entry: its two faults, at its last offset. -/
theorem witness_SegmentViolationOutside64BitMode_entry :
    (e1Rule .refused).mode ≠ .long64 ∧ SseReady (e1Rule .refused)
      ∧ (e1Rule .outside).mode ≠ .long64 ∧ SseReady (e1Rule .outside)
      ∧ lookupSegRule (e1Rule .refused).segRules .ds (effectiveAddress (e1Rule .refused) atEax.form 4) 8 .read
        = some .refused
      ∧ lookupSegRule (e1Rule .outside).segRules .ds (effectiveAddress (e1Rule .outside) atEax.form 4) 8 .read
        = some .outside
      ∧ faultOf (exec (.movhpdLoad 0#4 atEax 4 false) (e1Rule .refused)) = some (.exception (.gp 0#32))
      ∧ faultOf (exec (.movhpdLoad 0#4 atEax 4 false) (e1Rule .outside)) = some (.exception (.gp 0#32))
      ∧ faultOf (exec (.movhpdLoad 0#4 ⟨.ss, atEax.form⟩ 4 false)
          { e1Rule .outside with segRules := [⟨none, 0, 0x2000, none, none, .outside⟩] })
        = some (.exception (.ss 0#32)) :=
  ⟨by decide +kernel, ⟨by decide +kernel, by decide +kernel, by decide +kernel, by decide +kernel⟩,
    by decide +kernel, ⟨by decide +kernel, by decide +kernel, by decide +kernel, by decide +kernel⟩,
    by decide +kernel, by decide +kernel, by decide +kernel, by decide +kernel, by decide +kernel⟩

/-- `SegmentViolationOutside64BitMode`: no entry, X9 and X10 on the two sides of the limit, X11 for SS, X13 for the type. -/
theorem witness_SegmentViolationOutside64BitMode :
    { e1 with ds := { e1.ds with limit := 0x2006#32 } }.mode ≠ .long64
      ∧ lookupSegRule { e1 with ds := { e1.ds with limit := 0x2006#32 } }.segRules .ds 0x2000#64 8 .read = none
      ∧ SseReady { e1 with ds := { e1.ds with limit := 0x2006#32 } }
      ∧ DescriptorAllows ({ e1 with ds := { e1.ds with limit := 0x2006#32 } }.segReg .ds) .read
      ∧ ¬ WithinLimit ({ e1 with ds := { e1.ds with limit := 0x2006#32 } }.segReg .ds) 0x2000
      ∧ WithinLimit ({ e1 with ds := { e1.ds with limit := 0x2007#32 } }.segReg .ds) 0x2000
      ∧ (effectiveAddress { e1 with ds := { e1.ds with limit := 0x2006#32 } } atEax.form 4).toNat = 0x2000
      ∧ faultOf (exec (.movhpdLoad 0#4 atEax 4 false) { e1 with ds := { e1.ds with limit := 0x2006#32 } })
        = some (.exception (.gp 0#32))
      ∧ ¬ DescriptorAllows ({ e1 with ds := { e1.ds with writable := false } }.segReg .ds) .write
      ∧ faultOf (exec (.movhpdStore 0#4 atEax 4 false) { e1 with ds := { e1.ds with writable := false } })
        = some (.exception (.gp 0#32))
      ∧ faultOf (exec (.movhpdLoad 0#4 ⟨.ss, ⟨.a32, some 4#4, none, 0x10#64, false⟩⟩ 6 false)
          (withGpr { pm32 with ss := { pm32.ss with limit := 0xFFFF#32 } } 4#4 0xFFF0#64))
        = some (.exception (.ss 0#32)) := by
  refine ⟨by decide +kernel, rfl, ⟨by decide +kernel, by decide +kernel, by decide +kernel, by decide +kernel⟩,
    (State.descriptorRefuses_eq_false _ _ _).mp (by decide +kernel) (.inl (by decide +kernel)),
    fun h => absurd ((SegReg.holds_operand _ _).mpr h) (by decide +kernel),
    (SegReg.holds_operand _ _).mp (by decide +kernel), by decide +kernel, by decide +kernel,
    fun h => absurd (h.2.1 rfl) (by decide +kernel), by decide +kernel, by decide +kernel⟩

/-- A data segment of 4 GBytes in real-address mode, with the offsets of BX and EAX. -/
def bigReal (ea : Quad) : State := { withGpr (withGpr rm16 3#4 ea) 0#4 ea with ds := flat, ss := flat }

/-- The same in protected mode. -/
def bigProt (ea : Quad) : State := withGpr pm32 3#4 ea

/-- 60_exceptions.md R105 and R106: in real-address mode, with 67H too, and in virtual-8086 mode an operand whose last
byte is FFFFH completes and one byte further it faults, although the limit is larger. -/
theorem test_exec_past_ffff :
    isNext (exec (.movhpdLoad 0#4 atBx 4 false) (bigReal 0xFFF8#64)) (fun t => t.ip == 4#64) = true
      ∧ faultOf (exec (.movhpdLoad 0#4 atBx 4 false) (bigReal 0xFFF9#64)) = some (.exception (.gp 0#32))
      ∧ faultOf (exec (.movhpdStore 0#4 ⟨.ss, atBx.form⟩ 5 false) (bigReal 0xFFF9#64)) = some (.exception (.ss 0#32))
      ∧ faultOf (exec (.movhpdLoad 0#4 atEax 5 false) (bigReal 0x10000#64)) = some (.exception (.gp 0#32))
      ∧ faultOf (exec (.movhpdLoad 0#4 atBx 4 false) { withGpr v86 3#4 0xFFF9#64 with ds := flat })
        = some (.exception (.gp 0#32)) := by decide +kernel

/-- 20_memory.md R49: the end of a 16-bit offset space in protected mode; at address size 32 the operand completes. -/
theorem test_exec_past_16_bit_space :
    faultOf (exec (.movhpdLoad 0#4 atBx 5 false) (bigProt 0xFFF9#64)) = some (.exception (.gp 0#32))
      ∧ isNext (exec (.movhpdLoad 0#4 ⟨.ds, ⟨.a32, some 3#4, none, 0#64, false⟩⟩ 4 false) (bigProt 0xFFF9#64))
        (fun t => t.ip == 0x1004#64) = true := by decide +kernel

/-- `OperandPastTheOffsetSpaceFaults`: the first offset that fails, in real-address mode and at address size 16 in
protected mode; the offset before it is not past FFFFH. -/
theorem witness_OperandPastTheOffsetSpaceFaults :
    SseReady (bigReal 0xFFF9#64) ∧ (bigReal 0xFFF9#64).mode = .real
      ∧ lookupSegRule (bigReal 0xFFF9#64).segRules .ds (effectiveAddress (bigReal 0xFFF9#64) atBx.form 4) 8 .read = none
      ∧ 0xFFFF < (effectiveAddress (bigReal 0xFFF9#64) atBx.form 4).toNat + 7
      ∧ ¬ 0xFFFF < (effectiveAddress (bigReal 0xFFF8#64) atBx.form 4).toNat + 7
      ∧ { withGpr v86 3#4 0xFFF9#64 with ds := flat }.mode = .v86
      ∧ SseReady (bigProt 0xFFF9#64) ∧ (bigProt 0xFFF9#64).mode = .prot ∧ atBx.form.size = .a16
      ∧ DescriptorAllows ((bigProt 0xFFF9#64).segReg .ds) .read
      ∧ 0xFFFF < (effectiveAddress (bigProt 0xFFF9#64) atBx.form 5).toNat + 7 := by
  refine ⟨⟨by decide +kernel, by decide +kernel, by decide +kernel, by decide +kernel⟩, by decide +kernel,
    by decide +kernel, by decide +kernel, by decide +kernel, by decide +kernel,
    ⟨by decide +kernel, by decide +kernel, by decide +kernel, by decide +kernel⟩, by decide +kernel, rfl,
    (State.descriptorRefuses_eq_false _ _ _).mp (by decide +kernel) (.inl (by decide +kernel)), by decide +kernel⟩

/-- E10: the last canonical operand of the lower half. -/
def e10 : State := withGpr lm64 0#4 0x7FFFFFFFFFF8#64

/-- `NonCanonicalOperandIn64BitMode`: E10, X20, X21 and X22 at the edges of the canonical addresses. -/
theorem witness_NonCanonicalOperandIn64BitMode :
    e10.mode = .long64 ∧ SseReady e10 ∧ e10.paging = none ∧ ¬ AlignmentChecked e10
      ∧ CanonicalOperand e10 0x7FFFFFFFFFF8#64 ∧ ¬ CanonicalOperand e10 0x7FFFFFFFFFF9#64
      ∧ CanonicalOperand e10 0xFFFF800000000000#64
      ∧ operandLinear e10 .ds (effectiveAddress e10 atRax.form 4) .read = 0x7FFFFFFFFFF8#64
      ∧ operandLinear (withGpr lm64 0#4 0x7FFFFFFFFFF9#64) .ds
          (effectiveAddress (withGpr lm64 0#4 0x7FFFFFFFFFF9#64) atRax.form 4) .read = 0x7FFFFFFFFFF9#64
      ∧ faultOf (exec (.movhpdLoad 0#4 atRax 4 false) (withGpr lm64 0#4 0x7FFFFFFFFFF9#64))
        = some (.exception (.gp 0#32))
      ∧ faultOf (exec (.movhpdLoad 0#4 ⟨.ss, ⟨.a64, some 5#4, none, 0#64, false⟩⟩ 5 false)
          (withGpr lm64 5#4 0x800000000000#64)) = some (.exception (.ss 0#32)) := by
  refine ⟨by decide +kernel, ⟨by decide +kernel, by decide +kernel, by decide +kernel, by decide +kernel⟩,
    by decide +kernel, fun h => absurd h.1 (by decide +kernel), ?_, ?_, ?_, by decide +kernel, by decide +kernel,
    by decide +kernel, by decide +kernel⟩
  · exact ⟨by decide +kernel, .inl (by decide +kernel), .inl (by decide +kernel)⟩
  · rintro ⟨-, -, h | h⟩
    · exact absurd h (by decide +kernel)
    · exact absurd h (by decide +kernel)
  · exact ⟨by decide +kernel, .inr (by decide +kernel), .inr (by decide +kernel)⟩

/-- X30 to X33: one page present, the operand crosses its end. -/
def e30 : State :=
  { withGpr pm32 0#4 0x1FFC#64 with
    cpl := 3#2, paging := some [⟨0x1000, 0x1FFF, none, none, .mapped 0x1000#64⟩] }

/-- `PageFaultOfTheFirstFailingByte`: X31, the fifth byte fails and the first four do not. -/
theorem witness_PageFaultOfTheFirstFailingByte :
    SseReady e30 ∧ SegmentAllows e30 .ds .a32 (effectiveAddress e30 atEax.form 4) .read ∧ ¬ AlignmentChecked e30
      ∧ translate e30 (byteLinear e30 (operandLinear e30 .ds (effectiveAddress e30 atEax.form 4) .read) 4) .read
        = .pageFault 4#32
      ∧ (∀ j, j < 4 → translate e30 (byteLinear e30 (operandLinear e30 .ds (effectiveAddress e30 atEax.form 4) .read) j) .read
        = .mapped (0x1FFC#64 + BitVec.ofNat 64 j))
      ∧ faultOf (exec (.movhpdLoad 0#4 atEax 4 false) e30) = some (.exception (.pf 4#32 0x2000#64)) := by
  refine ⟨⟨by decide +kernel, by decide +kernel, by decide +kernel, by decide +kernel⟩,
    ((linearAddress_ok _ _ _ _ _ 0x1FFC#64).mp (by decide +kernel)).1, fun h => absurd h.1 (by decide +kernel), by decide +kernel, by decide +kernel, by decide +kernel⟩

/-- X26: alignment checking on and the operand misaligned. -/
def e26 : State :=
  { withGpr pm32 0#4 0x2004#64 with cr0 := 0x40001#64, rflags := 0x40002#64, cpl := 3#2 }

/-- `AlignmentCheckExactlyWhen`: X26, X27, and X29, where the segment base makes the linear address aligned. -/
theorem witness_AlignmentCheckExactlyWhen :
    SseReady e26 ∧ SegmentAllows e26 .ds .a32 (effectiveAddress e26 atEax.form 4) .read
      ∧ (∀ k, k < 8 →
        translate e26 (byteLinear e26 (operandLinear e26 .ds (effectiveAddress e26 atEax.form 4) .read) k) .read
          = .mapped (0x2004#64 + BitVec.ofNat 64 k))
      ∧ faultOf (exec (.movhpdLoad 0#4 atEax 4 false) e26) = some (.exception (.ac 0#32))
      ∧ faultOf (exec (.movhpdLoad 0#4 atEax 4 false) (withGpr e26 0#4 0x2008#64)) = none
      ∧ faultOf (exec (.movhpdLoad 0#4 atEax 4 false) { e26 with ds := { e26.ds with base := 4#64 } }) = none := by
  refine ⟨⟨by decide +kernel, by decide +kernel, by decide +kernel, by decide +kernel⟩,
    ((linearAddress_ok _ _ _ _ _ 0x2004#64).mp (by decide +kernel)).1, by decide +kernel, by decide +kernel,
    by decide +kernel, by decide +kernel⟩

/-- X33: misaligned and page fault together. -/
def e33 : State := { e30 with cr0 := 0x40001#64, rflags := 0x40002#64 }

/-- `AlignmentAgainstPageFault`: X33 with both values of the parameter. -/
theorem witness_AlignmentAgainstPageFault :
    SseReady e33 ∧ SegmentAllows e33 .ds .a32 (effectiveAddress e33 atEax.form 4) .read ∧ AlignmentChecked e33
      ∧ (operandLinear e33 .ds (effectiveAddress e33 atEax.form 4) .read).toNat % 8 ≠ 0
      ∧ translate e33 (byteLinear e33 (operandLinear e33 .ds (effectiveAddress e33 atEax.form 4) .read) 4) .read
        = .pageFault 4#32
      ∧ faultOf (exec (.movhpdLoad 0#4 atEax 4 false) e33) = some (.exception (.pf 4#32 0x2000#64))
      ∧ faultOf (exec (.movhpdLoad 0#4 atEax 4 false) { e33 with params := { e33.params with acBeforePf := true } })
        = some (.exception (.ac 0#32)) := by
  refine ⟨⟨by decide +kernel, by decide +kernel, by decide +kernel, by decide +kernel⟩,
    ((linearAddress_ok _ _ _ _ _ 0x1FFC#64).mp (by decide +kernel)).1,
    ⟨by decide +kernel, by decide +kernel, by decide +kernel, by decide +kernel⟩, by decide +kernel, by decide +kernel,
    by decide +kernel, by decide +kernel⟩

/-- `OnlyTheListedExceptions`: its forms are the two constructors. -/
theorem witness_OnlyTheListedExceptions :
    ∃ i : Instr, i = .movhpdLoad 0#4 atEax 4 false ∨ i = .movhpdStore 0#4 atEax 4 false := ⟨_, .inl rfl⟩

/-- `RestartAfterDeviceNotAvailable`: program P4. -/
theorem witness_RestartAfterDeviceNotAvailable :
    { e1 with cr0 := 9#64 }.modeDefined = true
      ∧ fetchDecode { e1 with cr0 := 9#64 } = .instr (.movhpdLoad 0#4 atEax 4 false)
      ∧ step { e1 with cr0 := 9#64 } = .fault (.exception .nm) := ⟨by decide +kernel, by decide +kernel, by rfl⟩

theorem e1_inv : Inv e1 := ⟨by decide +kernel, by decide +kernel, fun _ => by decide +kernel⟩

/-- `StepKeepsTheInvariant`. -/
theorem witness_StepKeepsTheInvariant : ∃ t, Inv e1 ∧ step e1 = .next t := ⟨after (step e1) e1, e1_inv, by rfl⟩

/-- `StepFrame`: a store and a load, outside 64-bit mode. -/
theorem witness_StepFrame :
    (∃ t, step e2 = .next t ∧ e2.mode ≠ .long64 ∧ 8 ≤ (8#4 : RegNo).toNat)
      ∧ ∃ t, step e1 = .next t ∧ fetchDecode e1 = .instr (.movhpdLoad 0#4 atEax 4 false) :=
  ⟨⟨after (step e2) e2, by rfl, by decide +kernel, by decide⟩, after (step e1) e1, by rfl, by decide +kernel⟩

/-- Program P1 of 95_test_vectors.md: a load and a store. -/
def p1 : State :=
  withXmm (withCode (withBytes { pm32 with ip := 0x401000#64 } 0x2000
      [0x18#8, 0x2D#8, 0x44#8, 0x54#8, 0xFB#8, 0x21#8, 0x09#8, 0x40#8])
    [0x66#8, 0x0F#8, 0x16#8, 0x05#8, 0x00#8, 0x20#8, 0x00#8, 0x00#8,
      0x66#8, 0x0F#8, 0x17#8, 0x05#8, 0x08#8, 0x20#8, 0x00#8, 0x00#8]) 0#4 0#64 0xDEADBEEFCAFEF00D#64

/-- `RunsNeverWriteControlState`: the two steps of P1. -/
theorem witness_RunsNeverWriteControlState : ∃ t, Host.Core.run Sys2Proof.core 2 p1 = .next t :=
  ⟨after (Host.Core.run Sys2Proof.core 2 p1) p1, by rfl⟩

/-- P1: what the two steps leave. -/
theorem test_program_p1 : isNext (Host.Core.run Sys2Proof.core 2 p1) (fun t =>
    t.readXmm 0#4 == 0x400921FB54442D18DEADBEEFCAFEF00D#128 && t.ip == 0x401010#64
      && bytesAt t 0x2008 8 == [0x18#8, 0x2D#8, 0x44#8, 0x54#8, 0xFB#8, 0x21#8, 0x09#8, 0x40#8]) = true := by
  decide +kernel

/-- `PrivilegeLevelDoesNotMatter`: X28, and X26, where one of the two steps is #AC(0). -/
theorem witness_PrivilegeLevelDoesNotMatter :
    (∀ (la : Quad) (kind : AccessKind), translate { e26 with cpl := 0#2 } la kind = translate e26 la kind)
      ∧ faultOf (exec (.movhpdLoad 0#4 atEax 4 false) { e26 with cpl := 0#2 }) = none
      ∧ faultOf (step (withCode e26 loadCode)) = some (.exception (.ac 0#32)) :=
  ⟨fun _ _ => rfl, by decide +kernel, by decide +kernel⟩

/-- E15: the store overlaps the next instruction. -/
def e15 : State := withCode (withXmm (withGpr pm32 0#4 0x1004#64) 0#4 0x9090909090909090#64 0#64) storeCode

/-- `NextFetchSeesTheStore`: byte 0 of the next window is byte 0 of the operand. -/
theorem witness_NextFetchSeesTheStore :
    ∃ t, Memory.wf e15.mem = true ∧ OperandReady e15 atEax 4 .write (fun k => 0x1004#64 + BitVec.ofNat 64 k)
      ∧ exec (.movhpdStore 0#4 atEax 4 false) e15 = .next t
      ∧ (∀ i, i < 8 → 0 < i → 0x1004#64 + BitVec.ofNat 64 i ≠ 0x1004#64 + BitVec.ofNat 64 0)
      ∧ fetchAddress t 0 = .ok (0x1004#64 + BitVec.ofNat 64 0) ∧ (fetchWindow t).1[0]? = some 0x90#8 := by
  refine ⟨after (exec (.movhpdStore 0#4 atEax 4 false) e15) e15, by decide +kernel,
    ⟨by decide, ⟨by decide +kernel, by decide +kernel, by decide +kernel, by decide +kernel⟩,
      ((linearAddress_ok _ _ _ _ _ 0x1004#64).mp (by decide +kernel)).1, fun h => absurd h.1 (by decide +kernel), by decide +kernel⟩,
    by rfl, by decide, by decide +kernel, by decide +kernel⟩

/-- `EverySegCheckIsAListOfRules`: the longest access of the machine, a fetch of fifteen bytes. -/
theorem witness_EverySegCheckIsAListOfRules :
    lookupSegRule [⟨some .cs, 0, 0, some 15, some .fetch, .outside⟩] .cs 0#64 15 .fetch = some .outside ∧ 15 ≤ 15 := by
  decide

end Sys2Proof.Tests
end

