-- ==== Sys2Proof/Proofs/SegCheckFaults.lean ====
section
/-! SUPPORT. When segmentation faults an operand outside 64-bit mode, and that the fault of segmentation is the one a MOVHPD with no earlier cause reports. -/

namespace Sys2Proof.Machine

/-! ## From the checks to the instruction -/

/-- Both forms of MOVHPD end in the exception that their operand checks answer (40_movhpd.md R92). -/
theorem exec_movhpd_fault {i : Instr} {x : RegNo} {m : MemOp} {len : Nat} {lock : Bool} {kind : AccessKind}
    (hi : i = .movhpdLoad x m len lock ∧ kind = .read ∨ i = .movhpdStore x m len lock ∧ kind = .write)
    (s : State) (e : Exc) :
    exec i s = .fault (.exception e) ↔ operandChecks s m len lock kind = .error e := by
  rcases hi with ⟨rfl, rfl⟩ | ⟨rfl, rfl⟩
  · exact (execMovhpdLoad_fault x m len lock s _).trans (by simp)
  · exact (execMovhpdStore_fault x m len lock s _).trans (by simp)

/-- R132 (1) to (4), with no LOCK and at most fifteen bytes: steps 1 to 3 of 40_movhpd.md R92 raise nothing. -/
theorem commonChecks_of_sseReady {s : State} {len : Nat} (hl : len ≤ 15) (h : SseReady s) :
    commonChecks s len false = none := by
  obtain ⟨hsse, hem, hos, hts⟩ := h
  exact (commonChecks_none s len false).mpr ⟨hl, rfl, hem, hos, hsse, hts⟩

/-- Segmentation comes before paging and alignment: its fault is that of the address checks. -/
theorem addressChecks_of_linearAddress_error {s : State} {g : Seg} {size : AddrSize} {ea : Quad} {kind : AccessKind}
    {e : Exc} (h : linearAddress s g size ea Config.operandBytes kind = .error e) :
    addressChecks s g size ea kind = .error e := by
  simp [addressChecks, h]

/-- With no earlier cause, a fault of segmentation is the fault of the instruction. -/
theorem exec_movhpd_of_linearAddress_error {i : Instr} {x : RegNo} {m : MemOp} {len : Nat} {kind : AccessKind}
    (hi : i = .movhpdLoad x m len false ∧ kind = .read ∨ i = .movhpdStore x m len false ∧ kind = .write)
    {s : State} {e : Exc} (hl : len ≤ 15) (hs : SseReady s)
    (h : linearAddress s m.seg m.form.size (effectiveAddress s m.form len) Config.operandBytes kind = .error e) :
    exec i s = .fault (.exception e) :=
  (exec_movhpd_fault hi s e).mpr ((operandChecks_error s m len false kind e).mpr
    (.inr ⟨commonChecks_of_sseReady hl hs, addressChecks_of_linearAddress_error h⟩))

/-! ## The default of `seg_check` (20_memory.md R34) -/

theorem State.descriptorRefuses_iff (s : State) (g : Seg) (kind : AccessKind) :
    s.descriptorRefuses g kind = true ↔
      (s.mode = .prot ∨ s.mode = .compat) ∧ ¬ DescriptorAllows (s.segReg g) kind := by
  rw [← Bool.not_eq_false, State.descriptorRefuses_eq_false, Classical.not_imp]

/-- The two faults of the default in the terms of Safety: the counterpart of `segCheckDefault_operand`. -/
theorem segCheckDefault_operand_error {s : State} (g : Seg) (size : AddrSize) (ea : Quad) (kind : AccessKind) (e : Exc)
    (hm : s.mode ≠ .long64) :
    segCheckDefault s g size ea Config.operandBytes kind = .error e ↔
      (s.mode = .prot ∨ s.mode = .compat) ∧ ¬ DescriptorAllows (s.segReg g) kind ∧ e = .gp 0#32
        ∨ ¬ ((s.mode = .prot ∨ s.mode = .compat) ∧ ¬ DescriptorAllows (s.segReg g) kind)
          ∧ ¬ (WithinOffsets s size ea.toNat ∧ WithinLimit (s.segReg g) ea.toNat)
          ∧ e = segFault g := by
  rw [segCheckDefault_error, lastOffset_operand s size _ hm, SegReg.holds_operand, ← Bool.not_eq_true,
    State.descriptorRefuses_iff, and_assoc]

/-- Settles O39: each clause names the answer of `seg_check`, and a fault of it is the fault of the instruction. -/
theorem segmentViolationOutside64BitMode : Obligations.SegmentViolationOutside64BitMode := by
  intro s x m len e i kind hm hl hs hi h
  refine exec_movhpd_of_linearAddress_error hi hl hs ?_
  rw [linearAddress_legacy s _ _ _ _ _ hm, segCheck_error]
  cases hr : lookupSegRule s.segRules m.seg (effectiveAddress s m.form len) Config.operandBytes kind with
  | none =>
    rw [show lookupSegRule _ _ _ 8 _ = none from hr] at h
    exact .inr (.inr ⟨rfl, (segCheckDefault_operand_error _ _ _ _ _ hm).mpr h⟩)
  | some answer =>
    rw [show lookupSegRule _ _ _ 8 _ = some answer from hr] at h
    cases answer with
    | linear la => exact h.elim
    | refused => exact .inl ⟨rfl, h⟩
    | outside => exact .inr (.inl ⟨rfl, h⟩)

end Sys2Proof.Machine
end

