-- ==== Sys2Proof/Proofs/SegRules.lean ====
section
/-! SUPPORT. A table of `seg_check` as entries: one entry for each access, and the lookup in a list of such entries. -/

namespace Sys2Proof.Machine

/-- What `seg_check` is asked: a segment register, an offset, a number of bytes and a kind of access (20_memory.md R34). -/
abbrev Access := Seg × Quad × Nat × AccessKind

/-- The entry that answers for one access alone, as `f` does. -/
def exactRule (f : Seg → Quad → Nat → AccessKind → SegAnswer) : Access → SegRule
  | (g, ea, n, kind) => ⟨some g, ea.toNat, ea.toNat, some n, some kind, f g ea n kind⟩

theorem SegRule.covers_iff (r : SegRule) (g : Seg) (ea : Quad) (n : Nat) (kind : AccessKind) :
    r.covers g ea n kind = true ↔
      (r.seg = none ∨ r.seg = some g) ∧ (r.first ≤ ea.toNat ∧ ea.toNat ≤ r.last)
        ∧ (r.size = none ∨ r.size = some n) ∧ (r.kind = none ∨ r.kind = some kind) := by
  simp only [SegRule.covers, Bool.and_eq_true, Bool.or_eq_true, beq_iff_eq, decide_eq_true_eq, and_assoc]

theorem exactRule_covers (f : Seg → Quad → Nat → AccessKind → SegAnswer) (a : Access) (g : Seg) (ea : Quad) (n : Nat)
    (kind : AccessKind) : (exactRule f a).covers g ea n kind = true ↔ a = (g, ea, n, kind) := by
  obtain ⟨g', ea', n', kind'⟩ := a
  have hea : ea'.toNat ≤ ea.toNat ∧ ea.toNat ≤ ea'.toNat ↔ ea' = ea := by
    rw [← BitVec.toNat_inj, Nat.le_antisymm_iff]
  simp [SegRule.covers_iff, exactRule, hea]

theorem exactRule_answerAt (f : Seg → Quad → Nat → AccessKind → SegAnswer) (g : Seg) (ea : Quad) (n : Nat)
    (kind : AccessKind) : (exactRule f (g, ea, n, kind)).answerAt ea = f g ea n kind := by
  cases h : f g ea n kind <;> simp [exactRule, SegRule.answerAt, h]

/-- In a list of such entries the first that covers a listed access is its own. -/
theorem lookupSegRule_exactRules (f : Seg → Quad → Nat → AccessKind → SegAnswer) (as : List Access) (g : Seg) (ea : Quad)
    (n : Nat) (kind : AccessKind) (h : (g, ea, n, kind) ∈ as) :
    lookupSegRule (as.map (exactRule f)) g ea n kind = some (f g ea n kind) := by
  induction as with
  | nil => cases h
  | cons a rest ih =>
    rw [List.map_cons, lookupSegRule]
    by_cases ha : a = (g, ea, n, kind)
    · rw [if_pos ((exactRule_covers f a g ea n kind).mpr ha), ha, exactRule_answerAt]
    · rw [if_neg (mt (exactRule_covers f a g ea n kind).mp ha)]
      exact ih ((List.mem_cons.mp h).resolve_left (Ne.symm ha))

/-- The accesses of at most `size` bytes at the offsets of a list. -/
def accessesUpTo (offsets : List Quad) (size : Nat) : List Access :=
  [.es, .cs, .ss, .ds, .fs, .gs] ×ˢ offsets ×ˢ List.range (size + 1) ×ˢ [.read, .write, .fetch]

theorem mem_accessesUpTo (offsets : List Quad) (size : Nat) (g : Seg) (ea : Quad) (n : Nat) (kind : AccessKind) :
    (g, ea, n, kind) ∈ accessesUpTo offsets size ↔ ea ∈ offsets ∧ n ≤ size := by
  have hg : g ∈ [Seg.es, .cs, .ss, .ds, .fs, .gs] := by cases g <;> decide
  have hk : kind ∈ [AccessKind.read, .write, .fetch] := by cases kind <;> decide
  simp only [accessesUpTo, List.mem_product, List.mem_range, Nat.lt_succ_iff, hg, hk, true_and, and_true]

/-- Offsets are finitely many. -/
theorem exists_list_of_all_quads : ∃ offsets : List Quad, ∀ ea : Quad, ea ∈ offsets :=
  ⟨List.ofFn BitVec.ofFin, fun ea => List.mem_ofFn.mpr ⟨ea.toFin, rfl⟩⟩

/-- Settles O54: one entry for each of the finitely many accesses. -/
theorem everySegCheckIsAListOfRules : Obligations.EverySegCheckIsAListOfRules := by
  intro f
  obtain ⟨offsets, hall⟩ := exists_list_of_all_quads
  refine ⟨(accessesUpTo offsets 15).map (exactRule f), fun g ea n kind hn => ?_⟩
  exact lookupSegRule_exactRules f _ g ea n kind ((mem_accessesUpTo offsets 15 g ea n kind).mpr ⟨hall ea, hn⟩)

end Sys2Proof.Machine
end

