-- ==== Sys2Proof/Proofs/XmmNumbers.lean ====
section
/-! SUPPORT. The numbers of the XMM registers: REX among the prefixes, and the XMM registers that a decoded instruction names. -/

namespace Sys2Proof.Machine

/-! ## Prefix bytes (30_encoding.md R52, R58) -/

theorem overrideSeg_some {b : Byte} {g : Seg} (h : overrideSeg b = some g) : b ∈ legacyBytes := by
  unfold overrideSeg at h
  by_contra hb
  simp only [legacyBytes, List.mem_cons, not_or] at hb
  simp [hb] at h

/-- A byte taken as one of the legacy prefixes is one of the eleven, and no REX byte before it counts. -/
theorem prefixesAddLegacy_some {long : Bool} {p q : Prefixes} {b : Byte} (h : p.addLegacy long b = some q) :
    b ∈ legacyBytes ∧ q.rex = none := by
  unfold Prefixes.addLegacy at h
  split_ifs at h
  case neg =>
    cases hg : overrideSeg b with
    | none => simp [hg] at h
    | some g =>
      simp only [hg, Option.some.injEq] at h
      exact ⟨overrideSeg_some hg, by rw [← h]⟩
  all_goals
    cases h
    exact ⟨by simp [legacyBytes, *], rfl⟩

/-- A byte taken among the prefixes is one of the legacy prefixes, or in 64-bit mode a REX byte whose bits are kept. -/
theorem prefixesAdd_some {long : Bool} {p q : Prefixes} {b : Byte} (h : p.add long b = some q) :
    (b ∈ legacyBytes ∧ q.rex = none)
      ∨ (long = true ∧ b.extractLsb' 4 4 = 4#4 ∧ q.rex = some (b.extractLsb' 0 4)) := by
  unfold Prefixes.add at h
  split at h
  next q' hq =>
    cases h
    exact .inl (prefixesAddLegacy_some hq)
  next =>
    split at h
    next hc =>
      cases h
      simp only [Bool.and_eq_true, beq_iff_eq] at hc
      exact .inr ⟨hc.1, hc.2, rfl⟩
    next => cases h

/-- The REX bits that the scan ends with stood there before, or are those of a REX byte among the prefixes. -/
theorem scanPrefixes_rex_some {mode : Mode} {p : Prefixes} {bytes : List Byte} {bits : BitVec 4}
    (h : (scanPrefixes (mode == .long64) p bytes).1.rex = some bits) :
    p.rex = some bits
      ∨ ∃ ps rest b, bytes = ps ++ b :: rest ∧ PrefixRun mode ps ∧ mode = .long64 ∧ b.extractLsb' 4 4 = 4#4
          ∧ b.extractLsb' 0 4 = bits := by
  induction bytes generalizing p with
  | nil => exact .inl h
  | cons b bytes ih =>
    unfold scanPrefixes at h
    split at h
    next q hq =>
      rcases prefixesAdd_some hq, ih h with ⟨⟨hb, hr⟩ | ⟨hm, hb, hr⟩, hs | ⟨ps, rest, c, rfl, hps, hc⟩⟩
      · exact absurd (hr.symm.trans hs) nofun
      · exact .inr ⟨b :: ps, rest, c, rfl, List.forall_mem_cons.mpr ⟨.inl hb, hps⟩, hc⟩
      · exact .inr ⟨[], bytes, b, rfl, nofun, eq_of_beq hm, hb, Option.some.inj (hr.symm.trans hs)⟩
      · exact .inr ⟨b :: ps, rest, c, rfl, List.forall_mem_cons.mpr ⟨.inr ⟨eq_of_beq hm, hb⟩, hps⟩, hc⟩
    next => exact .inl h

/-- The prefixes that the decoder finds before the opcode. -/
def prefixesOf (mode : Mode) (bytes : List Byte) : Prefixes :=
  (scanPrefixes (mode == .long64) .empty (bytes.take Config.maxInsnBytes)).1

/-- REX bits come from a REX byte among the prefixes, in 64-bit mode. -/
theorem prefixesOf_rex_some {mode : Mode} {bytes : List Byte} {bits : BitVec 4}
    (h : (prefixesOf mode bytes).rex = some bits) :
    ∃ ps rest b, bytes = ps ++ b :: rest ∧ PrefixRun mode ps ∧ mode = .long64 ∧ b.extractLsb' 4 4 = 4#4
      ∧ b.extractLsb' 0 4 = bits := by
  rcases scanPrefixes_rex_some h with hp | ⟨ps, rest, b, hw, hb⟩
  · exact absurd hp nofun
  · refine ⟨ps, rest ++ bytes.drop Config.maxInsnBytes, b, ?_, hb⟩
    rw [← List.cons_append, ← List.append_assoc, ← hw, List.take_append_drop]

/-- Outside 64-bit mode no byte is taken as REX. -/
theorem prefixesOf_rex_none {mode : Mode} (hm : mode ≠ .long64) (bytes : List Byte) :
    (prefixesOf mode bytes).rex = none := by
  by_contra h
  obtain ⟨bits, hbits⟩ := Option.ne_none_iff_exists'.mp h
  obtain ⟨_, _, _, _, _, hl, _⟩ := prefixesOf_rex_some hbits
  exact hm hl

/-! ## The cell that answers (30_encoding.md R74, R77) -/

theorem decodeMem_instr {mode : Mode} {csD : Bool} {w : List Byte} {p : Prefixes} {modrm : Byte} {tail : List Byte}
    {mk : MemOp → Nat → Instr} {i : Instr} (h : decodeMem mode csD w p modrm tail mk = .instr i) :
    ∃ m len, i = mk m len := by
  unfold decodeMem at h
  split at h
  · exact absurd h (outOfBytes_ne_instr w i)
  · exact ⟨_, _, (Decoded.instr.inj h).symm⟩

/-- The XMM registers of an instruction are none, that of reg, or those of reg and r/m (30_encoding.md R60). -/
def RegsOfModRm (p : Prefixes) (modrm : Byte) (i : Instr) : Prop :=
  xmmRegs i = [] ∨ xmmRegs i = [regNo p.rexR (midField modrm)]
    ∨ xmmRegs i = [regNo p.rexR (midField modrm), regNo p.rexB (lowField modrm)]

theorem decodeMem_regs {mode : Mode} {csD : Bool} {w : List Byte} {p : Prefixes} {modrm : Byte} {tail : List Byte}
    {mk : MemOp → Nat → Instr} {i : Instr} (h : decodeMem mode csD w p modrm tail mk = .instr i)
    (hmk : ∀ m len, xmmRegs (mk m len) = [regNo p.rexR (midField modrm)]) : RegsOfModRm p modrm i := by
  obtain ⟨m, len, rfl⟩ := decodeMem_instr h
  exact .inr (.inl (hmk m len))

theorem decode16_regs {mode : Mode} {csD : Bool} {w : List Byte} {p : Prefixes} {modrm : Byte} {tail : List Byte}
    {i : Instr} (h : decode16 mode csD w p modrm tail = .instr i) : RegsOfModRm p modrm i := by
  unfold decode16 at h
  dsimp only at h
  cases hc : p.column with
  | p66 =>
    simp only [hc] at h
    split at h
    · cases h; exact .inl rfl
    · exact decodeMem_regs h fun _ _ => rfl
  | plain | pF3 =>
    simp only [hc] at h
    split at h
    · cases h; exact .inr (.inr rfl)
    · exact decodeMem_regs h fun _ _ => rfl
  | pF2 =>
    simp only [hc] at h
    cases h; exact .inl rfl

theorem decode17_regs {mode : Mode} {csD : Bool} {w : List Byte} {p : Prefixes} {modrm : Byte} {tail : List Byte}
    {i : Instr} (h : decode17 mode csD w p modrm tail = .instr i) : RegsOfModRm p modrm i := by
  unfold decode17 at h
  dsimp only at h
  cases hc : p.column with
  | p66 | plain =>
    simp only [hc] at h
    split at h
    · cases h; exact .inl rfl
    · exact decodeMem_regs h fun _ _ => rfl
  | pF3 | pF2 =>
    simp only [hc] at h
    cases h; exact .inl rfl

/-- A decoded instruction is the answer of one of the two rows of cells. -/
theorem decode_instr {mode : Mode} {csD : Bool} {bytes : List Byte} {i : Instr} (h : decode mode csD bytes = .instr i) :
    ∃ modrm tail,
      decode16 mode csD (bytes.take Config.maxInsnBytes) (prefixesOf mode bytes) modrm tail = .instr i
        ∨ decode17 mode csD (bytes.take Config.maxInsnBytes) (prefixesOf mode bytes) modrm tail = .instr i := by
  unfold decode decodeOpcode at h
  dsimp only at h
  split at h
  · exact absurd h (outOfBytes_ne_instr _ i)
  split at h
  swap; · cases h
  split at h
  · exact absurd h (outOfBytes_ne_instr _ i)
  split at h
  · split at h
    · exact absurd h (outOfBytes_ne_instr _ i)
    · exact ⟨_, _, .inl h⟩
  split at h
  · split at h
    · exact absurd h (outOfBytes_ne_instr _ i)
    · exact ⟨_, _, .inr h⟩
  · cases h

/-- The registers of a decoded instruction come from ModR/M and the REX bits of its prefixes. -/
theorem decode_regs {mode : Mode} {csD : Bool} {bytes : List Byte} {i : Instr} (h : decode mode csD bytes = .instr i) :
    ∃ modrm, RegsOfModRm (prefixesOf mode bytes) modrm i := by
  obtain ⟨modrm, tail, h | h⟩ := decode_instr h
  · exact ⟨modrm, decode16_regs h⟩
  · exact ⟨modrm, decode17_regs h⟩

/-! ## Register numbers (10_state.md R10) -/

theorem regNo_zero_lt (low : BitVec 3) : (regNo 0#1 low).toNat < 8 := by
  have := low.isLt
  simp only [regNo, BitVec.toNat_append]
  simpa using this

theorem eight_le_regNo_iff (rex : BitVec 1) (low : BitVec 3) : 8 ≤ (regNo rex low).toNat ↔ rex = 1#1 := by
  revert rex low
  decide

/-- Outside 64-bit mode an instruction names only XMM0 to XMM7. -/
theorem decode_regs_lt_eight {mode : Mode} {csD : Bool} {bytes : List Byte} {i : Instr} (hm : mode ≠ .long64)
    (h : decode mode csD bytes = .instr i) : ∀ x ∈ xmmRegs i, x.toNat < 8 := by
  obtain ⟨modrm, hr⟩ := decode_regs h
  have hrex := prefixesOf_rex_none hm bytes
  have hR : (prefixesOf mode bytes).rexR = 0#1 := by simp [Prefixes.rexR, hrex]
  have hB : (prefixesOf mode bytes).rexB = 0#1 := by simp [Prefixes.rexB, hrex]
  rw [RegsOfModRm, hR, hB] at hr
  rcases hr with hr | hr | hr <;> simp [hr, regNo_zero_lt]

/-- A MOVHPD that names one of XMM8 to XMM15 has a REX byte with R = 1 among its prefixes. -/
theorem decode_movhpd_high {mode : Mode} {csD : Bool} {bytes : List Byte} {store : Bool} {x : RegNo} {m : MemOp}
    {len : Nat} {lock : Bool} (h : decode mode csD bytes = .instr (movhpdForm store x m len lock)) (hx : 8 ≤ x.toNat) :
    ∃ ps rest rex, bytes = ps ++ rex :: rest ∧ PrefixRun mode ps ∧ rex.extractLsb' 4 4 = 4#4
      ∧ rex.getLsbD 2 = true := by
  obtain ⟨modrm, hr⟩ := decode_regs h
  have hregs : xmmRegs (movhpdForm store x m len lock) = [x] := by cases store <;> rfl
  have hR : (prefixesOf mode bytes).rexR = 1#1 := by
    rw [RegsOfModRm, hregs] at hr
    simp only [reduceCtorEq, List.cons.injEq, and_true, and_false, or_false, false_or] at hr
    rwa [hr, eight_le_regNo_iff] at hx
  cases hrex : (prefixesOf mode bytes).rex with
  | none => simp [Prefixes.rexR, hrex] at hR
  | some bits =>
    obtain ⟨ps, rest, rex, hbytes, hps, -, h4, rfl⟩ := prefixesOf_rex_some hrex
    refine ⟨ps, rest, rex, hbytes, hps, h4, ?_⟩
    simpa [Prefixes.rexR, hrex] using congrArg (·.getLsbD 0) hR

/-- The shortest encoding with a REX byte: no SIB byte and no displacement, the operand at RAX. -/
theorem decode_rex_movhpd (csD : Bool) (x : RegNo) :
    decode .long64 csD [0x66#8, 4#4 ++ 0#1 ++ x.extractLsb' 3 1 ++ 0#2, 0x0F#8, 0x16#8, 0#2 ++ lowBits x ++ 0#3]
        = .instr (.movhpdLoad x ⟨.ds, ⟨.a64, some 0#4, none, 0#64, false⟩⟩ 5 false)
      ∧ decode .long64 csD [0x66#8, 4#4 ++ 0#1 ++ x.extractLsb' 3 1 ++ 0#2, 0x0F#8, 0x17#8, 0#2 ++ lowBits x ++ 0#3]
        = .instr (.movhpdStore x ⟨.ds, ⟨.a64, some 0#4, none, 0#64, false⟩⟩ 5 false) := by
  revert csD x
  decide

/-! ## The register file (10_state.md R10) -/

/-- One register of the file given a value. -/
def State.setXmm (s : State) (x : RegNo) (v : DQuad) : State := { s with xmm := s.xmm.set x.toNat v }

theorem State.readXmm_setXmm_self (s : State) (x : RegNo) (v : DQuad) : (s.setXmm x v).readXmm x = v := by
  simp [State.readXmm, State.setXmm]

theorem State.readXmm_setXmm_other (s : State) {x y : RegNo} (v : DQuad) (h : y ≠ x) :
    (s.setXmm x v).readXmm y = s.readXmm y :=
  Vector.getElem_set_ne x.isLt y.isLt fun e => h (BitVec.eq_of_toNat_eq e).symm

/-- The sixteen registers are the whole file. -/
theorem State.xmm_ext {s t : State} (h : ∀ x : RegNo, s.readXmm x = t.readXmm x) : s.xmm = t.xmm := by
  refine Vector.ext fun k hk => ?_
  have hx := h (BitVec.ofNat 4 k)
  simpa only [State.readXmm, BitVec.toNat_ofNat, Nat.mod_eq_of_lt hk] using hx

/-- Settles O15: the fourth bit of a register number is 0 without REX, and of MOVHPD's register it is REX.R. -/
theorem highXmmRegistersNeedRexR : Obligations.HighXmmRegistersNeedRexR := by
  refine ⟨fun s x v => ⟨s.setXmm x v, s.readXmm_setXmm_self x v, fun y => s.readXmm_setXmm_other v⟩,
    fun s t => State.xmm_ext, fun mode csD bytes i => decode_regs_lt_eight,
    fun csD bytes store x m len lock => decode_movhpd_high, fun csD x => ?_⟩
  have hrex : (4#4 ++ 0#1 ++ x.extractLsb' 3 1 ++ 0#2 : Byte).extractLsb' 4 4 = 4#4
      ∧ (4#4 ++ 0#1 ++ x.extractLsb' 3 1 ++ 0#2 : Byte).getLsbD 2 = x.getLsbD 3 := by
    revert x
    decide
  exact ⟨_, _, _, hrex.1, hrex.2, decode_rex_movhpd csD x⟩

end Sys2Proof.Machine
end

