-- ==== Sys2Proof/Proofs/AddressSize.lean ====
section
/-! SUPPORT. A memory operand of MOVHPD with enough bytes after ModR/M decodes, with the address size of its prefixes. -/

namespace Sys2Proof.Machine

/-! ## Displacements and forms (30_encoding.md R65 to R69) -/

theorem takeDisp8_of_length {bytes : List Byte} (h : 1 ≤ bytes.length) : ∃ d, takeDisp8 bytes = some d := by
  match bytes, h with
  | _ :: _, _ => exact ⟨_, rfl⟩

theorem takeDisp16_of_length {bytes : List Byte} (h : 2 ≤ bytes.length) : ∃ d, takeDisp16 bytes = some d := by
  match bytes, h with
  | _ :: _ :: _, _ => exact ⟨_, rfl⟩

theorem takeDisp32_of_length {bytes : List Byte} (h : 4 ≤ bytes.length) : ∃ d, takeDisp32 bytes = some d := by
  match bytes, h with
  | _ :: _ :: _ :: _ :: _, _ => exact ⟨_, rfl⟩

theorem dispByMod_of_wide {wide : List Byte → Option (Quad × List Byte)} {bytes : List Byte} (h : 1 ≤ bytes.length)
    (hw : ∃ d, wide bytes = some d) (mod : BitVec 2) : ∃ d, dispByMod wide mod bytes = some d := by
  unfold dispByMod
  split
  · exact ⟨_, rfl⟩
  split
  · exact takeDisp8_of_length h
  · exact hw

/-- What was read is a form of the address size. -/
def HasForm (size : AddrSize) (r : Option (AddrForm × List Byte)) : Prop := ∃ d, r = some d ∧ d.1.size = size

theorem hasForm_map {size : AddrSize} {o : Option (Quad × List Byte)} {f : Quad × List Byte → AddrForm × List Byte}
    (ho : ∃ d, o = some d) (hf : ∀ d, (f d).1.size = size) : HasForm size (o.map f) := by
  obtain ⟨d, rfl⟩ := ho
  exact ⟨f d, rfl, hf d⟩

theorem form16_hasForm {bytes : List Byte} (h : 2 ≤ bytes.length) (mod : BitVec 2) (rm : BitVec 3) :
    HasForm .a16 (form16 mod rm bytes) := by
  unfold form16
  split
  · exact hasForm_map (takeDisp16_of_length h) fun _ => rfl
  · exact hasForm_map (dispByMod_of_wide (by omega) (takeDisp16_of_length h) mod) fun _ => rfl

theorem formSib_hasForm {bytes : List Byte} (h : 5 ≤ bytes.length) (size : AddrSize) (p : Prefixes) (mod : BitVec 2) :
    HasForm size (formSib size p mod bytes) := by
  match bytes, h with
  | sib :: rest, h =>
    have hr : 4 ≤ rest.length := Nat.le_of_succ_le_succ h
    unfold formSib
    dsimp only
    split
    · exact hasForm_map (takeDisp32_of_length hr) fun _ => rfl
    · exact hasForm_map (dispByMod_of_wide (by omega) (takeDisp32_of_length hr) mod) fun _ => rfl

theorem form32_hasForm {bytes : List Byte} (h : 5 ≤ bytes.length) (size : AddrSize) (long : Bool) (p : Prefixes)
    (mod : BitVec 2) (rm : BitVec 3) : HasForm size (form32 size long p mod rm bytes) := by
  unfold form32
  split
  · exact formSib_hasForm h size p mod
  split
  · exact hasForm_map (takeDisp32_of_length (by omega)) fun _ => rfl
  · exact hasForm_map (dispByMod_of_wide (by omega) (takeDisp32_of_length (by omega)) mod) fun _ => rfl

/-- Five bytes are enough for any form: an SIB byte and a displacement of four. -/
theorem decodeForm_hasForm {bytes : List Byte} (h : 5 ≤ bytes.length) (mode : Mode) (csD : Bool) (p : Prefixes)
    (mod : BitVec 2) (rm : BitVec 3) : HasForm (p.size mode csD) (decodeForm mode csD p mod rm bytes) := by
  unfold decodeForm
  cases p.size mode csD with
  | a16 => exact form16_hasForm (by omega) mod rm
  | a32 | a64 => exact form32_hasForm h _ _ p mod rm

/-! ## The cells of MOVHPD (30_encoding.md R74) -/

theorem decodeMem_of_length {tail : List Byte} (h : 5 ≤ tail.length) (mode : Mode) (csD : Bool) (w : List Byte)
    (p : Prefixes) (modrm : Byte) (mk : MemOp → Nat → Instr) :
    ∃ m len, decodeMem mode csD w p modrm tail mk = .instr (mk m len) ∧ m.form.size = p.size mode csD := by
  obtain ⟨⟨f, rest⟩, hf, hsize⟩ := decodeForm_hasForm h mode csD p (topField modrm) (lowField modrm)
  exact ⟨⟨p.operandSeg f, f⟩, w.length - rest.length, by simp [decodeMem, hf], hsize⟩

/-- ModR/M bytes below C0H address memory (30_encoding.md R61). -/
theorem topField_ne_three {modrm : Byte} (h : modrm.toNat < 0xC0) : topField modrm ≠ 3#2 := by
  intro ht
  have := congrArg BitVec.toNat ht
  simp only [topField, BitVec.extractLsb'_toNat, Nat.shiftRight_eq_div_pow, BitVec.toNat_ofNat] at this
  omega

theorem formWith_movhpdForm (store : Bool) (x : RegNo) (m : MemOp) (len : Nat) (lock : Bool)
    (P : RegNo → MemOp → Nat → Bool → Prop) :
    FormWith store (.instr (movhpdForm store x m len lock)) P ↔ P x m len lock := by
  cases store <;> rfl

/-- After prefixes of the 66H column both opcodes with a memory operand are MOVHPD. -/
theorem decode_p66_mem {mode : Mode} {csD : Bool} {bytes tail : List Byte} {p : Prefixes} {store : Bool} {modrm : Byte}
    (hs : scanPrefixes (mode == .long64) .empty (bytes.take Config.maxInsnBytes)
      = (p, 0x0F#8 :: opByte store :: modrm :: tail))
    (hp : p.column = .p66) (hm : topField modrm ≠ 3#2) :
    decode mode csD bytes = decodeMem mode csD (bytes.take Config.maxInsnBytes) p modrm tail
      fun m len => movhpdForm store (regNo p.rexR (midField modrm)) m len p.lock := by
  cases store with
  | false => simp [decode, hs, decodeOpcode, opByte, decode16, hp, hm, movhpdForm]
  | true => simp [decode, hs, decodeOpcode, opByte, decode17, hp, hm, movhpdForm]

/-- With enough bytes after ModR/M that MOVHPD has the address size of its prefixes. -/
theorem decode_p66_size {mode : Mode} {csD : Bool} {bytes tail : List Byte} (p : Prefixes) {store : Bool} {modrm : Byte}
    (hs : scanPrefixes (mode == .long64) .empty (bytes.take Config.maxInsnBytes)
      = (p, 0x0F#8 :: opByte store :: modrm :: tail))
    (hp : p.column = .p66) (hm : modrm.toNat < 0xC0) (h : 5 ≤ tail.length) :
    FormWith store (decode mode csD bytes) fun _ m _ _ => m.form.size = p.size mode csD := by
  rw [decode_p66_mem hs hp (topField_ne_three hm)]
  obtain ⟨m, len, hd, hsize⟩ := decodeMem_of_length h mode csD _ p modrm _
  rw [hd]
  exact (formWith_movhpdForm store _ m len p.lock _).mpr hsize

/-! ## With and without 67H (10_state.md R19) -/

theorem scanPrefixes_66 (long : Bool) (rest : List Byte) :
    scanPrefixes long .empty (0x66#8 :: 0x0F#8 :: rest) = ({ Prefixes.empty with opSize := true }, 0x0F#8 :: rest) := by
  cases long <;> rfl

theorem scanPrefixes_67_66 (long : Bool) (rest : List Byte) :
    scanPrefixes long .empty (0x67#8 :: 0x66#8 :: 0x0F#8 :: rest)
      = ({ Prefixes.empty with opSize := true, addrSize := true }, 0x0F#8 :: rest) := by
  cases long <;> rfl

theorem defaultAddrSize_eq (mode : Mode) (csD : Bool) :
    mode.defaultAddrSize csD = if mode = .long64 then .a64 else if csD then .a32 else .a16 := by
  cases mode <;> rfl

theorem otherAddrSize_eq (mode : Mode) (csD : Bool) :
    mode.otherAddrSize csD = if mode = .long64 then .a32 else if csD then .a16 else .a32 := by
  cases mode <;> rfl

theorem decode_66_size (mode : Mode) (csD store : Bool) (modrm : Byte) (d : List Byte) (hm : modrm.toNat < 0xC0)
    (h : 5 ≤ d.length) :
    FormWith store (decode mode csD (0x66#8 :: 0x0F#8 :: opByte store :: modrm :: d))
      fun _ m _ _ => m.form.size = if mode = .long64 then .a64 else if csD then .a32 else .a16 := by
  rw [← defaultAddrSize_eq]
  exact decode_p66_size { Prefixes.empty with opSize := true } (tail := d.take 11) (scanPrefixes_66 _ _) rfl hm (by simpa using h)

theorem decode_67_66_size (mode : Mode) (csD store : Bool) (modrm : Byte) (d : List Byte) (hm : modrm.toNat < 0xC0)
    (h : 5 ≤ d.length) :
    FormWith store (decode mode csD (0x67#8 :: 0x66#8 :: 0x0F#8 :: opByte store :: modrm :: d))
      fun _ m _ _ => m.form.size = if mode = .long64 then .a32 else if csD then .a16 else .a32 := by
  rw [← otherAddrSize_eq]
  exact decode_p66_size { Prefixes.empty with opSize := true, addrSize := true } (tail := d.take 10)
    (scanPrefixes_67_66 _ _) rfl hm (by simpa using h)

/-- Settles O18: the size of the prefixes, which is that of the mode or with 67H the other one. -/
theorem addressSizeOfThePrefix : Obligations.AddressSizeOfThePrefix := by
  intro mode csD modrm d hm h
  exact ⟨decode_66_size mode csD false modrm d hm h, decode_67_66_size mode csD false modrm d hm h,
    decode_66_size mode csD true modrm d hm h, decode_67_66_size mode csD true modrm d hm h⟩

end Sys2Proof.Machine
end

