-- ==== Sys2Proof/Proofs/StepFrame.lean ====
section
/-! SUPPORT. What every step keeps: the invariant, and all of the state but IP, a high quadword and the operand of a store. -/

namespace Sys2Proof.Machine

/-! ## The invariant -/

/-- Outside 64-bit mode the instruction pointer comes out of an instruction below 2^32 (10_state.md R14). -/
theorem State.advanceIp_ip_lt (s : State) (len : Nat) (h : s.mode ≠ .long64) : (s.advanceIp len).ip.toNat < 2 ^ 32 := by
  rw [State.advanceIp_ip, State.truncIp_toNat]
  have hbits : ipBits s ≤ 32 := by
    simp only [ipBits, h, if_false]
    split <;> omega
  exact (Nat.mod_lt _ (Nat.two_pow_pos _)).trans_le (Nat.pow_le_pow_right (by decide) hbits)

/-- Settles O47: both forms end in `advanceIp`, and the store writes memory byte by byte. -/
theorem stepKeepsTheInvariant : Obligations.StepKeepsTheInvariant := by
  rintro s t ⟨hmem, hmode, -⟩ hst
  obtain ⟨-, ⟨x, m, len, lock, la, pas, -, -, rfl⟩ | ⟨x, m, len, lock, la, pas, -, -, rfl⟩⟩ := step_next_cases s t hst
  · exact ⟨hmem, hmode, State.advanceIp_ip_lt (s.writeXmmHigh x (s.readQuad pas)) len⟩
  · exact ⟨Memory.wf_writeAll _ _ _ hmem, hmode, State.advanceIp_ip_lt (s.writeQuad pas _) len⟩

/-! ## The frame of one step -/

/-- Every field but the XMM registers, memory and IP is as before, and so is every low quadword. -/
def KeepsControl (s t : State) : Prop :=
  { t with xmm := s.xmm, mem := s.mem, ip := s.ip } = s ∧ ∀ r, lowQuad (t.readXmm r) = lowQuad (s.readXmm r)

theorem KeepsControl.refl (s : State) : KeepsControl s s := ⟨rfl, fun _ => rfl⟩

theorem KeepsControl.trans {s t u : State} (hst : KeepsControl s t) (htu : KeepsControl t u) : KeepsControl s u := by
  obtain ⟨hst, hlow⟩ := hst
  obtain ⟨htu, hlow'⟩ := htu
  refine ⟨?_, fun r => (hlow' r).trans (hlow r)⟩
  calc { u with xmm := s.xmm, mem := s.mem, ip := s.ip }
      = { ({ u with xmm := t.xmm, mem := t.mem, ip := t.ip } : State) with xmm := s.xmm, mem := s.mem, ip := s.ip } := rfl
    _ = { t with xmm := s.xmm, mem := s.mem, ip := s.ip } := by rw [htu]
    _ = s := hst

theorem lowQuad_writeXmmHigh (s : State) (x : RegNo) (v : Quad) (r : RegNo) :
    lowQuad ((s.writeXmmHigh x v).readXmm r) = lowQuad (s.readXmm r) := by
  by_cases hr : r = x
  · rw [hr, State.readXmm_writeXmmHigh_self, lowQuad_append]
  · rw [State.readXmm_writeXmmHigh_other _ _ _ _ hr]

theorem keepsControl_load (s : State) (x : RegNo) (v : Quad) (len : Nat) :
    KeepsControl s ((s.writeXmmHigh x v).advanceIp len) := ⟨rfl, lowQuad_writeXmmHigh s x v⟩

theorem keepsControl_store (s : State) (pas : List Quad) (v : Quad) (len : Nat) :
    KeepsControl s ((s.writeQuad pas v).advanceIp len) := ⟨rfl, fun _ => rfl⟩

theorem step_keepsControl {s t : State} (h : step s = .next t) : KeepsControl s t := by
  obtain ⟨-, ⟨x, m, len, lock, la, pas, -, -, rfl⟩ | ⟨x, m, len, lock, la, pas, -, -, rfl⟩⟩ := step_next_cases s t h
  · exact keepsControl_load s x _ len
  · exact keepsControl_store s pas _ len

/-- A completed MOVHPD has no LOCK byte (60_exceptions.md R101). -/
theorem operandChecks_ok_lock {s : State} {m : MemOp} {len : Nat} {lock : Bool} {kind : AccessKind} {r : Quad × List Quad}
    (h : operandChecks s m len lock kind = .ok r) : lock = false := by
  obtain ⟨hcommon, -⟩ := (operandChecks_ok s m len lock kind r.1 r.2).mp h
  obtain ⟨-, hlock, -⟩ := (commonChecks_none s len lock).mp hcommon
  exact hlock

/-- The register of a load decoded outside 64-bit mode is one of XMM0 to XMM7. -/
theorem fetchDecode_load_lt_eight {s : State} {x : RegNo} {m : MemOp} {len : Nat} {lock : Bool} (hm : s.mode ≠ .long64)
    (h : fetchDecode s = .instr (.movhpdLoad x m len lock)) : x.toNat < 8 :=
  decode_regs_lt_eight hm h x (List.mem_singleton_self x)

/-- Settles O48: the two forms of MOVHPD are the only instructions with a next state. -/
theorem stepFrame : Obligations.StepFrame := by
  intro s t h
  obtain ⟨hctl, hlow⟩ := step_keepsControl h
  refine ⟨hctl, hlow, ?_⟩
  obtain ⟨-, ⟨x, m, len, lock, la, pas, hd, hc, rfl⟩ | ⟨x, m, len, lock, la, pas, hd, hc, rfl⟩⟩ := step_next_cases s t h
  all_goals obtain rfl := operandChecks_ok_lock hc
  · have hother (r : RegNo) (hr : r ≠ x) :
        ((s.writeXmmHigh x (s.readQuad pas)).advanceIp len).readXmm r = s.readXmm r :=
      State.readXmm_writeXmmHigh_other s x r _ hr
    refine ⟨fun hm r hr => hother r fun e => ?_, .inl ⟨x, m, len, hd, rfl, hother⟩⟩
    have hx := fetchDecode_load_lt_eight hm hd
    rw [← e] at hx
    omega
  · exact ⟨fun _ _ _ => rfl, .inr ⟨x, m, len, la, pas, hd, hc, operandChecks_length _ _ _ _ _ _ _ hc, rfl,
      Memory.read_writeAll_other _ _ _⟩⟩

/-! ## The frame of a run -/

/-- A run of `n + 1` steps is a step and a run of `n`. -/
theorem run_succ_next {M : Host.Core} {n : Nat} {s t : M.State} (h : M.run (n + 1) s = .next t) :
    ∃ u, M.step s = .next u ∧ M.run n u = .next t := by
  rw [Host.Core.run] at h
  split at h
  next u hu => exact ⟨u, hu, h⟩
  all_goals cases h

/-- Settles O49, by induction on the number of steps. -/
theorem runsNeverWriteControlState : Obligations.RunsNeverWriteControlState := by
  intro n
  induction n with
  | zero =>
    intro s t h
    obtain rfl := Host.Outcome.next.inj h
    exact KeepsControl.refl s
  | succ n ih =>
    intro s t h
    obtain ⟨u, hu, hrun⟩ := run_succ_next h
    exact (step_keepsControl hu).trans (ih u t hrun)

end Sys2Proof.Machine
end

