-- ==== Sys2Proof/Proofs/UnreadState.lean ====
section
/-! SUPPORT. The fields that no step reads: with other values there every operation answers the same. -/

namespace Sys2Proof.Machine

/-- The fields that MOVHPD does not read (10_state.md R20, R26), and CR4, of which it reads OSFXSR alone. -/
structure Unread where
  mxcsr : BitVec 32
  cr2 : Quad
  cr3 : Quad
  cr4 : Quad
  other : Bystanders

/-- A state with other values in those fields. -/
def State.withUnread (s : State) (u : Unread) : State :=
  { s with mxcsr := u.mxcsr, cr2 := u.cr2, cr3 := u.cr3, cr4 := u.cr4, other := u.other }

/-! ## Operations that read none of the fields -/

@[simp] theorem State.withUnread_mode (s : State) (u : Unread) : (s.withUnread u).mode = s.mode := rfl
@[simp] theorem State.withUnread_modeDefined (s : State) (u : Unread) :
    (s.withUnread u).modeDefined = s.modeDefined := rfl
@[simp] theorem State.withUnread_csD (s : State) (u : Unread) : (s.withUnread u).csD = s.csD := rfl
@[simp] theorem State.withUnread_readByte (s : State) (u : Unread) (pa : Quad) :
    (s.withUnread u).readByte pa = s.readByte pa := rfl
@[simp] theorem effectiveAddress_withUnread (s : State) (u : Unread) (f : AddrForm) (len : Nat) :
    effectiveAddress (s.withUnread u) f len = effectiveAddress s f len := rfl
@[simp] theorem linearAddress_withUnread (s : State) (u : Unread) (g : Seg) (size : AddrSize) (ea : Quad) (n : Nat)
    (kind : AccessKind) :
    linearAddress (s.withUnread u) g size ea n kind = linearAddress s g size ea n kind := rfl
@[simp] theorem linearByte_withUnread (s : State) (u : Unread) (la : Quad) (k : Nat) :
    linearByte (s.withUnread u) la k = linearByte s la k := rfl
@[simp] theorem translate_withUnread (s : State) (u : Unread) (la : Quad) (kind : AccessKind) :
    translate (s.withUnread u) la kind = translate s la kind := rfl
@[simp] theorem fetchAddress_withUnread (s : State) (u : Unread) (k : Nat) :
    fetchAddress (s.withUnread u) k = fetchAddress s k := rfl

@[simp] theorem translateFrom_withUnread (s : State) (u : Unread) (la : Quad) (kind : AccessKind) (k n : Nat) :
    translateFrom (s.withUnread u) la kind k n = translateFrom s la kind k n := by
  induction n generalizing k with
  | zero => rfl
  | succ n ih => simp only [translateFrom, translate_withUnread, linearByte_withUnread, ih]

@[simp] theorem translateAll_withUnread (s : State) (u : Unread) (la : Quad) (n : Nat) (kind : AccessKind) :
    translateAll (s.withUnread u) la n kind = translateAll s la n kind := translateFrom_withUnread s u la kind 0 n

@[simp] theorem addressChecks_withUnread (s : State) (u : Unread) (g : Seg) (size : AddrSize) (ea : Quad)
    (kind : AccessKind) : addressChecks (s.withUnread u) g size ea kind = addressChecks s g size ea kind := by
  unfold addressChecks
  rw [linearAddress_withUnread]
  cases linearAddress s g size ea Config.operandBytes kind with
  | error e => rfl
  | ok la =>
    dsimp only
    rw [translateAll_withUnread]
    rfl

@[simp] theorem fetchFrom_withUnread (s : State) (u : Unread) (k n : Nat) :
    fetchFrom (s.withUnread u) k n = fetchFrom s k n := by
  induction n generalizing k with
  | zero => rfl
  | succ n ih => simp only [fetchFrom, fetchAddress_withUnread, State.withUnread_readByte, ih]

@[simp] theorem fetchDecode_withUnread (s : State) (u : Unread) : fetchDecode (s.withUnread u) = fetchDecode s := by
  simp only [fetchDecode, fetchWindow, fetchFrom_withUnread, State.withUnread_mode, State.withUnread_csD]

@[simp] theorem fetchFault_withUnread (s : State) (u : Unread) : fetchFault (s.withUnread u) = fetchFault s := by
  simp only [fetchFault, fetchWindow, fetchFrom_withUnread]

/-! ## Operations that read CR4.OSFXSR -/

theorem commonChecks_withUnread {s : State} {u : Unread} (h : (s.withUnread u).osfxsr = s.osfxsr) (len : Nat)
    (lock : Bool) : commonChecks (s.withUnread u) len lock = commonChecks s len lock := by
  unfold commonChecks
  rw [h]
  rfl

theorem operandChecks_withUnread {s : State} {u : Unread} (h : (s.withUnread u).osfxsr = s.osfxsr) (m : MemOp)
    (len : Nat) (lock : Bool) (kind : AccessKind) :
    operandChecks (s.withUnread u) m len lock kind = operandChecks s m len lock kind := by
  simp only [operandChecks, commonChecks_withUnread h, addressChecks_withUnread, effectiveAddress_withUnread]

theorem exec_withUnread {s : State} {u : Unread} (h : (s.withUnread u).osfxsr = s.osfxsr) (i : Instr) :
    exec i (s.withUnread u) = mapNext (fun t => t.withUnread u) (exec i s) := by
  cases i with
  | movhpdLoad x m len lock =>
    simp only [exec, execMovhpdLoad, operandChecks_withUnread h]
    cases operandChecks s m len lock .read <;> rfl
  | movhpdStore x m len lock =>
    simp only [exec, execMovhpdStore, operandChecks_withUnread h]
    cases operandChecks s m len lock .write <;> rfl
  | reserved66Load _ _ len | reserved66Store _ _ len | reservedF2Load _ len | reservedF2Store _ len
  | reservedF3Store _ len | reservedPlainStore _ _ len =>
    exact (raiseReserved_eq len _).trans (congrArg (mapNext _) (raiseReserved_eq len s).symm)
  | movhpsLoad | movlhps | movhpsStore | movshdup => rfl

theorem step_withUnread {s : State} {u : Unread} (h : (s.withUnread u).osfxsr = s.osfxsr) :
    step (s.withUnread u) = mapNext (fun t => t.withUnread u) (step s) := by
  unfold step
  rw [State.withUnread_modeDefined, fetchDecode_withUnread, fetchFault_withUnread]
  split
  · cases fetchDecode s with
    | instr i => exact exec_withUnread h i
    | tooLong | incomplete | otherOpcode => rfl
  · rfl

/-- Settles O50: inverting bit 10 of CR4 leaves bit 9, OSFXSR, as it was. -/
theorem stepIgnoresMxcsrAndUntouchedState : Obligations.StepIgnoresMxcsrAndUntouchedState := by
  intro s mx c2 c3 o
  refine step_withUnread (u := ⟨mx, c2, c3, s.cr4 ^^^ 0x400#64, o⟩) ?_
  simp [State.osfxsr, State.withUnread]

end Sys2Proof.Machine
end

