-- ==== Sys2Proof/Proofs/ResetState.lean ====
section
/-! SUPPORT. The states after reset and INIT, and the #UD of a MOVHPD where CR4.OSFXSR is 0. -/

namespace Sys2Proof.Machine

/-! ## The reset table (10_state.md R27) -/

theorem readXmm_reset (r : RegNo) : State.reset.readXmm r = 0#128 := by
  simp [State.readXmm, State.reset]

/-- The spec's table leaves out RDX alone. -/
theorem readGpr_reset {r : RegNo} (h : r ≠ 2#4) : State.reset.readGpr r = 0#64 := by
  have hne : 2 ≠ r.toNat := fun e => h (BitVec.eq_of_toNat_eq e.symm)
  simp [State.readGpr, State.reset, Vector.getElem_set_ne, hne]

theorem segReg_reset {g : Seg} (h : g ≠ .cs) : State.reset.segReg g = SegReg.resetData := by
  cases g with
  | cs => exact absurd rfl h
  | es | ss | ds | fs | gs => rfl

/-- Settles O1, register by register. -/
theorem resetHoldsTheResetTable : Obligations.ResetHoldsTheResetTable := by
  refine ⟨readXmm_reset, rfl, fun _ => readGpr_reset, rfl, rfl, rfl, rfl, rfl, rfl, fun g hg => ?_, by decide⟩
  rw [segReg_reset hg]
  decide

/-- Settles O2: memory is empty, the mode is real-address mode and IP is FFF0H. -/
theorem resetSatisfiesTheInvariant : Obligations.ResetSatisfiesTheInvariant :=
  ⟨Memory.wf_reset, rfl, fun _ => by decide⟩

/-- Settles O4, field by field. -/
theorem initKeepsXmmAndMxcsr : Obligations.InitKeepsXmmAndMxcsr := by
  intro s
  have hmode : s.afterInit.mode = State.reset.mode := rfl
  exact ⟨rfl, rfl, rfl, rfl, rfl, rfl, fun g => by cases g <;> rfl, rfl, rfl, rfl, rfl, rfl, rfl, rfl, rfl, rfl,
    hmode.trans (by decide), rfl, rfl, rfl⟩

/-! ## MOVHPD where CR4.OSFXSR is 0 (60_exceptions.md R101) -/

/-- CR4.OSFXSR is among the causes of #UD, which only the length test precedes. -/
theorem commonChecks_of_osfxsr {s : State} {len : Nat} (hl : len ≤ 15) (h : s.osfxsr = false) (lock : Bool) :
    commonChecks s len lock = some .ud := by
  have hlen : ¬ Config.maxInsnBytes < len := Nat.not_lt.mpr hl
  simp [commonChecks, hlen, h]

theorem exec_movhpd_ud_of_osfxsr {s : State} {i : Instr} {x : RegNo} {m : MemOp} {len : Nat} {lock : Bool}
    {kind : AccessKind}
    (hi : i = .movhpdLoad x m len lock ∧ kind = .read ∨ i = .movhpdStore x m len lock ∧ kind = .write)
    (hl : len ≤ 15) (h : s.osfxsr = false) : exec i s = .fault (.exception .ud) :=
  (exec_movhpd_fault hi s .ud).mpr
    ((operandChecks_error s m len lock kind .ud).mpr (.inl (commonChecks_of_osfxsr hl h lock)))

theorem step_of_fetchDecode {s : State} {i : Instr} (hm : s.modeDefined = true) (h : fetchDecode s = .instr i) :
    step s = exec i s := by
  simp [step, hm, h]

theorem withFetchWord_osfxsr (s : State) (nbits w : Nat) : (s.withFetchWord nbits w).osfxsr = s.osfxsr := by
  rw [State.withFetchWord, storeFetch_frame]
  rfl

theorem withFetchWord_modeDefined (s : State) (nbits w : Nat) :
    (s.withFetchWord nbits w).modeDefined = s.modeDefined := by
  rw [State.withFetchWord, storeFetch_frame]
  rfl

/-- At the reset vector `66 0F 16 00` is read as a load into XMM0. -/
theorem fetchDecode_reset_load : fetchDecode (State.reset.withFetchWord 24 0x0F1600)
    = .instr (.movhpdLoad 0#4 ⟨.ds, ⟨.a16, some 3#4, some (6#4, 0#2), 0#64, false⟩⟩ 4 false) := by
  decide +kernel

/-- At the reset vector `66 0F 17 00` is read as a store of XMM0. -/
theorem fetchDecode_reset_store : fetchDecode (State.reset.withFetchWord 24 0x0F1700)
    = .instr (.movhpdStore 0#4 ⟨.ds, ⟨.a16, some 3#4, some (6#4, 0#2), 0#64, false⟩⟩ 4 false) := by
  decide +kernel

/-- Settles O3: after reset CR4.OSFXSR is 0, and storing the instruction changes memory alone. -/
theorem movhpdAfterResetRaisesInvalidOpcode : Obligations.MovhpdAfterResetRaisesInvalidOpcode := by
  refine ⟨fun x m len lock hl => ⟨exec_movhpd_ud_of_osfxsr (.inl ⟨rfl, rfl⟩) hl rfl,
    exec_movhpd_ud_of_osfxsr (.inr ⟨rfl, rfl⟩) hl rfl⟩, ?_, ?_⟩
  · rw [step_of_fetchDecode (withFetchWord_modeDefined ..) fetchDecode_reset_load]
    exact exec_movhpd_ud_of_osfxsr (.inl ⟨rfl, rfl⟩) (by decide) (withFetchWord_osfxsr ..)
  · rw [step_of_fetchDecode (withFetchWord_modeDefined ..) fetchDecode_reset_store]
    exact exec_movhpd_ud_of_osfxsr (.inr ⟨rfl, rfl⟩) (by decide) (withFetchWord_osfxsr ..)

end Sys2Proof.Machine
end

