-- ==== Sys2Proof/Proofs/StuckStates.lean ====
section
/-! SUPPORT. In which states a step is stuck: those outside the state invariant of 92 D32, and no others. -/

namespace Sys2Proof.Machine

/-- Executing an instruction is never stuck: it answers a next state, an exception or a refusal. -/
theorem exec_ne_noMode (i : Instr) (s : State) : exec i s ≠ .fault .noMode := by
  cases i with
  | movhpdLoad x m len lock => exact fun h => by simpa using (execMovhpdLoad_fault x m len lock s _).mp h
  | movhpdStore x m len lock => exact fun h => by simpa using (execMovhpdStore_fault x m len lock s _).mp h
  | reserved66Load _ _ len | reserved66Store _ _ len | reservedF2Load _ len | reservedF2Store _ len
  | reservedF3Store _ len | reservedPlainStore _ _ len => exact fun h => nomatch (raiseReserved_eq len s).symm.trans h
  | movhpsLoad | movlhps | movhpsStore | movshdup => exact nofun

theorem step_noMode_iff (s : State) : step s = .fault .noMode ↔ s.modeDefined = false := by
  unfold step
  split
  next hm =>
    rw [hm]
    cases fetchDecode s with
    | instr i => simpa using exec_ne_noMode i s
    | tooLong | incomplete | otherOpcode => simp [raise]
  next hm => simpa using hm

theorem modeDefined_eq_false (s : State) :
    s.modeDefined = false ↔ s.lma = true ∧ (s.vmFlag = true ∨ s.params.hasIntel64 = false) := by
  rw [State.modeDefined, Bool.not_eq_false', Bool.and_eq_true, Bool.or_eq_true, Bool.not_eq_true']

/-- Settles O7: a step is stuck where its mode is not defined, and nowhere else. -/
theorem undefinedModeIsStuck : Obligations.UndefinedModeIsStuck := by
  intro s
  rw [step_noMode_iff, modeDefined_eq_false]

end Sys2Proof.Machine
end

