-- ==== Sys2Proof/Proofs/FetchedBytes.lean ====
section
/-! SUPPORT. The bytes a step decodes: the decoder reads from the front of the window, and bytes after the instruction change nothing. -/

namespace Sys2Proof.Machine

/-! ## Reading from the front (30_encoding.md R65 to R69) -/

/-- A reader of bytes answers the same, with the bytes it left, when more bytes follow. -/
def ReadsFront {α : Type} (read : List Byte → Option (α × List Byte)) : Prop :=
  ∀ bytes a rest more, read bytes = some (a, rest) → read (bytes ++ more) = some (a, rest ++ more)

theorem readsFront_takeDisp8 : ReadsFront takeDisp8 := by
  intro bytes a rest more h
  match bytes, h with
  | _ :: _, rfl => rfl

theorem readsFront_takeDisp16 : ReadsFront takeDisp16 := by
  intro bytes a rest more h
  match bytes, h with
  | _ :: _ :: _, rfl => rfl

theorem readsFront_takeDisp32 : ReadsFront takeDisp32 := by
  intro bytes a rest more h
  match bytes, h with
  | _ :: _ :: _ :: _ :: _, rfl => rfl

theorem readsFront_dispByMod {wide : List Byte → Option (Quad × List Byte)} (hw : ReadsFront wide) (mod : BitVec 2) :
    ReadsFront (dispByMod wide mod) := by
  intro bytes a rest more h
  unfold dispByMod at h ⊢
  split_ifs at h ⊢
  · cases h; rfl
  · exact readsFront_takeDisp8 _ _ _ more h
  · exact hw _ _ _ more h

/-- What is made of what was read leaves the same bytes. -/
theorem ReadsFront.map {α β : Type} {read : List Byte → Option (α × List Byte)} (h : ReadsFront read)
    {f : α × List Byte → β × List Byte}
    (hf : ∀ a rest more, f (a, rest ++ more) = ((f (a, rest)).1, (f (a, rest)).2 ++ more)) :
    ReadsFront fun bytes => (read bytes).map f := by
  intro bytes b rest more hb
  obtain ⟨⟨a, left⟩, hread, heq⟩ := Option.map_eq_some_iff.mp hb
  simp only [h bytes a left more hread, Option.map_some, hf, heq]

theorem readsFront_form16 (mod : BitVec 2) (rm : BitVec 3) : ReadsFront (form16 mod rm) := by
  unfold form16
  by_cases hdisp : mod = 0#2 ∧ rm = 6#3
  · simp only [if_pos hdisp]
    exact readsFront_takeDisp16.map fun _ _ _ => rfl
  · simp only [if_neg hdisp]
    exact (readsFront_dispByMod readsFront_takeDisp16 mod).map fun _ _ _ => rfl

theorem readsFront_formSib (size : AddrSize) (p : Prefixes) (mod : BitVec 2) : ReadsFront (formSib size p mod) := by
  intro bytes a rest more h
  cases bytes with
  | nil => cases h
  | cons sib tail =>
    have hsib : ReadsFront fun tail => formSib size p mod (sib :: tail) := by
      unfold formSib
      by_cases hdisp : mod = 0#2 ∧ lowField sib = 5#3
      · simp only [if_pos hdisp]
        exact readsFront_takeDisp32.map fun _ _ _ => rfl
      · simp only [if_neg hdisp]
        exact (readsFront_dispByMod readsFront_takeDisp32 mod).map fun _ _ _ => rfl
    exact hsib tail a rest more h

theorem readsFront_form32 (size : AddrSize) (long : Bool) (p : Prefixes) (mod : BitVec 2) (rm : BitVec 3) :
    ReadsFront (form32 size long p mod rm) := by
  unfold form32
  by_cases hsib : rm = 4#3
  · simp only [if_pos hsib]
    exact readsFront_formSib size p mod
  simp only [if_neg hsib]
  by_cases hdisp : mod = 0#2 ∧ rm = 5#3
  · simp only [if_pos hdisp]
    exact readsFront_takeDisp32.map fun _ _ _ => rfl
  · simp only [if_neg hdisp]
    exact (readsFront_dispByMod readsFront_takeDisp32 mod).map fun _ _ _ => rfl

theorem readsFront_decodeForm (mode : Mode) (csD : Bool) (p : Prefixes) (mod : BitVec 2) (rm : BitVec 3) :
    ReadsFront (decodeForm mode csD p mod rm) := by
  unfold decodeForm
  cases p.size mode csD with
  | a16 => exact readsFront_form16 mod rm
  | a32 | a64 => exact readsFront_form32 _ _ p mod rm

/-! ## The decoder (30_encoding.md R72, R77) -/

/-- The scan ends where it ended, whatever bytes follow. -/
theorem scanPrefixes_append {long : Bool} {p q : Prefixes} {bytes rest : List Byte} {b : Byte}
    (h : scanPrefixes long p bytes = (q, b :: rest)) (more : List Byte) :
    scanPrefixes long p (bytes ++ more) = (q, b :: rest ++ more) := by
  induction bytes generalizing p with
  | nil => cases h
  | cons c bytes ih =>
    rw [List.cons_append]
    unfold scanPrefixes at h ⊢
    cases hadd : p.add long c with
    | some q' =>
      rw [hadd] at h
      exact ih h
    | none =>
      rw [hadd] at h
      cases h
      rfl

theorem decodeMem_append {mode : Mode} {csD : Bool} {w : List Byte} {p : Prefixes} {modrm : Byte} {tail : List Byte}
    {mk : MemOp → Nat → Instr} {i : Instr} (h : decodeMem mode csD w p modrm tail mk = .instr i) (more : List Byte) :
    decodeMem mode csD (w ++ more) p modrm (tail ++ more) mk = .instr i := by
  unfold decodeMem at h ⊢
  cases hf : decodeForm mode csD p (topField modrm) (lowField modrm) tail with
  | none =>
    rw [hf] at h
    exact absurd h (outOfBytes_ne_instr w i)
  | some r =>
    rw [hf] at h
    rw [readsFront_decodeForm mode csD p _ _ tail r.1 r.2 more hf]
    simpa only [List.length_append, Nat.add_sub_add_right] using h

theorem decode16_append {mode : Mode} {csD : Bool} {w : List Byte} {p : Prefixes} {modrm : Byte} {tail : List Byte}
    {i : Instr} (h : decode16 mode csD w p modrm tail = .instr i) (more : List Byte) :
    decode16 mode csD (w ++ more) p modrm (tail ++ more) = .instr i := by
  unfold decode16 at h ⊢
  rw [List.length_append, List.length_append, Nat.add_sub_add_right]
  cases hc : p.column with
  | p66 | plain | pF3 =>
    simp only [hc] at h ⊢
    split at h
    next htop => simpa only [if_pos htop] using h
    next htop => simpa only [if_neg htop] using decodeMem_append h more
  | pF2 => simpa only [hc] using h

theorem decode17_append {mode : Mode} {csD : Bool} {w : List Byte} {p : Prefixes} {modrm : Byte} {tail : List Byte}
    {i : Instr} (h : decode17 mode csD w p modrm tail = .instr i) (more : List Byte) :
    decode17 mode csD (w ++ more) p modrm (tail ++ more) = .instr i := by
  unfold decode17 at h ⊢
  rw [List.length_append, List.length_append, Nat.add_sub_add_right]
  cases hc : p.column with
  | p66 | plain =>
    simp only [hc] at h ⊢
    split at h
    next htop => simpa only [if_pos htop] using h
    next htop => simpa only [if_neg htop] using decodeMem_append h more
  | pF3 | pF2 => simpa only [hc] using h

/-- The bytes after the prefixes are an opcode of the map, ModR/M and what that calls for. -/
theorem decodeOpcode_instr {mode : Mode} {csD : Bool} {w : List Byte} {p : Prefixes} {bytes : List Byte} {i : Instr}
    (h : decodeOpcode mode csD w p bytes = .instr i) :
    ∃ modrm tail,
      bytes = 0x0F#8 :: 0x16#8 :: modrm :: tail ∧ decode16 mode csD w p modrm tail = .instr i
        ∨ bytes = 0x0F#8 :: 0x17#8 :: modrm :: tail ∧ decode17 mode csD w p modrm tail = .instr i := by
  unfold decodeOpcode at h
  split at h
  · exact absurd h (outOfBytes_ne_instr w i)
  split at h
  swap; · cases h
  next b rest hb =>
  subst hb
  split at h
  · exact absurd h (outOfBytes_ne_instr w i)
  next op rest =>
  split at h
  next hop =>
    subst hop
    split at h
    · exact absurd h (outOfBytes_ne_instr w i)
    · exact ⟨_, _, .inl ⟨rfl, h⟩⟩
  split at h
  next hop =>
    subst hop
    split at h
    · exact absurd h (outOfBytes_ne_instr w i)
    · exact ⟨_, _, .inr ⟨rfl, h⟩⟩
  next => cases h

theorem decodeOpcode_append {mode : Mode} {csD : Bool} {w : List Byte} {p : Prefixes} {bytes : List Byte} {i : Instr}
    (h : decodeOpcode mode csD w p bytes = .instr i) (more : List Byte) :
    decodeOpcode mode csD (w ++ more) p (bytes ++ more) = .instr i := by
  obtain ⟨modrm, tail, ⟨rfl, hd⟩ | ⟨rfl, hd⟩⟩ := decodeOpcode_instr h
  · exact decode16_append hd more
  · exact decode17_append hd more

/-- An instruction decodes the same whatever bytes follow it. -/
theorem decode_append {mode : Mode} {csD : Bool} {bytes : List Byte} {i : Instr}
    (h : decode mode csD bytes = .instr i) (more : List Byte) : decode mode csD (bytes ++ more) = .instr i := by
  unfold decode at h ⊢
  dsimp only at h ⊢
  rw [List.take_append]
  obtain ⟨modrm, tail, ⟨hbytes, -⟩ | ⟨hbytes, -⟩⟩ := decodeOpcode_instr h
  all_goals
    have hscan := scanPrefixes_append (Prod.ext rfl hbytes) (more.take (Config.maxInsnBytes - bytes.length))
    rw [hscan, ← hbytes]
    exact decodeOpcode_append h _

/-! ## The window (20_memory.md R47) -/

/-- Bytes that stand at their fetch addresses begin what is fetched. -/
theorem fetchFrom_of_bytes {s : State} {bytes : List Byte} {k n : Nat} (hn : bytes.length ≤ n)
    (h : ∀ j, (hj : j < bytes.length) → ∃ pa, fetchAddress s (k + j) = .ok pa ∧ s.readByte pa = bytes[j]) :
    ∃ more, (fetchFrom s k n).1 = bytes ++ more := by
  induction bytes generalizing k n with
  | nil => exact ⟨_, rfl⟩
  | cons b bytes ih =>
    cases n with
    | zero => cases hn
    | succ n =>
      obtain ⟨pa, hpa, hb⟩ := h 0 (Nat.succ_pos _)
      obtain ⟨more, hmore⟩ := ih (k := k + 1) (Nat.le_of_succ_le_succ hn) fun j hj => by
        simpa [Nat.add_assoc, Nat.add_comm 1 j] using h (j + 1) (Nat.succ_lt_succ hj)
      refine ⟨more, ?_⟩
      rw [Nat.add_zero] at hpa
      simp only [fetchFrom, hpa, hmore, hb, List.getElem_cons_zero, List.cons_append]

/-- The decoder looks at no more than fifteen bytes. -/
theorem decode_take (mode : Mode) (csD : Bool) (bytes : List Byte) :
    decode mode csD (bytes.take Config.maxInsnBytes) = decode mode csD bytes := by
  simp only [decode, List.take_take, Nat.min_self]

/-- Settles O6: the window begins with the instruction's bytes, and what follows them changes nothing. -/
theorem stepNeedsOnlyTheInstructionsBytes : Obligations.StepNeedsOnlyTheInstructionsBytes := by
  intro s i bytes hm hd _ hbytes
  refine step_of_fetchDecode hm ?_
  obtain ⟨more, hmore⟩ := fetchFrom_of_bytes (s := s) (bytes := bytes.take Config.maxInsnBytes) (k := 0)
    (List.length_take_le _ _) fun j hj => by
      simpa using hbytes j (hj.trans_le (List.length_take_le' _ _))
  rw [fetchDecode, fetchWindow, hmore]
  exact decode_append ((decode_take s.mode s.csD bytes).trans hd) more

/-- Settles O5, by the four answers of the decoder on the window. -/
theorem stepRunsTheDecodedInstruction : Obligations.StepRunsTheDecodedInstruction := by
  intro s hm
  refine ⟨fun i hd => step_of_fetchDecode hm hd, fun hd => ?_, fun hd => ?_, fun hd => ?_⟩
  · simp only [step, hm, if_true, show fetchDecode s = .tooLong from hd, raise]
  · simp only [step, hm, if_true, show fetchDecode s = .otherOpcode from hd]
  · have hfetch : fetchDecode s = .incomplete := hd
    refine ⟨fetchFault s, fetchFault_of_incomplete s hfetch, ?_⟩
    simp only [step, hm, if_true, hfetch, raise]

end Sys2Proof.Machine
end

