-- ==== Sys2Proof/Proofs/OperandBytes.lean ====
section
/-! SUPPORT. The bytes of an operand: what a completed load and store leave in the registers and in memory, and what MemRead gives of what MemWrite wrote. -/

namespace Sys2Proof.Machine

/-! ## The two forms with a ready operand (40_movhpd.md R90, R91) -/

theorem State.advanceIp_ip_toNat (s : State) (len : Nat) :
    (s.advanceIp len).ip.toNat = (s.ip.toNat + len) % 2 ^ ipBits s := by
  have hdvd : 2 ^ ipBits s ∣ 2 ^ 64 := Nat.pow_dvd_pow 2 (by unfold ipBits; split_ifs <;> decide)
  rw [State.advanceIp_ip, State.truncIp_toNat, BitVec.toNat_add, BitVec.toNat_ofNat, Nat.add_mod_mod,
    Nat.mod_mod_of_dvd _ hdvd]

/-- Byte `k` of the high quadword is bits `64 + 8 * k` and up of the register. -/
theorem highQuad_byte (x : DQuad) {k : Nat} (hk : k < 8) :
    (highQuad x).extractLsb' (8 * k) 8 = x.extractLsb' (64 + 8 * k) 8 := by
  apply BitVec.eq_of_getLsbD_eq
  intro j hj
  have hin : 8 * k + j < 64 := by omega
  simp [highQuad, BitVec.getLsbD_extractLsb', hin, Nat.add_assoc]

theorem execMovhpdLoad_of_ready {s : State} {m : MemOp} {len : Nat} {pa : Nat → Quad}
    (h : OperandReady s m len .read pa) (x : RegNo) :
    exec (.movhpdLoad x m len false) s
      = .next ((s.writeXmmHigh x (s.readQuad ((List.range 8).map pa))).advanceIp len) :=
  (execMovhpdLoad_next x m len false s _).mpr ⟨_, _, operandChecks_of_ready s m len .read pa h, rfl⟩

theorem execMovhpdStore_of_ready {s : State} {m : MemOp} {len : Nat} {pa : Nat → Quad}
    (h : OperandReady s m len .write pa) (x : RegNo) :
    exec (.movhpdStore x m len false) s
      = .next ((s.writeQuad ((List.range 8).map pa) (highQuad (s.readXmm x))).advanceIp len) :=
  (execMovhpdStore_next x m len false s _).mpr ⟨_, _, operandChecks_of_ready s m len .write pa h, rfl⟩

/-- Byte `k` of a loaded register is the byte at the `k`-th address. -/
theorem readXmm_load_byte (s : State) (x : RegNo) (pa : Nat → Quad) {k : Nat} (hk : k < 8) :
    ((s.writeXmmHigh x (s.readQuad ((List.range 8).map pa))).readXmm x).extractLsb' (64 + 8 * k) 8
      = s.readByte (pa k) := by
  rw [← highQuad_byte _ hk, State.readXmm_writeXmmHigh_self, highQuad_append,
    State.readQuad_byte s _ k (by simp) (by simpa using hk)]
  simp

/-- Settles O28: the load writes the high quadword of one register, then IP. -/
theorem loadWritesOnlyTheHighQuadword : Obligations.LoadWritesOnlyTheHighQuadword := by
  intro s x m len pa h
  refine ⟨_, execMovhpdLoad_of_ready h x, fun k hk => readXmm_load_byte s x pa hk, ?_,
    fun r hr => State.readXmm_writeXmmHigh_other s x r _ hr, State.advanceIp_ip_toNat _ len, fun _ => rfl, rfl⟩
  exact lowQuad_writeXmmHigh s x _ x

/-- `Memory.read_writeAll_at` for addresses that a function numbers. -/
theorem Memory.read_writeAll_map {m : List Host.Cell} (hwf : Memory.wf m = true) (f : Nat → Quad) {vs : List Byte}
    {n k : Nat} (hk : k < n) (hv : k < vs.length) (hlast : ∀ j, k < j → j < n → f j ≠ f k) :
    Memory.read (Memory.writeAll m ((List.range n).map f) vs) (f k).toNat = vs[k] := by
  have hat := Memory.read_writeAll_at m ((List.range n).map f) vs k (by simpa using hk) hv hwf
    fun j hj hkj => by simpa using hlast j hkj (by simpa using hj)
  simpa using hat

/-- After a store, an address that no later byte has holds its byte of the quadword. -/
theorem readByte_writeQuad {s : State} (hwf : Memory.wf s.mem = true) (pa : Nat → Quad) (v : Quad) {k : Nat} (hk : k < 8)
    (hlast : ∀ j, k < j → j < 8 → pa j ≠ pa k) :
    (s.writeQuad ((List.range 8).map pa) v).readByte (pa k) = v.extractLsb' (8 * k) 8 := by
  have hv : k < (leBytes Config.operandBytes v.toNat).length := by rwa [leBytes_length]
  exact (Memory.read_writeAll_map hwf pa hk hv hlast).trans (leBytes_quad v k hv)

/-- Settles O29: the store writes memory at the addresses of the operand, then IP. -/
theorem storeWritesOnlyTheEightBytes : Obligations.StoreWritesOnlyTheEightBytes := by
  intro s x m len pa h
  refine ⟨_, execMovhpdStore_of_ready h x, fun hwf k hk hlast => ?_, fun a ha => ?_, fun _ => rfl,
    State.advanceIp_ip_toNat _ len, rfl⟩
  · rw [State.advanceIp_readByte, readByte_writeQuad hwf pa _ hk hlast, highQuad_byte _ hk]
  · exact Memory.read_writeAll_other _ _ _ a (by simpa using ha)

/-- Settles O52: a fetched byte is the byte at its fetch address in the memory of that moment (92 D19). -/
theorem nextFetchSeesTheStore : Obligations.NextFetchSeesTheStore := by
  intro s t x m len pa j k b hwf hready hexec hk hlast haddr hb
  obtain ⟨q, hq, rfl⟩ := fetchFrom_getElem? t 0 Config.maxInsnBytes j b hb
  rw [Nat.zero_add, haddr] at hq
  obtain rfl := Except.ok.inj hq
  rw [execMovhpdStore_of_ready hready x] at hexec
  obtain rfl := Host.Outcome.next.inj hexec
  rw [State.advanceIp_readByte, readByte_writeQuad hwf pa _ hk hlast, highQuad_byte _ hk]

/-! ## MemRead after MemWrite (20_memory.md R32) -/

theorem linearByte_toNat (s : State) (la : Quad) (k : Nat) :
    (linearByte s la k).toNat = (la.toNat + k) % 2 ^ (if s.mode = .long64 then 64 else 32) := by
  rw [linearByte_eq, byteLinear, BitVec.toNat_ofNat]
  apply Nat.mod_eq_of_lt
  refine (Nat.mod_lt _ (Nat.two_pow_pos _)).trans_le (Nat.pow_le_pow_right (by decide) ?_)
  split <;> omega

/-- Byte `k` of an access that begins at byte `j` of another is byte `j + k` of that other. -/
theorem linearByte_linearByte (s : State) (la : Quad) (j k : Nat) :
    linearByte s (linearByte s la j) k = linearByte s la (j + k) := by
  apply BitVec.eq_of_toNat_eq
  rw [linearByte_toNat, linearByte_toNat, linearByte_toNat, Nat.mod_add_mod, Nat.add_assoc]

/-- The bytes of an operand have eight linear addresses, wrapping or not. -/
theorem linearByte_inj (s : State) (la : Quad) {j k : Nat} (hj : j < 8) (hk : k < 8)
    (h : linearByte s la j = linearByte s la k) : j = k := by
  have h := congrArg BitVec.toNat h
  rw [linearByte_toNat, linearByte_toNat] at h
  split at h <;> omega

/-- With paging off the physical addresses of an access are its linear addresses. -/
theorem translateAll_off {s : State} (h : s.paging = none) (la : Quad) (n : Nat) (kind : AccessKind) :
    translateAll s la n kind = .ok ((List.range n).map (linearByte s la)) := by
  rw [translateAll_ok]
  exact ⟨by simp, fun j hj => by simp [translate_off s _ kind h]⟩

/-- A slice of whole bytes is the number that its bytes make. -/
theorem extractLsb'_eq_leNat {w : Nat} (v : BitVec w) (j n : Nat) :
    v.extractLsb' (8 * j) (8 * n) = BitVec.ofNat (8 * n) (leNat (leBytes n (v.toNat / 256 ^ j))) := by
  apply BitVec.eq_of_toNat_eq
  have h256 (e : Nat) : 256 ^ e = 2 ^ (8 * e) := by rw [Nat.pow_mul]
  rw [BitVec.extractLsb'_toNat, BitVec.toNat_ofNat, leNat_leBytes, Nat.shiftRight_eq_div_pow, h256, h256, Nat.mod_mod]

/-- With paging off, byte `j` of a written quadword stands at its linear address. -/
theorem readByte_memWrite {s t : State} {la : Quad} {v : BitVec (8 * 8)} (hwf : Memory.wf s.mem = true)
    (hoff : s.paging = none) (hw : memWrite s la 8 v = .ok t) {j : Nat} (hj : j < 8) :
    t.readByte (linearByte s la j) = BitVec.ofNat 8 (v.toNat / 256 ^ j) := by
  obtain ⟨pas, hpas, rfl⟩ := (memWrite_ok s t la 8 v).mp hw
  obtain rfl := Except.ok.inj ((translateAll_off hoff la 8 .write).symm.trans hpas)
  have hv : j < (leBytes 8 v.toNat).length := by rwa [leBytes_length]
  exact (Memory.read_writeAll_map hwf _ hj hv fun i hji hi h => hji.ne' (linearByte_inj s la hi hj h)).trans
    (leBytes_getElem 8 v.toNat j hv)

/-- `MemWrite` leaves the linear addresses of bytes and the paging as they are. -/
theorem memWrite_frame {s t : State} {la : Quad} {n : Nat} {v : BitVec (8 * n)} (hw : memWrite s la n v = .ok t) :
    t.paging = s.paging ∧ linearByte t = linearByte s := by
  obtain ⟨pas, -, rfl⟩ := (memWrite_ok s t la n v).mp hw
  exact ⟨rfl, rfl⟩

/-- With paging off, `MemRead` of `n` bytes at byte `j` of a written quadword gives those bytes of it. -/
theorem memRead_of_memWrite {s t : State} {la a : Quad} {v : BitVec (8 * 8)} (hwf : Memory.wf s.mem = true)
    (hoff : s.paging = none) (hw : memWrite s la 8 v = .ok t) {j n : Nat} (hjn : j + n ≤ 8)
    (ha : ∀ k, linearByte s a k = linearByte s la (j + k)) :
    memRead t a n = .ok (v.extractLsb' (8 * j) (8 * n)) := by
  obtain ⟨hpaging, hlin⟩ := memWrite_frame hw
  refine (memRead_ok t a n _).mpr ⟨_, translateAll_off (hpaging.trans hoff) a n .read, ?_⟩
  rw [extractLsb'_eq_leNat]
  congr 2
  refine List.ext_getElem (by simp [State.readBytes]) fun k _ hk => ?_
  have hkn : k < n := by simpa [State.readBytes] using hk
  simp only [State.readBytes, List.getElem_map, List.getElem_range, hlin, ha]
  rw [readByte_memWrite hwf hoff hw (by omega), leBytes_getElem, Nat.div_div_eq_div_mul, Nat.pow_add]

/-- Settles O33: three slices of the quadword, at bytes 4, 0 and 0. -/
theorem mixedWidthReadsAfterWrite : Obligations.MixedWidthReadsAfterWrite := by
  intro s t la v hwf hoff hw
  have hzero (k : Nat) : linearByte s la k = linearByte s la (0 + k) := by rw [Nat.zero_add]
  refine ⟨memRead_of_memWrite hwf hoff hw (by decide) (linearByte_linearByte s la 4),
    memRead_of_memWrite hwf hoff hw (by decide) hzero, ?_⟩
  have hall := memRead_of_memWrite hwf hoff hw (n := 8) (by decide) hzero
  rwa [Nat.mul_zero, BitVec.extractLsb'_eq_self] at hall

end Sys2Proof.Machine
end

