-- ==== Sys2Proof/Proofs/AddressFaults.lean ====
section
/-! SUPPORT. The faults of the address checks of one MOVHPD with no earlier cause: segmentation, the first byte that does not translate, and alignment. -/

namespace Sys2Proof.Machine

/-! ## Segmentation (20_memory.md R35, R49) -/

/-- Settles O40: an operand past FFFFH is outside the offsets of the default `seg_check`, whatever its limit is. -/
theorem operandPastTheOffsetSpaceFaults : Obligations.OperandPastTheOffsetSpaceFaults := by
  intro s x m len i kind hl hs hi hr hmode hpast
  have hm : s.mode ≠ .long64 := by
    rcases hmode with h | h | ⟨h | h, -⟩ <;> simp [h]
  have hdescr : ¬ ((s.mode = .prot ∨ s.mode = .compat) ∧ ¬ DescriptorAllows (s.segReg m.seg) kind) := by
    rcases hmode with h | h | ⟨-, -, hallows⟩
    · simp [h]
    · simp [h]
    · exact fun h => h.2 hallows
  have hspace : s.mode = .real ∨ s.mode = .v86 ∨ m.form.size = .a16 := by
    rcases hmode with h | h | ⟨-, h, -⟩
    · exact .inl h
    · exact .inr (.inl h)
    · exact .inr (.inr h)
  have hoff : ¬ WithinOffsets s m.form.size (effectiveAddress s m.form len).toNat := by
    rw [WithinOffsets, if_pos hspace]
    omega
  refine exec_movhpd_of_linearAddress_error hi hl hs ?_
  rw [linearAddress_legacy s _ _ _ _ _ hm, segCheck_error]
  exact .inr (.inr ⟨hr, (segCheckDefault_operand_error _ _ _ _ _ hm).mpr
    (.inr ⟨hdescr, fun h => hoff h.1, rfl⟩)⟩)

/-- In 64-bit mode segmentation faults an operand that is not canonical (20_memory.md R35). -/
theorem linearAddress_not_canonical {s : State} {g : Seg} {ea : Quad} {kind : AccessKind} (hm : s.mode = .long64)
    (h : ¬ CanonicalOperand s (operandLinear s g ea kind)) (size : AddrSize) :
    linearAddress s g size ea Config.operandBytes kind = .error (segFault g) := by
  rw [operandLinear_long s g ea kind hm, ← canonicalRange_iff, Bool.not_eq_true] at h
  rw [linearAddress_long s g size ea _ kind hm, segCheck64_error]
  exact ⟨h, rfl⟩

/-- A ready operand lets both forms complete (70_reset_and_hazards.md R132). -/
theorem exec_movhpd_of_ready {i : Instr} {x : RegNo} {m : MemOp} {len : Nat} {kind : AccessKind}
    (hi : i = .movhpdLoad x m len false ∧ kind = .read ∨ i = .movhpdStore x m len false ∧ kind = .write)
    {s : State} {pa : Nat → Quad} (h : OperandReady s m len kind pa) : ∃ t, exec i s = .next t := by
  rcases hi with ⟨rfl, rfl⟩ | ⟨rfl, rfl⟩
  · exact ⟨_, execMovhpdLoad_of_ready h x⟩
  · exact ⟨_, execMovhpdStore_of_ready h x⟩

/-- Settles O41: the one test of 64-bit segmentation is that of canonical form. -/
theorem nonCanonicalOperandIn64BitMode : Obligations.NonCanonicalOperandIn64BitMode := by
  intro s x m len i kind hm hl hs hi
  refine ⟨fun hcan => exec_movhpd_of_linearAddress_error hi hl hs (linearAddress_not_canonical hm hcan _),
    fun hcan hoff hac => ?_⟩
  have hseg : SegmentAllows s m.seg m.form.size (effectiveAddress s m.form len) kind := by
    rwa [SegmentAllows, if_pos hm]
  exact exec_movhpd_of_ready hi ⟨hl, hs, hseg, fun h => absurd h hac, fun k _ => translate_off s _ kind hoff⟩

/-! ## Paging and alignment (20_memory.md R36, R37) -/

/-- With no earlier cause the exception is that of steps 4 to 6 of 40_movhpd.md R92. -/
theorem exec_movhpd_fault_of_sseReady {i : Instr} {x : RegNo} {m : MemOp} {len : Nat} {kind : AccessKind}
    (hi : i = .movhpdLoad x m len false ∧ kind = .read ∨ i = .movhpdStore x m len false ∧ kind = .write)
    {s : State} (hl : len ≤ 15) (hs : SseReady s) (e : Exc) :
    exec i s = .fault (.exception e) ↔
      addressChecks s m.seg m.form.size (effectiveAddress s m.form len) kind = .error e := by
  rw [exec_movhpd_fault hi, operandChecks_error, commonChecks_of_sseReady hl hs]
  simp

theorem State.misaligned_operand (s : State) (la : Quad) :
    s.misaligned la = true ↔ AlignmentChecked s ∧ la.toNat % 8 ≠ 0 := by
  have hlow : la.extractLsb' 0 3 ≠ 0#3 ↔ la.toNat % 8 ≠ 0 := by
    rw [Ne, ← BitVec.toNat_inj]
    simp
  rw [State.misaligned_iff, hlow]
  simp only [State.alignmentCheck, AlignmentChecked, Bool.and_eq_true, beq_iff_eq, bne_iff_ne, and_assoc]

theorem addressChecks_of_translateAll_error {s : State} {g : Seg} {size : AddrSize} {ea la : Quad} {kind : AccessKind}
    {e : Exc} (hlin : linearAddress s g size ea Config.operandBytes kind = .ok la)
    (hac : ¬ (s.params.acBeforePf = true ∧ s.misaligned la = true))
    (h : translateAll s la Config.operandBytes kind = .error e) : addressChecks s g size ea kind = .error e := by
  simp [addressChecks, hlin, hac, h]

/-- The bytes before byte `k` translate and byte `k` does not: the page fault is that of byte `k`
(60_exceptions.md R108). -/
theorem translateAll_first_failing {s : State} {la : Quad} {kind : AccessKind} {k n : Nat} {code : BitVec 32}
    {pa : Nat → Quad} (hk : k < n) (hfail : translate s (byteLinear s la k) kind = .pageFault code)
    (hbefore : ∀ j, j < k → translate s (byteLinear s la j) kind = .mapped (pa j)) :
    translateAll s la n kind = .error (.pf code (byteLinear s la k)) := by
  rw [translateAll_error]
  simp only [linearByte_eq]
  exact ⟨k, code, hk, hfail, rfl, fun j hj => ⟨pa j, hbefore j hj⟩⟩

/-- Settles O42: translation runs through the bytes in order and stops at the first that fails. -/
theorem pageFaultOfTheFirstFailingByte : Obligations.PageFaultOfTheFirstFailingByte := by
  intro s x m len i kind k code pa deliver hl hs hi hseg hac hk hfail hbefore
  have hno : ¬ (s.params.acBeforePf = true
      ∧ s.misaligned (operandLinear s m.seg (effectiveAddress s m.form len) kind) = true) := by
    rintro ⟨hfirst, hmis⟩
    obtain ⟨hchecked, hodd⟩ := (s.misaligned_operand _).mp hmis
    exact hac ⟨hchecked, hodd, hfirst⟩
  have hexec := (exec_movhpd_fault_of_sseReady hi hl hs _).mpr (addressChecks_of_translateAll_error
    ((linearAddress_ok ..).mpr ⟨hseg, rfl⟩) hno (translateAll_first_failing hk hfail hbefore))
  exact ⟨hexec, by rw [hexec]; rfl⟩

/-- With segmentation and paging passed, the address checks fail exactly for a misaligned operand. -/
theorem addressChecks_ac_iff {s : State} {g : Seg} {size : AddrSize} {ea la : Quad} {kind : AccessKind}
    {pas : List Quad} (hlin : linearAddress s g size ea Config.operandBytes kind = .ok la)
    (ht : translateAll s la Config.operandBytes kind = .ok pas) :
    addressChecks s g size ea kind = .error (.ac 0#32) ↔ s.misaligned la = true := by
  cases hmis : s.misaligned la <;> simp [addressChecks, hlin, ht, hmis]

theorem translateAll_of_mapped {s : State} {la : Quad} {kind : AccessKind} {n : Nat} {pa : Nat → Quad}
    (h : ∀ k, k < n → translate s (byteLinear s la k) kind = .mapped (pa k)) :
    translateAll s la n kind = .ok ((List.range n).map pa) := by
  rw [translateAll_ok]
  simp only [linearByte_eq]
  exact ⟨by simp, fun j hj => by simpa using h j (by simpa using hj)⟩

/-- Settles O43: past segmentation and paging only the alignment test is left. -/
theorem alignmentCheckExactlyWhen : Obligations.AlignmentCheckExactlyWhen := by
  intro s x m len i kind pa hl hs hi hseg ht
  rw [exec_movhpd_fault_of_sseReady hi hl hs,
    addressChecks_ac_iff ((linearAddress_ok ..).mpr ⟨hseg, rfl⟩) (translateAll_of_mapped ht),
    State.misaligned_operand]
  simp only [AlignmentChecked, and_assoc]

end Sys2Proof.Machine
end

