-- ==== Sys2Proof/Proofs/Mappings.lean ====
section
/-! SUPPORT. A table of `translate` as mappings: one mapping for each byte, kind of access and privilege level. -/

namespace Sys2Proof.Machine

/-- What `translate` is asked: a linear address, a kind of access and a privilege level (20_memory.md R36). -/
abbrev ByteAccess := Quad × AccessKind × BitVec 2

/-- The mapping that answers for one byte access alone, as `f` does. -/
def exactMapping (f : Quad → AccessKind → BitVec 2 → Translated) : ByteAccess → Mapping
  | (la, kind, cpl) => ⟨la.toNat, la.toNat, some kind, some cpl, f la kind cpl⟩

theorem Mapping.covers_iff (m : Mapping) (la : Quad) (kind : AccessKind) (cpl : BitVec 2) :
    m.covers la kind cpl = true ↔
      (m.first ≤ la.toNat ∧ la.toNat ≤ m.last) ∧ (m.kind = none ∨ m.kind = some kind)
        ∧ (m.cpl = none ∨ m.cpl = some cpl) := by
  simp only [Mapping.covers, Bool.and_eq_true, Bool.or_eq_true, beq_iff_eq, decide_eq_true_eq, and_assoc]

theorem exactMapping_covers (f : Quad → AccessKind → BitVec 2 → Translated) (a : ByteAccess) (la : Quad)
    (kind : AccessKind) (cpl : BitVec 2) : (exactMapping f a).covers la kind cpl = true ↔ a = (la, kind, cpl) := by
  obtain ⟨la', kind', cpl'⟩ := a
  have hla : la'.toNat ≤ la.toNat ∧ la.toNat ≤ la'.toNat ↔ la' = la := by
    rw [← BitVec.toNat_inj, Nat.le_antisymm_iff]
  simp [Mapping.covers_iff, exactMapping, hla]

/-- The offset from the first address of the mapping is 0. -/
theorem exactMapping_answer (f : Quad → AccessKind → BitVec 2 → Translated) (la : Quad) (kind : AccessKind)
    (cpl : BitVec 2) : (exactMapping f (la, kind, cpl)).answer la = f la kind cpl := by
  cases h : f la kind cpl <;> simp [exactMapping, Mapping.answer, h]

/-- In a list of such mappings the first that covers a listed access is its own. -/
theorem lookupMapping_exactMappings (f : Quad → AccessKind → BitVec 2 → Translated) (as : List ByteAccess) (la : Quad)
    (kind : AccessKind) (cpl : BitVec 2) (h : (la, kind, cpl) ∈ as) :
    lookupMapping (as.map (exactMapping f)) la kind cpl = f la kind cpl := by
  induction as with
  | nil => cases h
  | cons a rest ih =>
    rw [List.map_cons, lookupMapping]
    by_cases ha : a = (la, kind, cpl)
    · rw [if_pos ((exactMapping_covers f a la kind cpl).mpr ha), ha, exactMapping_answer]
    · rw [if_neg (mt (exactMapping_covers f a la kind cpl).mp ha)]
      exact ih ((List.mem_cons.mp h).resolve_left (Ne.symm ha))

/-- Settles O53: linear addresses, kinds and privilege levels are finitely many, one mapping for each. -/
theorem everyTranslateIsAListOfMappings : Obligations.EveryTranslateIsAListOfMappings := by
  intro f
  obtain ⟨addresses, hall⟩ := exists_list_of_all_quads
  refine ⟨(addresses ×ˢ [AccessKind.read, .write, .fetch] ×ˢ [0#2, 1#2, 2#2, 3#2]).map (exactMapping f),
    fun la kind cpl => lookupMapping_exactMappings f _ la kind cpl ?_⟩
  have hkind : kind ∈ [AccessKind.read, .write, .fetch] := by cases kind <;> decide
  have hcpl : cpl ∈ [0#2, 1#2, 2#2, 3#2] := by revert cpl; decide
  simp only [List.mem_product, hall la, hkind, hcpl, and_self]

end Sys2Proof.Machine
end

