-- ==== Sys2Proof/Proofs/PrefixRuns.lean ====
section
/-! SUPPORT. A run of prefixes: what the scan collects from it, in the terms of Safety, and which runs say the same. -/

namespace Sys2Proof.Machine

/-! ## What a run of prefixes says (30_encoding.md R52 to R59) -/

/-- The REX bits of the byte directly before the opcode, where it is a REX byte (30_encoding.md R58). -/
def rexOf (pre : List Byte) : Option (BitVec 4) :=
  match pre.getLast? with
  | some b => if b.extractLsb' 4 4 = 4#4 then some (b.extractLsb' 0 4) else none
  | none => none

/-- The column that an F2H or F3H byte selects. -/
def repOf (b : Byte) : Rep := if b = 0xF2#8 then .f2 else .f3

/-- The prefixes of a run, read off the run as a whole. -/
def prefixesOfRun (mode : Mode) (pre : List Byte) : Prefixes :=
  { seg := lastOverride mode pre
    opSize := decide (0x66#8 ∈ pre)
    addrSize := decide (0x67#8 ∈ pre)
    lock := decide (0xF0#8 ∈ pre)
    rep := (lastRep pre).map repOf
    rex := rexOf pre }

theorem lastOverride_concat (mode : Mode) (pre : List Byte) (b : Byte) :
    lastOverride mode (pre ++ [b]) = (overrideOf mode b).or (lastOverride mode pre) := by
  simp only [lastOverride, List.reverse_append, List.reverse_singleton, List.singleton_append, List.findSome?_cons]
  cases overrideOf mode b <;> rfl

theorem lastRep_concat (pre : List Byte) (b : Byte) :
    lastRep (pre ++ [b]) = if b = 0xF2#8 ∨ b = 0xF3#8 then some b else lastRep pre := by
  rw [lastRep, List.reverse_append, List.reverse_singleton, List.singleton_append, List.find?_cons]
  cases hb : b == 0xF2#8 || b == 0xF3#8 <;> simp_all [lastRep]

theorem rexOf_concat (pre : List Byte) (b : Byte) :
    rexOf (pre ++ [b]) = if b.extractLsb' 4 4 = 4#4 then some (b.extractLsb' 0 4) else none := by
  simp [rexOf]

/-- The bytes 40H to 4FH are not among the legacy prefixes. -/
theorem legacyBytes_not_rex {b : Byte} (h : b ∈ legacyBytes) : b.extractLsb' 4 4 ≠ 4#4 := by
  revert b
  decide

theorem addLegacy_of_rex {b : Byte} (h : b.extractLsb' 4 4 = 4#4) (long : Bool) (p : Prefixes) :
    p.addLegacy long b = none := by
  by_contra hne
  obtain ⟨q, hq⟩ := Option.ne_none_iff_exists'.mp hne
  exact legacyBytes_not_rex (prefixesAddLegacy_some hq).1 h

/-- The bytes 40H to 4FH are none of the eleven, so they change nothing but REX. -/
theorem prefixesOfRun_concat_rex {b : Byte} (h : b.extractLsb' 4 4 = 4#4) (mode : Mode) (pre : List Byte) :
    prefixesOfRun mode (pre ++ [b]) = { prefixesOfRun mode pre with rex := some (b.extractLsb' 0 4) } := by
  have hb : b ∉ legacyBytes := fun hb => legacyBytes_not_rex hb h
  simp only [legacyBytes, List.mem_cons, List.not_mem_nil, or_false, not_or] at hb
  simp [prefixesOfRun, lastOverride_concat, lastRep_concat, rexOf_concat, overrideOf, hb, h, Ne.symm]

/-- What the scan records of one legacy byte more, field by field. -/
theorem addLegacy_prefixesOfRun {b : Byte} (h : b ∈ legacyBytes) (mode : Mode) (pre : List Byte) :
    (prefixesOfRun mode pre).addLegacy (mode == .long64) b = some (prefixesOfRun mode (pre ++ [b])) := by
  simp only [legacyBytes, List.mem_cons, List.not_mem_nil, or_false] at h
  simp only [prefixesOfRun, lastOverride_concat, lastRep_concat, rexOf_concat]
  rcases h with rfl | rfl | rfl | rfl | rfl | rfl | rfl | rfl | rfl | rfl | rfl <;>
    cases mode <;> simp [Prefixes.addLegacy, overrideSeg, overrideOf, overrideCounts, repOf]

/-- One byte of a run added to the prefixes of those before it. -/
theorem add_prefixesOfRun {mode : Mode} {b : Byte} (hb : b ∈ legacyBytes ∨ (mode = .long64 ∧ b.extractLsb' 4 4 = 4#4))
    (pre : List Byte) :
    (prefixesOfRun mode pre).add (mode == .long64) b = some (prefixesOfRun mode (pre ++ [b])) := by
  unfold Prefixes.add
  rcases hb with hb | ⟨rfl, hb⟩
  · rw [addLegacy_prefixesOfRun hb]
  · rw [addLegacy_of_rex hb, prefixesOfRun_concat_rex hb]
    simp [hb]

theorem prefixRun_append {mode : Mode} {pre more : List Byte} :
    PrefixRun mode (pre ++ more) ↔ PrefixRun mode pre ∧ PrefixRun mode more := by
  simp only [PrefixRun, List.mem_append, or_imp, forall_and]

theorem prefixRun_concat {mode : Mode} {pre : List Byte} {b : Byte} (h : PrefixRun mode pre)
    (hb : b ∈ legacyBytes ∨ (mode = .long64 ∧ b.extractLsb' 4 4 = 4#4)) : PrefixRun mode (pre ++ [b]) :=
  prefixRun_append.mpr ⟨h, List.forall_mem_singleton.mpr hb⟩

theorem prefixRun_of_legacy {mode : Mode} {ps : List Byte} (h : ∀ p ∈ ps, p ∈ legacyBytes) : PrefixRun mode ps :=
  fun b hb => .inl (h b hb)

/-- The scan of a run and what follows it goes on with the prefixes of the run. -/
theorem scanPrefixes_run {mode : Mode} {pre : List Byte} (h : PrefixRun mode pre) (rest : List Byte) :
    scanPrefixes (mode == .long64) .empty (pre ++ rest)
      = scanPrefixes (mode == .long64) (prefixesOfRun mode pre) rest := by
  induction pre using List.reverseRecOn generalizing rest with
  | nil => rfl
  | append_singleton pre b ih =>
    obtain ⟨hpre, hb⟩ := prefixRun_append.mp h
    rw [List.append_assoc, ih hpre, List.singleton_append, scanPrefixes, add_prefixesOfRun (hb b (by simp))]

/-- A byte that ends a run: not among the legacy prefixes nor, in 64-bit mode, the REX bytes. -/
theorem add_eq_none {mode : Mode} {b : Byte} (hb : b ∉ legacyBytes)
    (hrex : mode = .long64 → b.extractLsb' 4 4 ≠ 4#4) (p : Prefixes) : p.add (mode == .long64) b = none := by
  by_contra hne
  obtain ⟨q, hq⟩ := Option.ne_none_iff_exists'.mp hne
  rcases prefixesAdd_some hq with ⟨hl, -⟩ | ⟨hm, h4, -⟩
  · exact hb hl
  · exact hrex (eq_of_beq hm) h4

theorem add_0F (mode : Mode) (p : Prefixes) : p.add (mode == .long64) 0x0F#8 = none :=
  add_eq_none (by decide) (fun _ => by decide) p

/-- The opcode ends the prefixes. -/
theorem scanPrefixes_run_0F {mode : Mode} {pre : List Byte} (h : PrefixRun mode pre) (rest : List Byte) :
    scanPrefixes (mode == .long64) .empty (pre ++ 0x0F#8 :: rest) = (prefixesOfRun mode pre, 0x0F#8 :: rest) := by
  rw [scanPrefixes_run h, scanPrefixes, add_0F]

/-- A window of prefixes alone is used up. -/
theorem scanPrefixes_run_all {mode : Mode} {pre : List Byte} (h : PrefixRun mode pre) :
    scanPrefixes (mode == .long64) .empty pre = (prefixesOfRun mode pre, []) := by
  simpa [scanPrefixes] using scanPrefixes_run h []

/-- Any bytes are a run and what the scan leaves. -/
theorem exists_prefixRun (mode : Mode) (p : Prefixes) (bytes : List Byte) :
    ∃ pre, PrefixRun mode pre ∧ bytes = pre ++ (scanPrefixes (mode == .long64) p bytes).2 := by
  induction bytes generalizing p with
  | nil => exact ⟨[], nofun, rfl⟩
  | cons b bytes ih =>
    unfold scanPrefixes
    cases hq : p.add (mode == .long64) b with
    | none => exact ⟨[], nofun, rfl⟩
    | some q =>
      obtain ⟨pre, hpre, hbytes⟩ := ih q
      refine ⟨b :: pre, List.forall_mem_cons.mpr ⟨?_, hpre⟩, congrArg (b :: ·) hbytes⟩
      exact (prefixesAdd_some hq).imp (·.1) fun hb => ⟨eq_of_beq hb.1, hb.2.1⟩

/-- A run that the opcode follows is the only one. -/
theorem prefixRun_unique {mode : Mode} {pre pre' rest rest' : List Byte} (h : PrefixRun mode pre)
    (h' : PrefixRun mode pre') (he : pre ++ 0x0F#8 :: rest = pre' ++ 0x0F#8 :: rest') : pre = pre' ∧ rest = rest' := by
  have hscan := congrArg (fun bs => (scanPrefixes (mode == .long64) .empty bs).2) he
  simp only [scanPrefixes_run_0F h, scanPrefixes_run_0F h', List.cons.injEq, true_and] at hscan
  subst hscan
  exact ⟨List.append_cancel_right he, rfl⟩

/-! ## The fields of a run in the terms of Safety -/

theorem rexBit_eq (pre : List Byte) {k : Nat} (hk : k < 4) :
    rexBit pre k = ((rexOf pre).getD 0#4).extractLsb' k 1 := by
  unfold rexBit rexOf
  cases pre.getLast? with
  | none => interval_cases k <;> rfl
  | some b =>
    dsimp only
    split
    · refine BitVec.eq_of_getLsbD_eq fun j hj => ?_
      have hin : k + j < 4 := by omega
      simp [BitVec.getLsbD_extractLsb', hin]
    · interval_cases k <;> rfl

theorem rexR_run (mode : Mode) (pre : List Byte) : (prefixesOfRun mode pre).rexR = rexBit pre 2 :=
  (rexBit_eq pre (by decide)).symm

theorem rexX_run (mode : Mode) (pre : List Byte) : (prefixesOfRun mode pre).rexX = rexBit pre 1 :=
  (rexBit_eq pre (by decide)).symm

theorem rexB_run (mode : Mode) (pre : List Byte) : (prefixesOfRun mode pre).rexB = rexBit pre 0 :=
  (rexBit_eq pre (by decide)).symm

/-- Outside 64-bit mode a run has no REX byte. -/
theorem rexOf_legacy {mode : Mode} {pre : List Byte} (hm : mode ≠ .long64) (h : PrefixRun mode pre) :
    rexOf pre = none := by
  unfold rexOf
  cases hl : pre.getLast? with
  | none => rfl
  | some b =>
    rcases h b (List.mem_of_getLast? hl) with hb | ⟨hlong, -⟩
    · exact if_neg (legacyBytes_not_rex hb)
    · exact absurd hlong hm

theorem rexBit_legacy {mode : Mode} {pre : List Byte} (hm : mode ≠ .long64) (h : PrefixRun mode pre) {k : Nat}
    (hk : k < 4) : rexBit pre k = 0#1 := by
  rw [rexBit_eq pre hk, rexOf_legacy hm h]
  interval_cases k <;> rfl

theorem size_run (mode : Mode) (csD : Bool) (pre : List Byte) :
    (prefixesOfRun mode pre).size mode csD = sizeOf mode csD pre := by
  unfold Prefixes.size sizeOf
  rw [defaultAddrSize_eq, otherAddrSize_eq]
  cases csD <;> by_cases h : 0x67#8 ∈ pre <;> simp [prefixesOfRun, h]

theorem column_run_of_none {pre : List Byte} (h : lastRep pre = none) (mode : Mode) :
    (prefixesOfRun mode pre).column = if 0x66#8 ∈ pre then .p66 else .plain := by
  simp [Prefixes.column, prefixesOfRun, h]

theorem column_run_of_66 {mode : Mode} {pre : List Byte} (h : With66 mode pre) :
    (prefixesOfRun mode pre).column = .p66 := by
  obtain ⟨-, h66, hrep⟩ := h
  rw [column_run_of_none hrep, if_pos h66]

theorem column_run_of_F2 {pre : List Byte} (h : lastRep pre = some 0xF2#8) (mode : Mode) :
    (prefixesOfRun mode pre).column = .pF2 := by
  simp [Prefixes.column, prefixesOfRun, h, repOf]

theorem column_run_of_F3 {pre : List Byte} (h : lastRep pre = some 0xF3#8) (mode : Mode) :
    (prefixesOfRun mode pre).column = .pF3 := by
  simp [Prefixes.column, prefixesOfRun, h, repOf]

/-- F2H and F3H exclude the 66H column (30_encoding.md R54). -/
theorem lastRep_of_column_p66 {mode : Mode} {pre : List Byte} (h : (prefixesOfRun mode pre).column = .p66) :
    lastRep pre = none := by
  cases hr : lastRep pre with
  | none => rfl
  | some b => by_cases hb : b = 0xF2#8 <;> simp [Prefixes.column, prefixesOfRun, hr, repOf, hb] at h

end Sys2Proof.Machine
end

