-- ==== Sys2Proof/Proofs/FormBytes.lean ====
section
/-! SUPPORT. How many bytes an addressing form takes after ModR/M, and which prefixes it depends on. -/

namespace Sys2Proof.Machine

/-! ## Bytes taken (30_encoding.md R65 to R69, R72) -/

/-- A reader takes the first `n` of the bytes, or fails where there are fewer. -/
def TakesBytes {α : Type} (n : Nat) (bytes : List Byte) (o : Option (α × List Byte)) : Prop :=
  o.map Prod.snd = if n ≤ bytes.length then some (bytes.drop n) else none

theorem TakesBytes.map {α β : Type} {n : Nat} {bytes : List Byte} {o : Option (α × List Byte)}
    (h : TakesBytes n bytes o) {f : α × List Byte → β × List Byte} (hf : ∀ d, (f d).2 = d.2) :
    TakesBytes n bytes (o.map f) := by
  rw [TakesBytes, Option.map_map, show Prod.snd ∘ f = Prod.snd from funext hf]
  exact h

theorem TakesBytes.eq_none_iff {α : Type} {n : Nat} {bytes : List Byte} {o : Option (α × List Byte)}
    (h : TakesBytes n bytes o) : o = none ↔ bytes.length < n := by
  rw [TakesBytes] at h
  rw [← Option.map_eq_none_iff (f := Prod.snd), h]
  split <;> simp <;> omega

theorem TakesBytes.of_some {α : Type} {n : Nat} {bytes rest : List Byte} {a : α}
    (h : TakesBytes n bytes (some (a, rest))) : n ≤ bytes.length ∧ rest = bytes.drop n := by
  rw [TakesBytes] at h
  split at h
  next hn => exact ⟨hn, Option.some.inj h⟩
  next => cases h

theorem takesBytes_takeDisp8 (bytes : List Byte) : TakesBytes 1 bytes (takeDisp8 bytes) := by
  match bytes with
  | [] => rfl
  | _ :: _ => simp [TakesBytes, takeDisp8]

theorem takesBytes_takeDisp16 (bytes : List Byte) : TakesBytes 2 bytes (takeDisp16 bytes) := by
  match bytes with
  | [] | [_] => rfl
  | _ :: _ :: _ => simp [TakesBytes, takeDisp16]

theorem takesBytes_takeDisp32 (bytes : List Byte) : TakesBytes 4 bytes (takeDisp32 bytes) := by
  match bytes with
  | [] | [_] | [_, _] | [_, _, _] => rfl
  | _ :: _ :: _ :: _ :: _ => simp [TakesBytes, takeDisp32]

theorem takesBytes_dispByMod {n : Nat} {bytes : List Byte} {wide : List Byte → Option (Quad × List Byte)}
    (hw : TakesBytes n bytes (wide bytes)) (mod : BitVec 2) :
    TakesBytes (dispLen mod n) bytes (dispByMod wide mod bytes) := by
  unfold dispLen dispByMod
  split
  · simp [TakesBytes]
  split
  · exact takesBytes_takeDisp8 bytes
  · exact hw

/-- The bytes of SIB and displacement that a form calls for, `bytes` being what follows ModR/M. -/
def formBytes (size : AddrSize) (mod : BitVec 2) (rm : BitVec 3) (bytes : List Byte) : Nat :=
  sibLen size rm + dispCount size mod rm (lowField (bytes.headD 0#8))

/-- The rows of the 16-bit table. -/
theorem formBytes_a16 (mod : BitVec 2) (rm : BitVec 3) (bytes : List Byte) :
    formBytes .a16 mod rm bytes = if mod = 0#2 ∧ rm = 6#3 then 2 else dispLen mod 2 := by
  simp only [formBytes, sibLen, dispCount, dispLen]
  grind

/-- The rows with an SIB byte. -/
theorem formBytes_sib {size : AddrSize} (hs : size ≠ .a16) (mod : BitVec 2) (sib : Byte) (rest : List Byte) :
    formBytes size mod 4#3 (sib :: rest) = 1 + if mod = 0#2 ∧ lowField sib = 5#3 then 4 else dispLen mod 4 := by
  simp only [formBytes, sibLen, dispCount, dispLen, List.headD_cons]
  grind

/-- The rows of the 32- and 64-bit tables without one. -/
theorem formBytes_wide {size : AddrSize} (hs : size ≠ .a16) (mod : BitVec 2) {rm : BitVec 3} (hrm : rm ≠ 4#3)
    (bytes : List Byte) :
    formBytes size mod rm bytes = if mod = 0#2 ∧ rm = 5#3 then 4 else dispLen mod 4 := by
  simp only [formBytes, sibLen, dispCount, dispLen]
  grind

theorem takesBytes_form16 (mod : BitVec 2) (rm : BitVec 3) (bytes : List Byte) :
    TakesBytes (formBytes .a16 mod rm bytes) bytes (form16 mod rm bytes) := by
  rw [formBytes_a16, form16]
  split
  · exact (takesBytes_takeDisp16 bytes).map fun _ => rfl
  · exact (takesBytes_dispByMod (takesBytes_takeDisp16 bytes) mod).map fun _ => rfl

/-- One byte more in front, taken before the others. -/
theorem TakesBytes.cons {α : Type} {n : Nat} {bytes : List Byte} {o : Option (α × List Byte)}
    (h : TakesBytes n bytes o) (b : Byte) : TakesBytes (1 + n) (b :: bytes) o := by
  rw [TakesBytes] at h ⊢
  rw [h, Nat.add_comm, List.drop_succ_cons, List.length_cons]
  simp only [Nat.add_le_add_iff_right]

theorem takesBytes_formSib {size : AddrSize} (hs : size ≠ .a16) (p : Prefixes) (mod : BitVec 2) (bytes : List Byte) :
    TakesBytes (formBytes size mod 4#3 bytes) bytes (formSib size p mod bytes) := by
  cases bytes with
  | nil =>
    have hpos : 0 < formBytes size mod 4#3 [] := by simp [formBytes, sibLen, hs]
    simp [TakesBytes, formSib, Nat.ne_of_gt hpos]
  | cons sib rest =>
    rw [formBytes_sib hs]
    refine TakesBytes.cons ?_ sib
    unfold formSib
    dsimp only
    split
    · exact (takesBytes_takeDisp32 rest).map fun _ => rfl
    · exact (takesBytes_dispByMod (takesBytes_takeDisp32 rest) mod).map fun _ => rfl

theorem takesBytes_form32 {size : AddrSize} (hs : size ≠ .a16) (long : Bool) (p : Prefixes) (mod : BitVec 2)
    (rm : BitVec 3) (bytes : List Byte) :
    TakesBytes (formBytes size mod rm bytes) bytes (form32 size long p mod rm bytes) := by
  unfold form32
  by_cases hsib : rm = 4#3
  · subst hsib
    exact takesBytes_formSib hs p mod bytes
  rw [if_neg hsib, formBytes_wide hs mod hsib]
  split
  · exact (takesBytes_takeDisp32 bytes).map fun _ => rfl
  · exact (takesBytes_dispByMod (takesBytes_takeDisp32 bytes) mod).map fun _ => rfl

/-- The decoder takes exactly the bytes the form calls for. -/
theorem takesBytes_decodeForm (mode : Mode) (csD : Bool) (p : Prefixes) (mod : BitVec 2) (rm : BitVec 3)
    (bytes : List Byte) :
    TakesBytes (formBytes (p.size mode csD) mod rm bytes) bytes (decodeForm mode csD p mod rm bytes) := by
  unfold decodeForm
  cases p.size mode csD with
  | a16 => exact takesBytes_form16 mod rm bytes
  | a32 | a64 => exact takesBytes_form32 (by decide) _ p mod rm bytes

theorem formBytes_le_five (size : AddrSize) (mod : BitVec 2) (rm : BitVec 3) (bytes : List Byte) :
    formBytes size mod rm bytes ≤ 5 := by
  unfold formBytes sibLen dispCount
  grind

/-- The base field of an SIB byte counts only where there is one. -/
theorem formBytes_congr {size : AddrSize} {mod : BitVec 2} {rm : BitVec 3} {bytes bytes' : List Byte}
    (h : sibLen size rm = 1 → bytes.headD 0#8 = bytes'.headD 0#8) :
    formBytes size mod rm bytes = formBytes size mod rm bytes' := by
  by_cases hsib : size ≠ .a16 ∧ rm = 4#3
  · rw [formBytes, formBytes, h (if_pos hsib)]
  · simp only [formBytes, dispCount]
    grind

/-- Bytes too few for a form are so whatever would have followed them. -/
theorem lt_formBytes_take {size : AddrSize} {mod : BitVec 2} {rm : BitVec 3} {bytes : List Byte} {n : Nat}
    (h : n < formBytes size mod rm bytes) : n < formBytes size mod rm (bytes.take n) := by
  cases n with
  | zero =>
    by_cases hsib : size ≠ .a16 ∧ rm = 4#3
    · exact Nat.add_pos_left (by simp [sibLen, hsib]) _
    · rwa [← formBytes_congr fun hone => absurd hone (by simp [sibLen, hsib])]
  | succ n => rwa [formBytes_congr (bytes' := bytes) fun _ => by cases bytes <;> rfl]

/-- The bytes taken are told by themselves. -/
theorem formBytes_take {size : AddrSize} {mod : BitVec 2} {rm : BitVec 3} {bytes : List Byte} {n : Nat}
    (h : formBytes size mod rm bytes ≤ n) : formBytes size mod rm (bytes.take n) = formBytes size mod rm bytes := by
  refine formBytes_congr fun hsib => ?_
  rw [formBytes, hsib] at h
  cases n with
  | zero => omega
  | succ n => cases bytes <;> rfl

/-- A form has the address size of its prefixes. -/
theorem decodeForm_size {mode : Mode} {csD : Bool} {p : Prefixes} {mod : BitVec 2} {rm : BitVec 3}
    {bytes rest : List Byte} {f : AddrForm} (h : decodeForm mode csD p mod rm bytes = some (f, rest)) :
    f.size = p.size mode csD := by
  obtain ⟨d, hd, hsize⟩ :=
    decodeForm_hasForm (bytes := bytes ++ List.replicate 5 0#8) (by simp) mode csD p mod rm
  rw [readsFront_decodeForm mode csD p mod rm _ _ _ _ h] at hd
  rw [← hsize, ← Option.some.inj hd]

/-! ## Truncated windows -/

/-- A form is read from its own bytes alone. -/
theorem decodeForm_take {mode : Mode} {csD : Bool} {p : Prefixes} {mod : BitVec 2} {rm : BitVec 3}
    {bytes rest : List Byte} {f : AddrForm} {n : Nat} (h : decodeForm mode csD p mod rm bytes = some (f, rest))
    (hn : formBytes (p.size mode csD) mod rm bytes ≤ n) :
    decodeForm mode csD p mod rm (bytes.take n) = some (f, rest.take (n - formBytes (p.size mode csD) mod rm bytes)) := by
  have hall := takesBytes_decodeForm mode csD p mod rm bytes
  have hfront := takesBytes_decodeForm mode csD p mod rm (bytes.take n)
  rw [formBytes_take hn] at hfront
  rw [h] at hall
  obtain ⟨hlen, rfl⟩ := hall.of_some
  cases hd : decodeForm mode csD p mod rm (bytes.take n) with
  | none =>
    have hshort := hfront.eq_none_iff.mp hd
    rw [List.length_take] at hshort
    omega
  | some r =>
    obtain ⟨g, left⟩ := r
    rw [hd] at hfront
    obtain ⟨-, rfl⟩ := hfront.of_some
    have hg := readsFront_decodeForm mode csD p mod rm _ _ _ (bytes.drop n) hd
    rw [List.take_append_drop, h] at hg
    rw [List.drop_take] at hg ⊢
    simp only [Option.some.injEq, Prod.mk.injEq] at hg ⊢
    exact ⟨hg.1.symm, trivial⟩

/-- A form whose bytes are not all there is not read. -/
theorem decodeForm_take_none {mode : Mode} {csD : Bool} {p : Prefixes} {mod : BitVec 2} {rm : BitVec 3}
    {bytes : List Byte} {n : Nat} (hn : n < formBytes (p.size mode csD) mod rm bytes) :
    decodeForm mode csD p mod rm (bytes.take n) = none :=
  (takesBytes_decodeForm mode csD p mod rm (bytes.take n)).eq_none_iff.mpr
    ((List.length_take_le n bytes).trans_lt (lt_formBytes_take hn))

/-! ## Prefixes that say the same -/

/-- Prefixes that differ at most in REX.W or in a REX byte of zeros. -/
structure PrefixesAgree (p q : Prefixes) : Prop where
  seg : p.seg = q.seg
  opSize : p.opSize = q.opSize
  addrSize : p.addrSize = q.addrSize
  lock : p.lock = q.lock
  rep : p.rep = q.rep
  rexR : p.rexR = q.rexR
  rexX : p.rexX = q.rexX
  rexB : p.rexB = q.rexB

theorem decodeForm_congr {p q : Prefixes} (hs : p.addrSize = q.addrSize) (hx : p.rexX = q.rexX) (hb : p.rexB = q.rexB)
    (mode : Mode) (csD : Bool) (mod : BitVec 2) (rm : BitVec 3) (bytes : List Byte) :
    decodeForm mode csD p mod rm bytes = decodeForm mode csD q mod rm bytes := by
  have hsib : ∀ size, formSib size p mod bytes = formSib size q mod bytes := fun size => by
    cases bytes <;> simp only [formSib, hx, hb]
  simp only [decodeForm, Prefixes.size, form32, hs, hb, hsib]

theorem PrefixesAgree.column {p q : Prefixes} (h : PrefixesAgree p q) : p.column = q.column := by
  rw [Prefixes.column, Prefixes.column, h.rep, h.opSize]

end Sys2Proof.Machine
end

