-- ==== Sys2Proof/Proofs/OpcodeRows.lean ====
section
/-! SUPPORT. The decoder as a whole: the row of the opcode map that prefixes, opcode and ModR/M select, and what the decoder answers after a run of prefixes. -/

namespace Sys2Proof.Machine

/-! ## Rows (30_encoding.md R74) -/

/-- A row of the opcode map: an instruction of its length, or of its memory operand and its length. -/
inductive Row where
  | short (mk : Nat → Instr)
  | mem (mk : MemOp → Nat → Instr)

/-- The row at 0F 16, or at 0F 17. -/
def rowOf (store : Bool) (p : Prefixes) (modrm : Byte) : Row :=
  match p.column, store with
  | .p66, false =>
      if topField modrm = 3#2 then .short (.reserved66Load (midField modrm) (lowField modrm))
      else .mem fun m len => .movhpdLoad (regNo p.rexR (midField modrm)) m len p.lock
  | .p66, true =>
      if topField modrm = 3#2 then .short (.reserved66Store (midField modrm) (lowField modrm))
      else .mem fun m len => .movhpdStore (regNo p.rexR (midField modrm)) m len p.lock
  | .plain, false =>
      if topField modrm = 3#2 then
        .short fun len => .movlhps (regNo p.rexR (midField modrm)) (regNo p.rexB (lowField modrm)) len p.lock
      else .mem fun m len => .movhpsLoad (regNo p.rexR (midField modrm)) m len p.lock
  | .plain, true =>
      if topField modrm = 3#2 then .short (.reservedPlainStore (midField modrm) (lowField modrm))
      else .mem fun m len => .movhpsStore (regNo p.rexR (midField modrm)) m len p.lock
  | .pF3, false =>
      if topField modrm = 3#2 then
        .short fun len => .movshdup (regNo p.rexR (midField modrm)) (.xmm (regNo p.rexB (lowField modrm))) len p.lock
      else .mem fun m len => .movshdup (regNo p.rexR (midField modrm)) (.mem m) len p.lock
  | .pF3, true => .short (.reservedF3Store modrm)
  | .pF2, false => .short (.reservedF2Load modrm)
  | .pF2, true => .short (.reservedF2Store modrm)

/-- What the decoder answers for a row, `tail` being the bytes after ModR/M. -/
def Row.decoded (mode : Mode) (csD : Bool) (window : List Byte) (p : Prefixes) (modrm : Byte) (tail : List Byte) :
    Row → Decoded
  | .short mk => .instr (mk (window.length - tail.length))
  | .mem mk => decodeMem mode csD window p modrm tail mk

theorem decode16_eq (mode : Mode) (csD : Bool) (w : List Byte) (p : Prefixes) (modrm : Byte) (tail : List Byte) :
    decode16 mode csD w p modrm tail = (rowOf false p modrm).decoded mode csD w p modrm tail := by
  unfold decode16 rowOf
  cases p.column with
  | pF2 => rfl
  | p66 | plain | pF3 => by_cases h : topField modrm = 3#2 <;> simp only [h, if_true, if_false] <;> rfl

theorem decode17_eq (mode : Mode) (csD : Bool) (w : List Byte) (p : Prefixes) (modrm : Byte) (tail : List Byte) :
    decode17 mode csD w p modrm tail = (rowOf true p modrm).decoded mode csD w p modrm tail := by
  unfold decode17 rowOf
  cases p.column with
  | pF2 | pF3 => rfl
  | p66 | plain => by_cases h : topField modrm = 3#2 <;> simp only [h, if_true, if_false] <;> rfl

/-- The opcode bytes 0F 16 and 0F 17 with a ModR/M byte after them select a row. -/
theorem decodeOpcode_row (mode : Mode) (csD : Bool) (w : List Byte) (p : Prefixes) (store : Bool) (modrm : Byte)
    (tail : List Byte) :
    decodeOpcode mode csD w p (0x0F#8 :: opByte store :: modrm :: tail)
      = (rowOf store p modrm).decoded mode csD w p modrm tail := by
  cases store
  · exact decode16_eq mode csD w p modrm tail
  · exact decode17_eq mode csD w p modrm tail

/-- In the 66H column both opcodes with a memory operand are MOVHPD. -/
theorem rowOf_p66_mem {p : Prefixes} {modrm : Byte} (hc : p.column = .p66) (ht : topField modrm ≠ 3#2) (store : Bool) :
    rowOf store p modrm = .mem fun m len => movhpdForm store (regNo p.rexR (midField modrm)) m len p.lock := by
  cases store <;> simp [rowOf, hc, ht, movhpdForm]

/-- The reserved rows of mod = 11B with 66H. -/
theorem rowOf_p66_short {p : Prefixes} {modrm : Byte} (hc : p.column = .p66) (ht : topField modrm = 3#2) (store : Bool) :
    rowOf store p modrm = .short fun len =>
      if store then .reserved66Store (midField modrm) (lowField modrm) len
      else .reserved66Load (midField modrm) (lowField modrm) len := by
  cases store <;> simp [rowOf, hc, ht]

theorem rowOf_plain_mem {p : Prefixes} {modrm : Byte} (hc : p.column = .plain) (ht : topField modrm ≠ 3#2)
    (store : Bool) :
    rowOf store p modrm = .mem fun m len =>
      if store then .movhpsStore (regNo p.rexR (midField modrm)) m len p.lock
      else .movhpsLoad (regNo p.rexR (midField modrm)) m len p.lock := by
  cases store <;> simp [rowOf, hc, ht]

theorem rowOf_movlhps {p : Prefixes} {modrm : Byte} (hc : p.column = .plain) (ht : topField modrm = 3#2) :
    rowOf false p modrm = .short fun len =>
      .movlhps (regNo p.rexR (midField modrm)) (regNo p.rexB (lowField modrm)) len p.lock := by
  simp [rowOf, hc, ht]

theorem rowOf_plainStore {p : Prefixes} {modrm : Byte} (hc : p.column = .plain) (ht : topField modrm = 3#2) :
    rowOf true p modrm = .short (.reservedPlainStore (midField modrm) (lowField modrm)) := by
  simp [rowOf, hc, ht]

theorem rowOf_movshdup_reg {p : Prefixes} {modrm : Byte} (hc : p.column = .pF3) (ht : topField modrm = 3#2) :
    rowOf false p modrm = .short fun len =>
      .movshdup (regNo p.rexR (midField modrm)) (.xmm (regNo p.rexB (lowField modrm))) len p.lock := by
  simp [rowOf, hc, ht]

theorem rowOf_movshdup_mem {p : Prefixes} {modrm : Byte} (hc : p.column = .pF3) (ht : topField modrm ≠ 3#2) :
    rowOf false p modrm = .mem fun m len => .movshdup (regNo p.rexR (midField modrm)) (.mem m) len p.lock := by
  simp [rowOf, hc, ht]

theorem rowOf_F3_store {p : Prefixes} (hc : p.column = .pF3) (modrm : Byte) :
    rowOf true p modrm = .short (.reservedF3Store modrm) := by
  simp [rowOf, hc]

theorem rowOf_F2 {p : Prefixes} (hc : p.column = .pF2) (store : Bool) (modrm : Byte) :
    rowOf store p modrm = .short fun len => if store then .reservedF2Store modrm len else .reservedF2Load modrm len := by
  cases store <;> simp [rowOf, hc]

/-- The nine kinds of row, with the column and the mod field that select each. -/
inductive IsRow (p : Prefixes) (modrm : Byte) : Bool → Row → Prop where
  | movhpd (store : Bool) (col : p.column = .p66) (top : topField modrm ≠ 3#2) :
      IsRow p modrm store (.mem fun m len => movhpdForm store (regNo p.rexR (midField modrm)) m len p.lock)
  | reserved66 (store : Bool) (col : p.column = .p66) :
      IsRow p modrm store (.short fun len =>
        if store then .reserved66Store (midField modrm) (lowField modrm) len
        else .reserved66Load (midField modrm) (lowField modrm) len)
  | movhps (store : Bool) (col : p.column = .plain) :
      IsRow p modrm store (.mem fun m len =>
        if store then .movhpsStore (regNo p.rexR (midField modrm)) m len p.lock
        else .movhpsLoad (regNo p.rexR (midField modrm)) m len p.lock)
  | movlhps (col : p.column = .plain) :
      IsRow p modrm false (.short fun len =>
        .movlhps (regNo p.rexR (midField modrm)) (regNo p.rexB (lowField modrm)) len p.lock)
  | plainStore (col : p.column = .plain) :
      IsRow p modrm true (.short (.reservedPlainStore (midField modrm) (lowField modrm)))
  | movshdupReg (col : p.column = .pF3) :
      IsRow p modrm false (.short fun len =>
        .movshdup (regNo p.rexR (midField modrm)) (.xmm (regNo p.rexB (lowField modrm))) len p.lock)
  | movshdupMem (col : p.column = .pF3) :
      IsRow p modrm false (.mem fun m len => .movshdup (regNo p.rexR (midField modrm)) (.mem m) len p.lock)
  | storeF3 (col : p.column = .pF3) : IsRow p modrm true (.short (.reservedF3Store modrm))
  | reservedF2 (store : Bool) (col : p.column = .pF2) :
      IsRow p modrm store (.short fun len =>
        if store then .reservedF2Store modrm len else .reservedF2Load modrm len)

theorem isRow_rowOf (store : Bool) (p : Prefixes) (modrm : Byte) : IsRow p modrm store (rowOf store p modrm) := by
  by_cases ht : topField modrm = 3#2
  · cases hc : p.column with
    | p66 => exact rowOf_p66_short hc ht store ▸ .reserved66 store hc
    | pF2 => exact rowOf_F2 hc store modrm ▸ .reservedF2 store hc
    | plain =>
      cases store with
      | false => exact rowOf_movlhps hc ht ▸ .movlhps hc
      | true => exact rowOf_plainStore hc ht ▸ .plainStore hc
    | pF3 =>
      cases store with
      | false => exact rowOf_movshdup_reg hc ht ▸ .movshdupReg hc
      | true => exact rowOf_F3_store hc modrm ▸ .storeF3 hc
  · cases hc : p.column with
    | p66 => exact rowOf_p66_mem hc ht store ▸ .movhpd store hc ht
    | pF2 => exact rowOf_F2 hc store modrm ▸ .reservedF2 store hc
    | plain => exact rowOf_plain_mem hc ht store ▸ .movhps store hc
    | pF3 =>
      cases store with
      | false => exact rowOf_movshdup_mem hc ht ▸ .movshdupMem hc
      | true => exact rowOf_F3_store hc modrm ▸ .storeF3 hc

/-- A row keeps the length it is given. -/
theorem rowOf_short_len {store : Bool} {p : Prefixes} {modrm : Byte} {mk : Nat → Instr}
    (h : rowOf store p modrm = .short mk) (len : Nat) : (mk len).len = len := by
  cases h ▸ isRow_rowOf store p modrm with
  | reserved66 | reservedF2 => cases store <;> rfl
  | movlhps | plainStore | movshdupReg | storeF3 => rfl

theorem rowOf_mem_len {store : Bool} {p : Prefixes} {modrm : Byte} {mk : MemOp → Nat → Instr}
    (h : rowOf store p modrm = .mem mk) (m : MemOp) (len : Nat) : (mk m len).len = len := by
  cases h ▸ isRow_rowOf store p modrm with
  | movhpd | movhps => cases store <;> rfl
  | movshdupMem => rfl

/-- The rows of MOVHPD are those of the 66H column with a memory operand. -/
theorem rowOf_short_ne_movhpd {store : Bool} {p : Prefixes} {modrm : Byte} {mk : Nat → Instr}
    (h : rowOf store p modrm = .short mk) (len : Nat) (store' : Bool) (x : RegNo) (m : MemOp) (len' : Nat) (lock : Bool) :
    mk len ≠ movhpdForm store' x m len' lock := by
  cases h ▸ isRow_rowOf store p modrm with
  | reserved66 | reservedF2 => cases store <;> cases store' <;> exact nofun
  | movlhps | plainStore | movshdupReg | storeF3 => cases store' <;> exact nofun

theorem rowOf_mem_movhpd {store : Bool} {p : Prefixes} {modrm : Byte} {mk : MemOp → Nat → Instr}
    (h : rowOf store p modrm = .mem mk) {m : MemOp} {len : Nat} {store' : Bool} {x : RegNo} {m' : MemOp} {len' : Nat}
    {lock : Bool} (he : mk m len = movhpdForm store' x m' len' lock) :
    p.column = .p66 ∧ topField modrm ≠ 3#2 ∧ store' = store ∧ x = regNo p.rexR (midField modrm) ∧ m' = m ∧ len' = len
      ∧ lock = p.lock := by
  cases h ▸ isRow_rowOf store p modrm with
  | movhpd _ col top => cases store <;> cases store' <;> cases he <;> exact ⟨col, top, rfl, rfl, rfl, rfl, rfl⟩
  | movhps => cases store <;> cases store' <;> cases he
  | movshdupMem => cases store' <;> cases he

/-- Rows and forms are those of what the prefixes say. -/
theorem rowOf_congr {p q : Prefixes} (h : PrefixesAgree p q) (store : Bool) (modrm : Byte) :
    rowOf store p modrm = rowOf store q modrm := by
  simp only [rowOf, h.column, h.rexR, h.rexB, h.lock]

theorem outOfBytes_congr {w w' : List Byte} (h : w.length = w'.length) : outOfBytes w = outOfBytes w' := by
  rw [outOfBytes, outOfBytes, h]

theorem decodeMem_congr {p q : Prefixes} (h : PrefixesAgree p q) {w w' : List Byte} (hw : w.length = w'.length)
    (mode : Mode) (csD : Bool) (modrm : Byte) (tail : List Byte) (mk : MemOp → Nat → Instr) :
    decodeMem mode csD w p modrm tail mk = decodeMem mode csD w' q modrm tail mk := by
  unfold decodeMem Prefixes.operandSeg
  rw [decodeForm_congr h.addrSize h.rexX h.rexB, outOfBytes_congr hw, h.seg, hw]

theorem decodeOpcode_congr {p q : Prefixes} (h : PrefixesAgree p q) {w w' : List Byte} (hw : w.length = w'.length)
    (mode : Mode) (csD : Bool) (bytes : List Byte) :
    decodeOpcode mode csD w p bytes = decodeOpcode mode csD w' q bytes := by
  have hrow : ∀ store modrm tail, (rowOf store p modrm).decoded mode csD w p modrm tail
      = (rowOf store q modrm).decoded mode csD w' q modrm tail := by
    intro store modrm tail
    rw [rowOf_congr h]
    cases rowOf store q modrm with
    | short mk => rw [Row.decoded, Row.decoded, hw]
    | mem mk => exact decodeMem_congr h hw mode csD modrm tail mk
  simp only [decodeOpcode, outOfBytes_congr hw, decode16_eq, decode17_eq, hrow]

/-! ## The decoder after a run of prefixes (30_encoding.md R72, R73) -/

/-- The bytes that the row and the form call for after ModR/M. -/
def tailBytes (mode : Mode) (csD : Bool) (pre : List Byte) (modrm : Byte) (tail : List Byte) : Nat :=
  formBytes (sizeOf mode csD pre) (topField modrm) (lowField modrm) tail

theorem take_run {pre : List Byte} (hl : pre.length + 3 ≤ 15) (a b c : Byte) (d : List Byte) :
    (pre ++ a :: b :: c :: d).take 15 = pre ++ a :: b :: c :: d.take (12 - pre.length) := by
  obtain ⟨n, hn⟩ : ∃ n, 15 - pre.length = n + 3 := ⟨12 - pre.length, by omega⟩
  rw [List.take_append, List.take_of_length_le (by omega), hn, show 12 - pre.length = n by omega]
  rfl

theorem decode_run {mode : Mode} {pre : List Byte} (h : PrefixRun mode pre) (hl : pre.length + 3 ≤ 15) (csD store : Bool)
    (modrm : Byte) (d : List Byte) :
    decode mode csD (pre ++ 0x0F#8 :: opByte store :: modrm :: d)
      = (rowOf store (prefixesOfRun mode pre) modrm).decoded mode csD
          (pre ++ 0x0F#8 :: opByte store :: modrm :: d.take (12 - pre.length)) (prefixesOfRun mode pre) modrm
          (d.take (12 - pre.length)) := by
  rw [decode, show Config.maxInsnBytes = 15 from rfl, take_run hl, scanPrefixes_run_0F h, decodeOpcode_row]

/-- A row without a memory operand ends at its ModR/M byte. -/
theorem decode_run_short {mode : Mode} {pre : List Byte} (h : PrefixRun mode pre) (hl : pre.length + 3 ≤ 15)
    {store : Bool} {modrm : Byte} {mk : Nat → Instr} (hrow : rowOf store (prefixesOfRun mode pre) modrm = .short mk)
    (csD : Bool) (d : List Byte) :
    decode mode csD (pre ++ 0x0F#8 :: opByte store :: modrm :: d) = .instr (mk (pre.length + 3)) := by
  rw [decode_run h hl, hrow, Row.decoded]
  congr 2
  simp only [List.length_append, List.length_cons]
  omega

/-- A row with a memory operand ends with the bytes of its form. -/
theorem decode_run_mem {mode : Mode} {csD : Bool} {pre : List Byte} (h : PrefixRun mode pre) {store : Bool} {modrm : Byte}
    {mk : MemOp → Nat → Instr} (hrow : rowOf store (prefixesOfRun mode pre) modrm = .mem mk) {d rest : List Byte}
    {f : AddrForm}
    (hf : decodeForm mode csD (prefixesOfRun mode pre) (topField modrm) (lowField modrm) d = some (f, rest))
    (hl : pre.length + 3 + tailBytes mode csD pre modrm d ≤ 15) :
    decode mode csD (pre ++ 0x0F#8 :: opByte store :: modrm :: d)
      = .instr (mk ⟨(lastOverride mode pre).getD f.defaultSeg, f⟩ (pre.length + 3 + tailBytes mode csD pre modrm d)) := by
  have htake := takesBytes_decodeForm mode csD (prefixesOfRun mode pre) (topField modrm) (lowField modrm) d
  rw [hf] at htake
  obtain ⟨hn, rfl⟩ := htake.of_some
  rw [size_run] at hn hf
  rw [tailBytes] at hl ⊢
  rw [decode_run h (by omega), hrow, Row.decoded, decodeMem,
    decodeForm_take (n := 12 - pre.length) hf (by rw [size_run]; omega), size_run]
  dsimp only
  congr 2
  simp only [List.length_append, List.length_cons, List.length_take, List.length_drop]
  omega

/-- Fifteen bytes that do not hold the whole instruction (30_encoding.md R73). -/
theorem outOfBytes_tooLong {window : List Byte} (h : 15 ≤ window.length) : outOfBytes window = .tooLong :=
  if_neg (Nat.not_lt.mpr h)

/-- Fifteen prefixes leave no room for an opcode. -/
theorem decode_run_prefixes_tooLong {mode : Mode} {pre : List Byte} (h : PrefixRun mode pre) (hl : 15 ≤ pre.length)
    (csD : Bool) (rest : List Byte) : decode mode csD (pre ++ rest) = .tooLong := by
  rw [decode, show Config.maxInsnBytes = 15 from rfl, List.take_append_of_le_length hl,
    scanPrefixes_run_all fun b hb => h b (List.mem_of_mem_take hb)]
  exact outOfBytes_tooLong (by rw [List.length_take]; omega)

/-- Prefixes, opcode and ModR/M alone are too long. -/
theorem decode_run_opcode_tooLong {mode : Mode} {pre : List Byte} (h : PrefixRun mode pre) (hl : 15 < pre.length + 3)
    (csD store : Bool) (modrm : Byte) (d : List Byte) :
    decode mode csD (pre ++ 0x0F#8 :: opByte store :: modrm :: d) = .tooLong := by
  by_cases hpre : 15 ≤ pre.length
  · exact decode_run_prefixes_tooLong h hpre csD _
  have hw : 15 ≤ ((pre ++ 0x0F#8 :: opByte store :: modrm :: d).take 15).length := by
    simp only [List.length_take, List.length_append, List.length_cons]
    omega
  rw [decode, show Config.maxInsnBytes = 15 from rfl]
  obtain hn | hn : 15 - pre.length = 1 ∨ 15 - pre.length = 2 := by omega
  all_goals
    rw [List.take_append, List.take_of_length_le (by omega), hn] at hw ⊢
    simp only [List.take_succ_cons, List.take_zero] at hw ⊢
    rw [scanPrefixes_run_0F h]
  · exact outOfBytes_tooLong hw
  · cases store <;> exact outOfBytes_tooLong hw

/-- SIB or displacement bytes that pass the fifteenth byte are too long. -/
theorem decode_run_form_tooLong {mode : Mode} {csD : Bool} {pre : List Byte} (h : PrefixRun mode pre) {store : Bool}
    {modrm : Byte} {mk : MemOp → Nat → Instr} (hrow : rowOf store (prefixesOfRun mode pre) modrm = .mem mk)
    {d : List Byte} (hd : tailBytes mode csD pre modrm d ≤ d.length)
    (hl : 15 < pre.length + 3 + tailBytes mode csD pre modrm d) :
    decode mode csD (pre ++ 0x0F#8 :: opByte store :: modrm :: d) = .tooLong := by
  by_cases hpre : 15 < pre.length + 3
  · exact decode_run_opcode_tooLong h hpre csD store modrm d
  rw [tailBytes, ← size_run] at hd hl
  rw [decode_run h (by omega), hrow, Row.decoded, decodeMem,
    decodeForm_take_none (n := 12 - pre.length) (by omega)]
  refine outOfBytes_tooLong ?_
  simp only [List.length_append, List.length_cons, List.length_take]
  omega

/-! ## What an answer says of the bytes -/

/-- The decoder's answers: a run of prefixes, 0FH, 16H or 17H, ModR/M, and the bytes of the form if there is one. -/
inductive DecodesTo (mode : Mode) (csD : Bool) : List Byte → Instr → Prop where
  | short {pre : List Byte} {store : Bool} {modrm : Byte} {mk : Nat → Instr} (tail : List Byte)
      (run : PrefixRun mode pre) (row : rowOf store (prefixesOfRun mode pre) modrm = .short mk)
      (fits : pre.length + 3 ≤ 15) :
      DecodesTo mode csD (pre ++ 0x0F#8 :: opByte store :: modrm :: tail) (mk (pre.length + 3))
  | mem {pre : List Byte} {store : Bool} {modrm : Byte} {mk : MemOp → Nat → Instr} {tail rest : List Byte} {f : AddrForm}
      (run : PrefixRun mode pre) (row : rowOf store (prefixesOfRun mode pre) modrm = .mem mk)
      (form : decodeForm mode csD (prefixesOfRun mode pre) (topField modrm) (lowField modrm) tail = some (f, rest))
      (fits : pre.length + 3 + tailBytes mode csD pre modrm tail ≤ 15) :
      DecodesTo mode csD (pre ++ 0x0F#8 :: opByte store :: modrm :: tail)
        (mk ⟨(lastOverride mode pre).getD f.defaultSeg, f⟩ (pre.length + 3 + tailBytes mode csD pre modrm tail))

theorem decode_of_decodesTo {mode : Mode} {csD : Bool} {bytes : List Byte} {i : Instr} (h : DecodesTo mode csD bytes i) :
    decode mode csD bytes = .instr i := by
  cases h with
  | short tail run row fits => exact decode_run_short run fits row csD tail
  | mem run row form fits => exact decode_run_mem run row form fits

/-- The form of a decoded row with a memory operand is read from the bytes after ModR/M. -/
theorem decodeForm_of_decode {mode : Mode} {csD : Bool} {pre : List Byte} (h : PrefixRun mode pre) {store : Bool}
    {modrm : Byte} {mk : MemOp → Nat → Instr} (hrow : rowOf store (prefixesOfRun mode pre) modrm = .mem mk)
    {d : List Byte} {i : Instr} (hd : decode mode csD (pre ++ 0x0F#8 :: opByte store :: modrm :: d) = .instr i) :
    ∃ f rest, decodeForm mode csD (prefixesOfRun mode pre) (topField modrm) (lowField modrm) d = some (f, rest)
      ∧ pre.length + 3 + tailBytes mode csD pre modrm d ≤ 15 := by
  have htake := takesBytes_decodeForm mode csD (prefixesOfRun mode pre) (topField modrm) (lowField modrm) d
  rw [size_run] at htake
  by_cases hpre : 15 < pre.length + 3
  · rw [decode_run_opcode_tooLong h hpre] at hd
    cases hd
  cases hf : decodeForm mode csD (prefixesOfRun mode pre) (topField modrm) (lowField modrm) d with
  | none =>
    have hnone : decodeForm mode csD (prefixesOfRun mode pre) (topField modrm) (lowField modrm)
        (d.take (12 - pre.length)) = none := by
      by_contra hne
      obtain ⟨⟨g, left⟩, hg⟩ := Option.ne_none_iff_exists'.mp hne
      have hall := readsFront_decodeForm mode csD _ _ _ _ _ _ (d.drop (12 - pre.length)) hg
      rw [List.take_append_drop, hf] at hall
      cases hall
    rw [decode_run h (by omega), hrow, Row.decoded, decodeMem, hnone] at hd
    exact absurd hd (outOfBytes_ne_instr _ i)
  | some r =>
    obtain ⟨f, rest⟩ := r
    refine ⟨f, rest, rfl, ?_⟩
    by_contra hlong
    rw [hf] at htake
    rw [decode_run_form_tooLong h hrow htake.of_some.1 (by omega)] at hd
    cases hd

theorem decodesTo_of_run {mode : Mode} {csD : Bool} {pre : List Byte} (h : PrefixRun mode pre) {store : Bool}
    {modrm : Byte} {d : List Byte} {i : Instr}
    (hd : decode mode csD (pre ++ 0x0F#8 :: opByte store :: modrm :: d) = .instr i) :
    DecodesTo mode csD (pre ++ 0x0F#8 :: opByte store :: modrm :: d) i := by
  cases hrow : rowOf store (prefixesOfRun mode pre) modrm with
  | short mk =>
    by_cases hpre : 15 < pre.length + 3
    · rw [decode_run_opcode_tooLong h hpre] at hd
      cases hd
    · have hfits : pre.length + 3 ≤ 15 := by omega
      obtain rfl := Decoded.instr.inj ((decode_run_short h hfits hrow csD d).symm.trans hd)
      exact .short d h hrow hfits
  | mem mk =>
    obtain ⟨f, rest, hf, hfits⟩ := decodeForm_of_decode h hrow hd
    obtain rfl := Decoded.instr.inj ((decode_run_mem h hrow hf hfits).symm.trans hd)
    exact .mem h hrow hf hfits

/-- A decoded instruction stands behind a run of prefixes. -/
theorem run_of_decode {mode : Mode} {csD : Bool} {bytes : List Byte} {i : Instr}
    (h : decode mode csD bytes = .instr i) :
    ∃ pre store modrm tail, PrefixRun mode pre ∧ bytes = pre ++ 0x0F#8 :: opByte store :: modrm :: tail := by
  obtain ⟨pre, hpre, hw⟩ := exists_prefixRun mode .empty (bytes.take Config.maxInsnBytes)
  rw [decode] at h
  have hbytes := List.take_append_drop Config.maxInsnBytes bytes
  rw [hw, List.append_assoc] at hbytes
  obtain ⟨modrm, tail, ⟨hop, -⟩ | ⟨hop, -⟩⟩ := decodeOpcode_instr h
  · exact ⟨pre, false, modrm, _, hpre, by rw [← hbytes, hop]; rfl⟩
  · exact ⟨pre, true, modrm, _, hpre, by rw [← hbytes, hop]; rfl⟩

theorem decode_iff {mode : Mode} {csD : Bool} {bytes : List Byte} {i : Instr} :
    decode mode csD bytes = .instr i ↔ DecodesTo mode csD bytes i := by
  refine ⟨fun h => ?_, decode_of_decodesTo⟩
  obtain ⟨pre, store, modrm, tail, hpre, rfl⟩ := run_of_decode h
  exact decodesTo_of_run hpre h

/-- A MOVHPD after a run of prefixes: the column is that of 66H, and the operand is the form after ModR/M. -/
theorem movhpd_of_run {mode : Mode} {csD : Bool} {pre : List Byte} (h : PrefixRun mode pre) {store store' : Bool}
    {modrm : Byte} {d : List Byte} {x : RegNo} {m : MemOp} {len : Nat} {lock : Bool}
    (hd : decode mode csD (pre ++ 0x0F#8 :: opByte store :: modrm :: d) = .instr (movhpdForm store' x m len lock)) :
    (prefixesOfRun mode pre).column = .p66 ∧ topField modrm ≠ 3#2 ∧ store' = store
      ∧ (∃ rest, decodeForm mode csD (prefixesOfRun mode pre) (topField modrm) (lowField modrm) d = some (m.form, rest))
      ∧ m.seg = (lastOverride mode pre).getD m.form.defaultSeg
      ∧ len = pre.length + 3 + tailBytes mode csD pre modrm d ∧ len ≤ 15
      ∧ x = regNo (rexBit pre 2) (midField modrm) ∧ lock = decide (0xF0#8 ∈ pre) := by
  cases hrow : rowOf store (prefixesOfRun mode pre) modrm with
  | short mk =>
    by_cases hpre : 15 < pre.length + 3
    · rw [decode_run_opcode_tooLong h hpre] at hd
      cases hd
    · rw [decode_run_short h (by omega) hrow] at hd
      exact (rowOf_short_ne_movhpd hrow _ _ _ _ _ _ (Decoded.instr.inj hd)).elim
  | mem mk =>
    obtain ⟨f, rest, hf, hfits⟩ := decodeForm_of_decode h hrow hd
    rw [decode_run_mem h hrow hf hfits] at hd
    obtain ⟨hcol, htop, rfl, rfl, rfl, rfl, rfl⟩ := rowOf_mem_movhpd hrow (Decoded.instr.inj hd)
    exact ⟨hcol, htop, rfl, ⟨rest, hf⟩, rfl, rfl, hfits, by rw [rexR_run], rfl⟩

/-- The converse: prefixes of the 66H column and the bytes of a form are a MOVHPD. -/
theorem decode_run_movhpd {mode : Mode} {csD : Bool} {pre : List Byte} (h : PrefixRun mode pre)
    (hcol : (prefixesOfRun mode pre).column = .p66) {modrm : Byte} (ht : topField modrm ≠ 3#2) {d rest : List Byte}
    {f : AddrForm}
    (hf : decodeForm mode csD (prefixesOfRun mode pre) (topField modrm) (lowField modrm) d = some (f, rest))
    (hl : pre.length + 3 + tailBytes mode csD pre modrm d ≤ 15) (store : Bool) :
    decode mode csD (pre ++ 0x0F#8 :: opByte store :: modrm :: d)
      = .instr (movhpdForm store (regNo (rexBit pre 2) (midField modrm))
          ⟨(lastOverride mode pre).getD f.defaultSeg, f⟩ (pre.length + 3 + tailBytes mode csD pre modrm d)
          (decide (0xF0#8 ∈ pre))) := by
  rw [decode_run_mem h (rowOf_p66_mem hcol ht store) hf hl, rexR_run]
  rfl

end Sys2Proof.Machine
end

