-- ==== Sys2Proof/Proofs/DecodedBytes.lean ====
section
/-! SUPPORT. What the bytes of a decoded instruction are, and which changes to its prefixes change nothing. -/

namespace Sys2Proof.Machine

/-! ## The instruction's own bytes (30_encoding.md R72) -/

/-- An instruction is decoded from as many bytes as its length. -/
theorem decodesTo_take {mode : Mode} {csD : Bool} {bytes : List Byte} {i : Instr} (h : DecodesTo mode csD bytes i) :
    decode mode csD (bytes.take i.len) = .instr i := by
  cases h with
  | @short pre store modrm mk tail run row fits =>
    rw [rowOf_short_len row, List.take_append, List.take_of_length_le (Nat.le_add_right ..), Nat.add_sub_cancel_left]
    exact decode_run_short run fits row csD []
  | @mem pre store modrm mk tail rest f run row form fits =>
    rw [rowOf_mem_len row, List.take_append, List.take_of_length_le (by omega),
      show pre.length + 3 + tailBytes mode csD pre modrm tail - pre.length
        = tailBytes mode csD pre modrm tail + 3 by omega]
    have hfront := decodeForm_take form (n := tailBytes mode csD pre modrm tail) (by rw [size_run]; exact Nat.le_refl _)
    have hbytes : tailBytes mode csD pre modrm (tail.take (tailBytes mode csD pre modrm tail))
        = tailBytes mode csD pre modrm tail := formBytes_take (Nat.le_refl _)
    have hd := decode_run_mem run row hfront (hbytes.symm ▸ fits)
    rwa [hbytes] at hd

/-- Settles O12: the instruction's own bytes decode to it, and what follows them changes nothing. -/
theorem decodeReadsOnlyTheInstructionsBytes : Obligations.DecodeReadsOnlyTheInstructionsBytes := by
  intro mode csD bytes rest i h
  exact decode_append (decodesTo_take (decode_iff.mp h)) rest

/-- The base field of the SIB byte, read off the list of SIB bytes. -/
theorem any_sibBytes {size : AddrSize} {rm : BitVec 3} {tail : List Byte} (h : sibLen size rm ≤ tail.length) :
    (tail.take (sibLen size rm)).any (fun b => b.extractLsb' 0 3 == 5#3) = true
      ↔ (size ≠ .a16 ∧ rm = 4#3) ∧ lowField (tail.headD 0#8) = 5#3 := by
  by_cases hsib : size ≠ .a16 ∧ rm = 4#3
  · rw [show sibLen size rm = 1 from if_pos hsib] at h ⊢
    cases tail with
    | nil => cases h
    | cons b tail => simp [hsib, lowField]
  · rw [show sibLen size rm = 0 from if_neg hsib]
    simp [hsib]

/-- Settles O17: the bytes before 0FH are the prefixes, and the form takes those it calls for after ModR/M. -/
theorem lengthCountsEveryByte : Obligations.LengthCountsEveryByte := by
  intro mode csD bytes x m len lock h
  obtain ⟨store, hd⟩ : ∃ store, decode mode csD bytes = .instr (movhpdForm store x m len lock) := by
    rcases h with h | h
    · exact ⟨false, h⟩
    · exact ⟨true, h⟩
  obtain ⟨pre, op, modrm, tail, hpre, rfl⟩ := run_of_decode hd
  obtain ⟨-, -, -, ⟨rest, hform⟩, -, hlen, -⟩ := movhpd_of_run hpre hd
  have htake := takesBytes_decodeForm mode csD (prefixesOfRun mode pre) (topField modrm) (lowField modrm) tail
  rw [hform, ← decodeForm_size hform] at htake
  obtain ⟨hn, rfl⟩ := htake.of_some
  rw [tailBytes, ← size_run, ← decodeForm_size hform] at hlen
  unfold formBytes at hn hlen
  refine ⟨pre, tail.take (sibLen m.form.size (lowField modrm)),
    (tail.drop (sibLen m.form.size (lowField modrm))).take
      (dispCount m.form.size (topField modrm) (lowField modrm) (lowField (tail.headD 0#8))),
    tail.drop (formBytes m.form.size (topField modrm) (lowField modrm) tail), opByte op, modrm,
    ?_, hpre, by cases op <;> decide, ?_, ?_, ?_⟩
  · rw [formBytes, ← List.drop_drop]
    simp only [List.append_assoc, List.take_append_drop]
    rfl
  · rw [List.length_take, Nat.min_eq_left (by omega)]
    rfl
  · rw [List.length_take, List.length_drop, Nat.min_eq_left (by omega)]
    simp only [any_sibBytes (le_trans (Nat.le_add_right ..) hn)]
    by_cases hsize : m.form.size = .a16
    · simp only [dispCount, hsize, if_true]
      rfl
    · simp [dispCount, topField, lowField, hsize]
  · rw [List.length_take, List.length_take, List.length_drop, hlen]
    omega

/-! ## F2H and F3H (30_encoding.md R54) -/

theorem notMovhpd_of_ne {d : Decoded}
    (h : ∀ store x m len lock, d ≠ .instr (movhpdForm store x m len lock)) : NotMovhpd d := by
  refine ⟨fun hl => ?_, fun hs => ?_⟩
  · unfold LoadWith at hl
    split at hl
    · exact h false _ _ _ _ rfl
    · exact hl
  · unfold StoreWith at hs
    split at hs
    · exact h true _ _ _ _ rfl
    · exact hs

theorem lastRep_eq_none_iff (pre : List Byte) : lastRep pre = none ↔ 0xF2#8 ∉ pre ∧ 0xF3#8 ∉ pre := by
  simp only [lastRep, List.find?_eq_none, List.mem_reverse, Bool.or_eq_true, beq_iff_eq, not_or]
  exact ⟨fun h => ⟨fun h2 => (h _ h2).1 rfl, fun h3 => (h _ h3).2 rfl⟩,
    fun h b hb => ⟨fun h2 => h.1 (h2 ▸ hb), fun h3 => h.2 (h3 ▸ hb)⟩⟩

/-- The prefixes of an instruction begin with any legacy prefixes its bytes begin with. -/
theorem subset_run {ps pre rest tail : List Byte} (hps : ∀ p ∈ ps, p ∈ legacyBytes)
    (he : ps ++ rest = pre ++ 0x0F#8 :: tail) : ∀ p ∈ ps, p ∈ pre := by
  rcases List.append_eq_append_iff.mp he with ⟨more, rfl, -⟩ | ⟨more, rfl, hmore⟩
  · exact fun p hp => List.mem_append_left _ hp
  · cases more with
    | nil => simp
    | cons b more =>
      obtain rfl : 0x0F#8 = b := (List.cons.inj hmore).1
      exact absurd (hps 0x0F#8 (by simp)) (by decide)

/-- Settles O19: MOVHPD stands in the 66H column alone, which F2H and F3H exclude. -/
theorem repeatBytesExcludeMovhpd : Obligations.RepeatBytesExcludeMovhpd := by
  intro mode csD ps rest hps hrep
  refine notMovhpd_of_ne fun store x m len lock hd => ?_
  obtain ⟨pre, store', modrm, tail, hpre, he⟩ := run_of_decode hd
  rw [he] at hd
  obtain ⟨hcol, -⟩ := movhpd_of_run hpre hd
  obtain ⟨h2, h3⟩ := (lastRep_eq_none_iff pre).mp (lastRep_of_column_p66 hcol)
  have hsub := subset_run hps he
  exact hrep.elim (fun h => h2 (hsub _ h)) (fun h => h3 (hsub _ h))

/-! ## Runs that say the same (30_encoding.md R52, R58, R59) -/

theorem PrefixesAgree.refl (p : Prefixes) : PrefixesAgree p p := ⟨rfl, rfl, rfl, rfl, rfl, rfl, rfl, rfl⟩

/-- Two runs of one length after which the scan agrees are one to the decoder. -/
theorem decode_congr_run {mode : Mode} {pre pre' : List Byte} (h : PrefixRun mode pre) (h' : PrefixRun mode pre')
    (hl : pre.length = pre'.length) {rest : List Byte}
    (hscan : ∀ n, PrefixesAgree (scanPrefixes (mode == .long64) (prefixesOfRun mode pre) (rest.take n)).1
          (scanPrefixes (mode == .long64) (prefixesOfRun mode pre') (rest.take n)).1
        ∧ (scanPrefixes (mode == .long64) (prefixesOfRun mode pre) (rest.take n)).2
          = (scanPrefixes (mode == .long64) (prefixesOfRun mode pre') (rest.take n)).2) (csD : Bool) :
    decode mode csD (pre ++ rest) = decode mode csD (pre' ++ rest) := by
  by_cases hlong : 15 ≤ pre.length
  · rw [decode_run_prefixes_tooLong h hlong, decode_run_prefixes_tooLong h' (hl ▸ hlong)]
  obtain ⟨hagree, hrest⟩ := hscan (15 - pre.length)
  simp only [decode, show Config.maxInsnBytes = 15 from rfl]
  rw [List.take_append, List.take_of_length_le (l := pre) (by omega), List.take_append,
    List.take_of_length_le (l := pre') (by omega), ← hl, scanPrefixes_run h, scanPrefixes_run h', hrest]
  exact decodeOpcode_congr hagree (by simp [hl]) mode csD _

theorem decode_congr_run_eq {mode : Mode} {pre pre' : List Byte} (h : PrefixRun mode pre) (h' : PrefixRun mode pre')
    (hl : pre.length = pre'.length) (hp : prefixesOfRun mode pre = prefixesOfRun mode pre') (csD : Bool)
    (rest : List Byte) : decode mode csD (pre ++ rest) = decode mode csD (pre' ++ rest) :=
  decode_congr_run h h' hl (fun n => by rw [hp]; exact ⟨.refl _, rfl⟩) csD

theorem decode_congr_run_0F {mode : Mode} {pre pre' : List Byte} (h : PrefixRun mode pre) (h' : PrefixRun mode pre')
    (hl : pre.length = pre'.length) (hp : PrefixesAgree (prefixesOfRun mode pre) (prefixesOfRun mode pre')) (csD : Bool)
    (rest : List Byte) : decode mode csD (pre ++ 0x0F#8 :: rest) = decode mode csD (pre' ++ 0x0F#8 :: rest) := by
  refine decode_congr_run h h' hl (fun n => ?_) csD
  cases n with
  | zero => exact ⟨hp, rfl⟩
  | succ n =>
    simp only [List.take_succ_cons, scanPrefixes, add_0F]
    exact ⟨hp, trivial⟩

/-! ### Order -/

theorem overrideOf_eq_none {b : Byte} (h : b ∉ [0x26#8, 0x2E#8, 0x36#8, 0x3E#8, 0x64#8, 0x65#8]) (mode : Mode) :
    overrideOf mode b = none := by
  simp only [List.mem_cons, List.not_mem_nil, or_false, not_or] at h
  simp [overrideOf, h]

/-- Neighbours of different groups set different fields. -/
theorem prefixesOfRun_swap {a b : Byte} (ha : a ∈ legacyBytes) (hb : b ∈ legacyBytes)
    (hseg : ¬ (a ∈ [0x26#8, 0x2E#8, 0x36#8, 0x3E#8, 0x64#8, 0x65#8]
      ∧ b ∈ [0x26#8, 0x2E#8, 0x36#8, 0x3E#8, 0x64#8, 0x65#8]))
    (hrep : ¬ (a ∈ [0xF2#8, 0xF3#8] ∧ b ∈ [0xF2#8, 0xF3#8])) (mode : Mode) (ps : List Byte) :
    prefixesOfRun mode (ps ++ [a] ++ [b]) = prefixesOfRun mode (ps ++ [b] ++ [a]) := by
  have hov : (overrideOf mode b).or ((overrideOf mode a).or (lastOverride mode ps))
      = (overrideOf mode a).or ((overrideOf mode b).or (lastOverride mode ps)) := by
    rcases not_and_or.mp hseg with h | h <;> rw [overrideOf_eq_none h] <;> simp
  have hmem : ∀ c : Byte, c ∈ ps ++ [a] ++ [b] ↔ c ∈ ps ++ [b] ++ [a] := fun c => by
    simp only [List.mem_append, or_assoc, or_comm (a := c ∈ [a])]
  simp only [List.mem_cons, List.not_mem_nil, or_false] at hrep
  have hr : lastRep (ps ++ [a] ++ [b]) = lastRep (ps ++ [b] ++ [a]) := by
    simp only [lastRep_concat]
    rcases not_and_or.mp hrep with h | h <;> simp only [h, if_false]
  have hx : rexOf (ps ++ [a] ++ [b]) = rexOf (ps ++ [b] ++ [a]) := by
    rw [rexOf_concat, rexOf_concat, if_neg (legacyBytes_not_rex ha), if_neg (legacyBytes_not_rex hb)]
  simp only [prefixesOfRun, hmem, hr, hx]
  simp only [lastOverride_concat, hov]

/-- Settles O20: the exchanged bytes give the same prefixes. -/
theorem legacyPrefixOrderIsFree : Obligations.LegacyPrefixOrderIsFree := by
  intro mode csD a b ps rest hps ha hb hseg hrep
  have hrun : ∀ c e : Byte, c ∈ legacyBytes → e ∈ legacyBytes → PrefixRun mode (ps ++ [c] ++ [e]) :=
    fun c e hc he => prefixRun_concat (prefixRun_concat (prefixRun_of_legacy hps) (.inl hc)) (.inl he)
  have hdecode := decode_congr_run_eq (hrun a b ha hb) (hrun b a hb ha) (by simp)
    (prefixesOfRun_swap ha hb hseg hrep mode ps) csD rest
  simpa using hdecode

/-! ### Segment overrides (30_encoding.md R56, R70) -/

theorem rexOf_cons_legacy {b : Byte} (h : b ∈ legacyBytes) (pre : List Byte) : rexOf (b :: pre) = rexOf pre := by
  rcases List.eq_nil_or_concat' pre with rfl | ⟨l, c, rfl⟩
  · exact if_neg (legacyBytes_not_rex h)
  · rw [← List.cons_append, rexOf_concat, rexOf_concat]

theorem overrideByte_legacy (g : Seg) : g.overrideByte ∈ legacyBytes := by
  cases g <;> decide

/-- An override in front says its segment and nothing else. -/
theorem prefixesOfRun_override (mode : Mode) (g : Seg) (pre : List Byte) :
    prefixesOfRun mode (g.overrideByte :: pre)
      = { prefixesOfRun mode pre with seg := lastOverride mode (g.overrideByte :: pre) } := by
  have hrep : lastRep (g.overrideByte :: pre) = lastRep pre := by
    rw [lastRep, List.reverse_cons, List.find?_append]
    cases g <;> simp [Seg.overrideByte, lastRep]
  unfold prefixesOfRun
  rw [hrep, rexOf_cons_legacy (overrideByte_legacy g)]
  cases g <;> simp [Seg.overrideByte]

/-- Settles O21: the override changes the segment field of the prefixes, which only the operand's segment reads. -/
theorem segmentOverrideSelects : Obligations.SegmentOverrideSelects := by
  intro mode csD pre store modrm d x m len lock g hpre hd
  obtain ⟨hcol, htop, -, ⟨rest, hform⟩, hseg, rfl, -, rfl, rfl⟩ := movhpd_of_run hpre hd
  refine ⟨hseg, fun hlen => ?_⟩
  have hp := prefixesOfRun_override mode g pre
  have hrun : PrefixRun mode (g.overrideByte :: pre) := List.forall_mem_cons.mpr ⟨.inl (overrideByte_legacy g), hpre⟩
  have hsize : tailBytes mode csD (g.overrideByte :: pre) modrm d = tailBytes mode csD pre modrm d := by
    rw [tailBytes, tailBytes, ← size_run, ← size_run, hp]
    rfl
  have hcol' : (prefixesOfRun mode (g.overrideByte :: pre)).column = .p66 := by rw [hp]; exact hcol
  have hform' : decodeForm mode csD (prefixesOfRun mode (g.overrideByte :: pre)) (topField modrm) (lowField modrm) d
      = some (m.form, rest) := by rw [hp]; exact hform
  have hd' := decode_run_movhpd hrun hcol' htop hform' (by rw [hsize, List.length_cons]; omega) store
  have hrex : rexBit (g.overrideByte :: pre) 2 = rexBit pre 2 := by rw [← rexR_run mode, ← rexR_run mode, hp]; rfl
  have hlock : decide (0xF0#8 ∈ g.overrideByte :: pre) = decide (0xF0#8 ∈ pre) := congrArg Prefixes.lock hp
  rw [hsize, hrex, hlock, List.length_cons] at hd'
  rw [hd']
  congr 2
  omega

/-! ### REX bytes (30_encoding.md R58, R59) -/

theorem extractLsb'_rexByte (bits : BitVec 4) : (4#4 ++ bits : Byte).extractLsb' 4 4 = 4#4 := by
  revert bits
  decide

theorem extractLsb'_rexByte_fields (w : BitVec 1) (rxb : BitVec 3) :
    (4#4 ++ w ++ rxb : Byte).extractLsb' 4 4 = 4#4 := by
  revert w rxb
  decide

/-- A legacy byte after a REX byte undoes it. -/
theorem prefixesOfRun_rex_legacy {r p : Byte} (hr : r.extractLsb' 4 4 = 4#4) (hp : p ∈ legacyBytes) (mode : Mode)
    (ps : List Byte) : prefixesOfRun mode (ps ++ [r] ++ [p]) = prefixesOfRun mode (ps ++ [p]) := by
  have hr' := addLegacy_prefixesOfRun hp mode (ps ++ [r])
  rw [prefixesOfRun_concat_rex hr] at hr'
  exact Option.some.inj (hr'.symm.trans (addLegacy_prefixesOfRun hp mode ps))

/-- Outside 64-bit mode the byte that would be REX is the opcode. -/
theorem decode_rex_otherOpcode {mode : Mode} (hm : mode ≠ .long64) {ps : List Byte} (hps : PrefixRun mode ps)
    (hl : ps.length < 15) {r : Byte} (hr : r.extractLsb' 4 4 = 4#4) (csD : Bool) (rest : List Byte) :
    decode mode csD (ps ++ r :: rest) = .otherOpcode := by
  obtain ⟨n, hn⟩ : ∃ n, 15 - ps.length = n + 1 := ⟨14 - ps.length, by omega⟩
  have hadd := add_eq_none (fun hb => legacyBytes_not_rex hb hr) (fun h => absurd h hm) (prefixesOfRun mode ps)
  have hne : r ≠ 0x0F#8 := fun h => by rw [h] at hr; cases hr
  rw [decode, show Config.maxInsnBytes = 15 from rfl, List.take_append, List.take_of_length_le (by omega), hn,
    List.take_succ_cons, scanPrefixes_run hps, scanPrefixes, hadd]
  exact if_neg hne

/-- REX.W is not read. -/
theorem prefixesAgree_rexW (mode : Mode) (ps : List Byte) (rxb : BitVec 3) :
    PrefixesAgree (prefixesOfRun mode (ps ++ [4#4 ++ 0#1 ++ rxb])) (prefixesOfRun mode (ps ++ [4#4 ++ 1#1 ++ rxb])) := by
  rw [prefixesOfRun_concat_rex (extractLsb'_rexByte_fields 0#1 rxb),
    prefixesOfRun_concat_rex (extractLsb'_rexByte_fields 1#1 rxb)]
  have hbits : ∀ rxb : BitVec 3, ∀ k < 3, ((4#4 ++ 0#1 ++ rxb : Byte).extractLsb' 0 4).extractLsb' k 1
      = ((4#4 ++ 1#1 ++ rxb : Byte).extractLsb' 0 4).extractLsb' k 1 := by decide
  exact ⟨rfl, rfl, rfl, rfl, rfl, hbits rxb 2 (by decide), hbits rxb 1 (by decide), hbits rxb 0 (by decide)⟩

/-- REX 40H says what no REX byte says. -/
theorem prefixesAgree_rex40 {mode : Mode} {ps : List Byte} (h : rexOf ps = none) :
    PrefixesAgree (prefixesOfRun mode ps) (prefixesOfRun mode (ps ++ [0x40#8])) := by
  rw [prefixesOfRun_concat_rex (by decide)]
  have hrex : (prefixesOfRun mode ps).rex = none := h
  refine ⟨rfl, rfl, rfl, rfl, rfl, ?_, ?_, ?_⟩ <;> simp [Prefixes.rexR, Prefixes.rexX, Prefixes.rexB, hrex]

theorem rexOf_of_legacy {ps : List Byte} (h : ∀ p ∈ ps, p ∈ legacyBytes) : rexOf ps = none :=
  rexOf_legacy (mode := .prot) (by decide) (prefixRun_of_legacy h)

/-- REX 40H before the opcode leaves a MOVHPD as it was, one byte longer. -/
theorem decode_rex40 {csD : Bool} {ps rest : List Byte} (hps : ∀ p ∈ ps, p ∈ legacyBytes) {store : Bool} {x : RegNo}
    {m : MemOp} {len : Nat} {lock : Bool} (hlen : len < 15)
    (hd : decode .long64 csD (ps ++ 0x0F#8 :: rest) = .instr (movhpdForm store x m len lock)) :
    decode .long64 csD (ps ++ 0x40#8 :: 0x0F#8 :: rest) = .instr (movhpdForm store x m (len + 1) lock) := by
  obtain ⟨pre, op, modrm, d, hpre, he⟩ := run_of_decode hd
  obtain ⟨rfl, rfl⟩ := prefixRun_unique (prefixRun_of_legacy hps) hpre he
  obtain ⟨hcol, htop, rfl, ⟨rest, hform⟩, hseg, rfl, -, rfl, rfl⟩ := movhpd_of_run hpre hd
  have hagree := prefixesAgree_rex40 (mode := .long64) (rexOf_of_legacy hps)
  have hrun : PrefixRun .long64 (ps ++ [0x40#8]) := prefixRun_concat hpre (.inr ⟨rfl, by decide⟩)
  have hsize : tailBytes .long64 csD (ps ++ [0x40#8]) modrm d = tailBytes .long64 csD ps modrm d := by
    simp [tailBytes, sizeOf]
  have hd' := decode_run_movhpd hrun (hagree.column ▸ hcol) htop
    ((decodeForm_congr hagree.addrSize hagree.rexX hagree.rexB ..).symm.trans hform)
    (by rw [hsize, List.length_append, List.length_singleton]; omega) store
  have hov : lastOverride .long64 (ps ++ [0x40#8]) = lastOverride .long64 ps := hagree.seg.symm
  have hlock : decide (0xF0#8 ∈ ps ++ [0x40#8]) = decide (0xF0#8 ∈ ps) := hagree.lock.symm
  rw [hsize, ← rexR_run .long64, ← hagree.rexR, rexR_run, hlock, hov, List.length_append, List.length_singleton,
    ← hseg, List.append_assoc] at hd'
  rw [show ps ++ 0x40#8 :: 0x0F#8 :: opByte store :: modrm :: d
    = ps ++ ([0x40#8] ++ 0x0F#8 :: opByte store :: modrm :: d) from rfl, hd']
  congr 2
  omega

/-- Settles O22, clause by clause. -/
theorem rexByteCountsOnlyBeforeTheOpcode : Obligations.RexByteCountsOnlyBeforeTheOpcode := by
  intro mode csD ps rest bits p hps hp
  have hrex := extractLsb'_rexByte bits
  refine ⟨fun hm hl => decode_rex_otherOpcode hm (prefixRun_of_legacy hps) hl hrex csD rest, ?_, fun rxb => ?_,
    fun store x m len lock hlen hd => decode_rex40 hps hlen hd⟩
  · have hleg : PrefixRun .long64 ps := prefixRun_of_legacy hps
    have h1 := scanPrefixes_run (prefixRun_concat (prefixRun_concat hleg (.inr ⟨rfl, hrex⟩)) (.inl hp)) rest
    have h2 := scanPrefixes_run (prefixRun_concat hleg (.inl hp)) rest
    rw [prefixesOfRun_rex_legacy hrex hp] at h1
    simpa using h1.trans h2.symm
  · have hrun : ∀ w : BitVec 1, PrefixRun .long64 (ps ++ [4#4 ++ w ++ rxb]) := fun w =>
      prefixRun_concat (prefixRun_of_legacy hps) (.inr ⟨rfl, extractLsb'_rexByte_fields w rxb⟩)
    simpa using decode_congr_run_0F (hrun 0#1) (hrun 1#1) (by simp) (prefixesAgree_rexW .long64 ps rxb) csD rest

end Sys2Proof.Machine
end

