-- ==== Sys2Proof/Proofs/EncodedForms.lean ====
section
/-! SUPPORT. The encoder against the decoder, part by part: displacements, addressing forms and prefixes. -/

namespace Sys2Proof.Machine

/-! ## Displacements (30_encoding.md R69) -/

theorem dispToBytes_length (n : Nat) (d : Quad) : (dispToBytes n d).length = n := by
  induction n generalizing d with
  | zero => rfl
  | succ n ih => rw [dispToBytes, List.length_cons, ih]

theorem takeDisp8_dispToBytes {d : Quad} (h : fitsDisp8 d = true) (rest : List Byte) :
    takeDisp8 (dispToBytes 1 d ++ rest) = some (d, rest) := by
  have hd : (d.setWidth 8).signExtend 64 = d := eq_of_beq h
  simp [dispToBytes, takeDisp8, hd]

/-- The low `w + 8` bits are the low byte with the `w` bits above it before it. -/
theorem setWidth_append_byte (w : Nat) (d : Quad) : (d >>> 8).setWidth w ++ d.setWidth 8 = d.setWidth (w + 8) := by
  refine BitVec.eq_of_getLsbD_eq fun j hj => ?_
  rw [BitVec.getLsbD_append, BitVec.getLsbD_setWidth, BitVec.getLsbD_setWidth, BitVec.getLsbD_setWidth,
    BitVec.getLsbD_ushiftRight]
  by_cases h8 : j < 8
  · simp [h8, hj]
  · simp [h8, hj, show j - 8 < w by omega, show 8 + (j - 8) = j by omega]

theorem takeDisp16_dispToBytes {d : Quad} (h : fitsDisp16 d = true) (rest : List Byte) :
    takeDisp16 (dispToBytes 2 d ++ rest) = some (d, rest) := by
  have hd : (d.setWidth 16).signExtend 64 = d := eq_of_beq h
  simp only [dispToBytes, takeDisp16, List.cons_append, List.nil_append]
  rw [setWidth_append_byte 8, hd]

theorem takeDisp32_dispToBytes {d : Quad} (h : fitsDisp32 d = true) (rest : List Byte) :
    takeDisp32 (dispToBytes 4 d ++ rest) = some (d, rest) := by
  have hd : (d.setWidth 32).signExtend 64 = d := eq_of_beq h
  simp only [dispToBytes, takeDisp32, List.cons_append, List.nil_append]
  rw [setWidth_append_byte 8, setWidth_append_byte 16, setWidth_append_byte 24, hd]

theorem modOfDisp_eq_zero {n : Nat} : modOfDisp n = 0#2 ↔ n = 0 := by
  unfold modOfDisp
  split_ifs <;> simp [*]

theorem modOfDisp_ne_three (n : Nat) : modOfDisp n ≠ 3#2 := by
  unfold modOfDisp
  split_ifs <;> decide

/-- The displacement beside a base register is read back, `wide` bytes of it where one byte does not hold it. -/
theorem dispByMod_dispToBytes {k : Nat} (hk : 2 ≤ k) {wide : List Byte → Option (Quad × List Byte)} {d : Quad}
    {rest : List Byte} (hw : wide (dispToBytes k d ++ rest) = some (d, rest)) {zero : Prop} [Decidable zero]
    (hz : zero → d = 0#64) :
    dispByMod wide (modOfDisp (if zero then 0 else if fitsDisp8 d then 1 else k))
        (dispToBytes (if zero then 0 else if fitsDisp8 d then 1 else k) d ++ rest) = some (d, rest) := by
  by_cases h0 : zero
  · simp [h0, modOfDisp, dispByMod, dispToBytes, hz h0]
  by_cases h8 : fitsDisp8 d = true
  · simpa [h0, h8, modOfDisp, dispByMod] using takeDisp8_dispToBytes h8 rest
  · simpa [h0, h8, modOfDisp, dispByMod, show k ≠ 0 by omega, show k ≠ 1 by omega] using hw

/-! ## The fields of a byte (30_encoding.md R50) -/

@[simp] theorem topField_append (a : BitVec 2) (b c : BitVec 3) : topField (a ++ b ++ c) = a := by
  revert a b c
  decide

@[simp] theorem midField_append (a : BitVec 2) (b c : BitVec 3) : midField (a ++ b ++ c) = b := by
  revert a b c
  decide

@[simp] theorem lowField_append (a : BitVec 2) (b c : BitVec 3) : lowField (a ++ b ++ c) = c := by
  revert a b c
  decide

/-- A register number is its REX bit and its low bits. -/
theorem regNo_highReg (r : RegNo) : regNo (BitVec.ofBool (highReg r)) (lowBits r) = r := by
  revert r
  decide

/-! ## 16-bit forms (30_encoding.md R65) -/

theorem rm16Of_some {base : Option RegNo} {index : Option (RegNo × BitVec 2)} {rm : BitVec 3}
    (h : rm16Of base index = some rm) : base = some (regs16 rm).1 ∧ index = (regs16 rm).2 := by
  unfold rm16Of at h
  split_ifs at h
  all_goals
    cases h
    simp_all [regs16]

theorem rm16Of_none (index : Option (RegNo × BitVec 2)) : rm16Of none index = none := by
  simp [rm16Of]

theorem encodable_a16_iff {mode : Mode} {f : AddrForm} (hs : f.size = .a16) :
    f.encodable mode = true ↔ mode ≠ .long64 ∧ f.ipRel = false ∧ fitsDisp16 f.disp = true
      ∧ ((f.base = none ∧ f.index = none) ∨ ∃ rm, rm16Of f.base f.index = some rm) := by
  simp [AddrForm.encodable, hs, and_assoc, Option.isSome_iff_exists]

theorem form16_encoded {mode : Mode} {f : AddrForm} (hs : f.size = .a16) (h : f.encodable mode = true)
    (rest : List Byte) :
    form16 (f.modRm mode).1 (f.modRm mode).2 (f.sibBytes mode ++ dispToBytes f.dispBytes f.disp ++ rest)
      = some (f, rest) := by
  obtain ⟨size, base, index, disp, ipRel⟩ := f
  dsimp only at hs
  subst hs
  obtain ⟨-, hrel, h16, hregs⟩ := (encodable_a16_iff rfl).mp h
  dsimp only at hrel h16 hregs
  subst hrel
  have hread := takeDisp16_dispToBytes h16 rest
  cases base with
  | none =>
    obtain rfl : index = none := by simpa [rm16Of_none] using hregs
    simp [form16, AddrForm.modRm, AddrForm.sibBytes, AddrForm.needsSib, AddrForm.dispBytes, hread, formOf]
  | some b =>
    obtain ⟨rm, hrm⟩ : ∃ rm, rm16Of (some b) index = some rm := by simpa using hregs
    obtain ⟨hb, hi⟩ := rm16Of_some hrm
    have hdisp := dispByMod_dispToBytes (zero := disp = 0#64 ∧ rm ≠ 6#3) (by decide) hread And.left
    have hsix : ¬ (modOfDisp (if disp = 0#64 ∧ rm ≠ 6#3 then 0 else if fitsDisp8 disp then 1 else 2) = 0#2 ∧ rm = 6#3) := by
      rw [modOfDisp_eq_zero]
      rintro ⟨h0, rfl⟩
      split_ifs at h0
      simp_all
    simp only [form16, AddrForm.modRm, AddrForm.sibBytes, AddrForm.needsSib, AddrForm.dispBytes, hrm,
      Option.getD_some, reduceCtorEq, if_false, Bool.false_eq_true, List.nil_append, ne_eq, Option.some.injEq] at hdisp hsix ⊢
    rw [if_neg hsix, hdisp]
    simp [formOf, ← hb, ← hi]

/-! ## 32- and 64-bit forms (30_encoding.md R66 to R68) -/

theorem encodable_wide_iff {mode : Mode} {f : AddrForm} (hs : f.size ≠ .a16) :
    f.encodable mode = true ↔ fitsDisp32 f.disp = true
      ∧ (∀ b, f.base = some b → regNameable mode b = true)
      ∧ (∀ i s, f.index = some (i, s) → regNameable mode i = true ∧ i ≠ 4#4)
      ∧ (f.ipRel = true → mode = .long64 ∧ f.base = none ∧ f.index = none) := by
  obtain ⟨size, base, index, disp, ipRel⟩ := f
  cases size with
  | a16 => exact absurd rfl hs
  | a32 | a64 =>
    cases base <;> rcases index with _ | ⟨i, scale⟩ <;> cases ipRel <;> simp [AddrForm.encodable, and_assoc]

/-- Whether a base takes its fourth bit from REX. -/
def highBase : Option RegNo → Bool
  | some b => highReg b
  | none => false

/-- Whether an index takes its fourth bit from REX. -/
def highIndex : Option (RegNo × BitVec 2) → Bool
  | some (i, _) => highReg i
  | none => false

/-- The field of a base register, in ModR/M or SIB: 101B says none. -/
def baseField : Option RegNo → BitVec 3
  | none => 5#3
  | some b => lowBits b

/-- The displacement bytes of a 32- or 64-bit form. -/
def wideBytes : Option RegNo → Quad → Nat
  | none, _ => 4
  | some b, d => if d = 0#64 ∧ lowBits b ≠ 5#3 then 0 else if fitsDisp8 d then 1 else 4

/-- mod of a 32- or 64-bit form. -/
def wideMod : Option RegNo → Quad → BitVec 2
  | none, _ => 0#2
  | some b, d => modOfDisp (wideBytes (some b) d)

theorem dispBytes_wide {f : AddrForm} (hs : f.size ≠ .a16) : f.dispBytes = wideBytes f.base f.disp := by
  obtain ⟨size, base, index, disp, ipRel⟩ := f
  cases size with
  | a16 => exact absurd rfl hs
  | a32 | a64 => cases base <;> rfl

theorem modRm_wide {f : AddrForm} (hs : f.size ≠ .a16) (mode : Mode) :
    f.modRm mode = (wideMod f.base f.disp, if f.needsSib mode then 4#3 else baseField f.base) := by
  obtain ⟨size, base, index, disp, ipRel⟩ := f
  cases size with
  | a16 => exact absurd rfl hs
  | a32 | a64 => cases base <;> rfl

theorem sibBytes_eq (f : AddrForm) (mode : Mode) :
    f.sibBytes mode
      = if f.needsSib mode then [scaleField f.index ++ indexField f.index ++ baseField f.base] else [] := by
  unfold AddrForm.sibBytes
  cases f.base <;> rfl

/-- An SIB byte is needed for an index, for no base in 64-bit mode, and for a base whose field is 100B. -/
theorem needsSib_wide_iff {f : AddrForm} (hs : f.size ≠ .a16) (mode : Mode) :
    f.needsSib mode = true ↔ f.ipRel = false
      ∧ (f.index ≠ none ∨ (f.base = none ∧ mode = .long64) ∨ ∃ b, f.base = some b ∧ lowBits b = 4#3) := by
  obtain ⟨size, base, index, disp, ipRel⟩ := f
  cases size with
  | a16 => exact absurd rfl hs
  | a32 | a64 => cases base <;> cases index <;> simp [AddrForm.needsSib, lowBits]

/-- The index that an SIB byte's fields and REX.X say. -/
theorem index_encoded {index : Option (RegNo × BitVec 2)} (hi : ∀ i s, index = some (i, s) → i ≠ 4#4) {x : BitVec 1}
    (hx : x = BitVec.ofBool (highIndex index)) :
    (if regNo x (indexField index) = 4#4 then none else some (regNo x (indexField index), scaleField index))
      = index := by
  subst hx
  cases index with
  | none => rfl
  | some r =>
    obtain ⟨i, s⟩ := r
    simp only [indexField, scaleField, highIndex, regNo_highReg]
    rw [if_neg (hi i s rfl)]

/-- The displacement beside a base register is read back, and mod = 00B stands with no base field 101B. -/
theorem dispByMod_wide {d : Quad} (h32 : fitsDisp32 d = true) (b : RegNo) (rest : List Byte) :
    dispByMod takeDisp32 (wideMod (some b) d) (dispToBytes (wideBytes (some b) d) d ++ rest) = some (d, rest)
      ∧ ¬ (wideMod (some b) d = 0#2 ∧ lowBits b = 5#3) := by
  refine ⟨dispByMod_dispToBytes (by decide) (takeDisp32_dispToBytes h32 rest) And.left, ?_⟩
  rw [wideMod, modOfDisp_eq_zero, wideBytes]
  rintro ⟨h0, h5⟩
  split_ifs at h0
  simp_all

/-- An SIB form is read back. -/
theorem formSib_encoded (size : AddrSize) {base : Option RegNo} {index : Option (RegNo × BitVec 2)} {d : Quad}
    {p : Prefixes} (h32 : fitsDisp32 d = true) (hi : ∀ i s, index = some (i, s) → i ≠ 4#4)
    (hx : p.rexX = BitVec.ofBool (highIndex index)) (hb : p.rexB = BitVec.ofBool (highBase base)) (rest : List Byte) :
    formSib size p (wideMod base d)
        ((scaleField index ++ indexField index ++ baseField base) :: (dispToBytes (wideBytes base d) d ++ rest))
      = some (⟨size, base, index, d, false⟩, rest) := by
  simp only [formSib, topField_append, midField_append, lowField_append, index_encoded hi hx]
  cases base with
  | none =>
    rw [if_pos ⟨rfl, rfl⟩, wideBytes, takeDisp32_dispToBytes h32]
    rfl
  | some b =>
    obtain ⟨hread, hfive⟩ := dispByMod_wide h32 b rest
    rw [baseField, if_neg hfive, hread, hb, highBase, regNo_highReg]
    rfl

theorem form32_encoded {mode : Mode} {f : AddrForm} (hs : f.size ≠ .a16) (h : f.encodable mode = true)
    {p : Prefixes} (hx : p.rexX = BitVec.ofBool (highIndex f.index)) (hb : p.rexB = BitVec.ofBool (highBase f.base))
    (rest : List Byte) :
    form32 f.size (mode == .long64) p (f.modRm mode).1 (f.modRm mode).2
        (f.sibBytes mode ++ dispToBytes f.dispBytes f.disp ++ rest) = some (f, rest) := by
  obtain ⟨h32, -, hi, hip⟩ := (encodable_wide_iff hs).mp h
  rw [modRm_wide hs, sibBytes_eq, dispBytes_wide hs, form32]
  by_cases hsib : f.needsSib mode = true
  · simp only [hsib, if_true]
    have hrel := ((needsSib_wide_iff hs mode).mp hsib).1
    refine (formSib_encoded f.size h32 (fun i s hf => (hi i s hf).2) hx hb rest).trans ?_
    rw [← hrel]
  · rw [if_neg hsib, if_neg hsib, List.nil_append]
    rw [needsSib_wide_iff hs] at hsib
    obtain ⟨size, base, index, disp, ipRel⟩ := f
    dsimp only at *
    cases base with
    | none =>
      have hrel : index = none ∧ ipRel = (mode == .long64) := by
        cases ipRel with
        | true =>
          obtain ⟨rfl, -, rfl⟩ := hip rfl
          exact ⟨rfl, rfl⟩
        | false =>
          obtain ⟨hidx, hlong⟩ : index = none ∧ mode ≠ .long64 := by simpa [not_or] using hsib
          exact ⟨hidx, (beq_eq_false_iff_ne.mpr hlong).symm⟩
      obtain ⟨rfl, rfl⟩ := hrel
      rw [baseField, if_neg (by decide), wideMod, if_pos ⟨rfl, rfl⟩, wideBytes, takeDisp32_dispToBytes h32]
      rfl
    | some b =>
      obtain rfl : ipRel = false := by
        by_contra hne
        exact absurd (hip (by simpa using hne)).2.1 nofun
      obtain ⟨rfl, hfour⟩ : index = none ∧ lowBits b ≠ 4#3 := by simpa [not_or] using hsib
      obtain ⟨hread, hfive⟩ := dispByMod_wide h32 b rest
      rw [baseField, if_neg hfour, if_neg hfive, hread, hb, highBase, regNo_highReg]
      rfl

/-- The decoder reads back the form that the encoder writes. -/
theorem decodeForm_encoded {mode : Mode} {csD : Bool} {f : AddrForm} (h : f.encodable mode = true) {p : Prefixes}
    (hs : p.size mode csD = f.size) (hx : p.rexX = BitVec.ofBool (highIndex f.index))
    (hb : p.rexB = BitVec.ofBool (highBase f.base)) (rest : List Byte) :
    decodeForm mode csD p (f.modRm mode).1 (f.modRm mode).2
        (f.sibBytes mode ++ dispToBytes f.dispBytes f.disp ++ rest) = some (f, rest) := by
  unfold decodeForm
  rw [hs]
  cases hsize : f.size with
  | a16 => exact form16_encoded hsize h rest
  | a32 | a64 =>
    have hwide : f.size ≠ .a16 := by rw [hsize]; decide
    have hform := form32_encoded hwide h hx hb rest
    rwa [hsize] at hform

theorem modRm_ne_three (f : AddrForm) (mode : Mode) : (f.modRm mode).1 ≠ 3#2 := by
  unfold AddrForm.modRm
  cases f.base with
  | none => cases f.size <;> exact (by decide : (0#2 : BitVec 2) ≠ 3#2)
  | some b => cases f.size <;> exact modOfDisp_ne_three _

/-! ## Prefixes (30_encoding.md R51 to R59) -/

/-- The mandatory byte of a column of the opcode map. -/
def mandatoryOf : Column → List Byte
  | .plain => []
  | .p66 => [0x66#8]
  | .pF3 => [0xF3#8]
  | .pF2 => [0xF2#8]

/-- The prefixes that the encoder writes: fill bytes, the mandatory byte, REX. -/
def encodedPrefixes (c : Column) (pad : Nat) (g : Seg) (other lock r x b : Bool) : List Byte :=
  fillBytes pad g other lock ++ mandatoryOf c ++ rexBytes r x b

theorem encodedPrefixes_length (c : Column) (pad : Nat) (g : Seg) (other lock r x b : Bool) :
    (encodedPrefixes c pad g other lock r x b).length
      = pad + (if other then 1 else 0) + (if lock then 1 else 0) + (mandatoryOf c).length
          + (if r || x || b then 1 else 0) := by
  cases other <;> cases lock <;> cases hrex : r || x || b <;>
    simp [encodedPrefixes, fillBytes, rexBytes, hrex] <;> omega

/-- Fill bytes and mandatory byte are legacy prefixes. -/
theorem fill_legacy (c : Column) (pad : Nat) (g : Seg) (other lock : Bool) :
    ∀ p ∈ fillBytes pad g other lock ++ mandatoryOf c, p ∈ legacyBytes := by
  intro p hp
  simp only [fillBytes, List.mem_append, List.mem_replicate] at hp
  rcases hp with (((⟨-, rfl⟩) | hp) | hp) | hp
  · exact overrideByte_legacy g
  · cases other <;> simp_all [legacyBytes]
  · cases lock <;> simp_all [legacyBytes]
  · cases c <;> simp_all [mandatoryOf, legacyBytes]

theorem encodedPrefixes_run {mode : Mode} {r x b : Bool} (hrex : (r || x || b) = true → mode = .long64) (c : Column)
    (pad : Nat) (g : Seg) (other lock : Bool) : PrefixRun mode (encodedPrefixes c pad g other lock r x b) := by
  have hfill : PrefixRun mode (fillBytes pad g other lock ++ mandatoryOf c) :=
    prefixRun_of_legacy (fill_legacy c pad g other lock)
  unfold encodedPrefixes rexBytes
  split
  next h =>
    exact prefixRun_concat hfill (.inr ⟨hrex h, extractLsb'_rexByte _⟩)
  next => rwa [List.append_nil]

theorem lastOverride_append (mode : Mode) (pre more : List Byte) :
    lastOverride mode (pre ++ more) = (lastOverride mode more).or (lastOverride mode pre) := by
  simp only [lastOverride, List.reverse_append, List.findSome?_append]

theorem lastRep_append (pre more : List Byte) : lastRep (pre ++ more) = (lastRep more).or (lastRep pre) := by
  simp only [lastRep, List.reverse_append, List.find?_append]

/-- The fill bytes say a segment, 67H and F0H, and leave the column to the mandatory byte. -/
theorem lastOverride_fill (mode : Mode) (pad : Nat) (g : Seg) (other lock : Bool) :
    lastOverride mode (fillBytes pad g other lock) = if pad = 0 then none else overrideOf mode g.overrideByte := by
  have hpad : lastOverride mode (List.replicate pad g.overrideByte)
      = if pad = 0 then none else overrideOf mode g.overrideByte := by
    simp only [lastOverride, List.reverse_replicate, List.findSome?_replicate]
  have hother : lastOverride mode (if other then [0x67#8] else []) = none := by cases other <;> cases mode <;> rfl
  have hlock : lastOverride mode (if lock then [0xF0#8] else []) = none := by cases lock <;> cases mode <;> rfl
  rw [fillBytes, lastOverride_append, lastOverride_append, hpad, hother, hlock]
  rfl

theorem mem_fillBytes {pad : Nat} {g : Seg} {other lock : Bool} {c : Byte} (hc : c ≠ g.overrideByte) :
    c ∈ fillBytes pad g other lock ↔ (other = true ∧ c = 0x67#8) ∨ (lock = true ∧ c = 0xF0#8) := by
  cases other <;> cases lock <;> simp [fillBytes, hc]

theorem overrideByte_ne (g : Seg) : 0x66#8 ≠ g.overrideByte ∧ 0x67#8 ≠ g.overrideByte ∧ 0xF0#8 ≠ g.overrideByte
    ∧ 0xF2#8 ≠ g.overrideByte ∧ 0xF3#8 ≠ g.overrideByte := by
  cases g <;> decide

/-- What the fill bytes and the mandatory byte say. -/
theorem prefixesOfRun_fill (mode : Mode) (c : Column) (pad : Nat) (g : Seg) (other lock : Bool) :
    (prefixesOfRun mode (fillBytes pad g other lock ++ mandatoryOf c)).seg
        = (if pad = 0 then none else overrideOf mode g.overrideByte)
      ∧ (prefixesOfRun mode (fillBytes pad g other lock ++ mandatoryOf c)).addrSize = other
      ∧ (prefixesOfRun mode (fillBytes pad g other lock ++ mandatoryOf c)).lock = lock
      ∧ (prefixesOfRun mode (fillBytes pad g other lock ++ mandatoryOf c)).column = c := by
  obtain ⟨h66, h67, hF0, hF2, hF3⟩ := overrideByte_ne g
  have hrep : lastRep (fillBytes pad g other lock) = none := by
    rw [lastRep_eq_none_iff, mem_fillBytes hF2, mem_fillBytes hF3]
    simp
  have hseg : lastOverride mode (mandatoryOf c) = none := by cases c <;> cases mode <;> rfl
  refine ⟨?_, ?_, ?_, ?_⟩
  · exact (lastOverride_append ..).trans (by rw [hseg, lastOverride_fill]; rfl)
  · simp only [prefixesOfRun, List.mem_append, mem_fillBytes h67]
    cases c <;> simp [mandatoryOf]
  · simp only [prefixesOfRun, List.mem_append, mem_fillBytes hF0]
    cases c <;> simp [mandatoryOf]
  · simp only [Prefixes.column, prefixesOfRun, List.mem_append, mem_fillBytes h66, lastRep_append, hrep]
    cases c <;> simp [mandatoryOf, lastRep, repOf]

/-- REX comes last, and says its own bits alone. -/
theorem prefixesOfRun_rexBytes (mode : Mode) {ps : List Byte} (hps : ∀ p ∈ ps, p ∈ legacyBytes) (r x b : Bool) :
    ∃ rex, prefixesOfRun mode (ps ++ rexBytes r x b) = { prefixesOfRun mode ps with rex := rex }
      ∧ (rex.getD 0#4).extractLsb' 2 1 = BitVec.ofBool r ∧ (rex.getD 0#4).extractLsb' 1 1 = BitVec.ofBool x
      ∧ (rex.getD 0#4).extractLsb' 0 1 = BitVec.ofBool b := by
  unfold rexBytes
  split
  next h =>
    refine ⟨_, prefixesOfRun_concat_rex (extractLsb'_rexByte _) mode ps, ?_⟩
    revert r x b
    decide
  next h =>
    simp only [Bool.or_eq_true, not_or, Bool.not_eq_true] at h
    obtain ⟨⟨rfl, rfl⟩, rfl⟩ := h
    refine ⟨rexOf ps, by rw [List.append_nil]; rfl, ?_⟩
    rw [rexOf_of_legacy hps]
    decide

/-- Everything that the encoder's prefixes say. -/
structure SaysPrefixes (mode : Mode) (p : Prefixes) (c : Column) (pad : Nat) (g : Seg) (other lock r x b : Bool) :
    Prop where
  seg : p.seg = if pad = 0 then none else overrideOf mode g.overrideByte
  addrSize : p.addrSize = other
  lock : p.lock = lock
  column : p.column = c
  rexR : p.rexR = BitVec.ofBool r
  rexX : p.rexX = BitVec.ofBool x
  rexB : p.rexB = BitVec.ofBool b

theorem encodedPrefixes_says (mode : Mode) (c : Column) (pad : Nat) (g : Seg) (other lock r x b : Bool) :
    SaysPrefixes mode (prefixesOfRun mode (encodedPrefixes c pad g other lock r x b)) c pad g other lock r x b := by
  obtain ⟨hseg, haddr, hlock, hcol⟩ := prefixesOfRun_fill mode c pad g other lock
  obtain ⟨rex, hp, hr, hx, hb⟩ := prefixesOfRun_rexBytes mode (fill_legacy c pad g other lock) r x b
  rw [encodedPrefixes, hp]
  exact ⟨hseg, haddr, hlock, hcol, hr, hx, hb⟩

end Sys2Proof.Machine
end

