-- ==== Sys2Proof/Proofs/RoundTrip.lean ====
section
/-! SUPPORT. Decoding what the encoder writes gives the instruction back, and it has the instruction's length. -/

namespace Sys2Proof.Machine

/-! ## Well-formed operands (30_encoding.md R51 to R73) -/

theorem wf_mem_iff {mode : Mode} {csD : Bool} {k : Nat} {x : RegNo} {m : MemOp} {len : Nat} {lock : Bool} :
    m.wf mode csD k x len lock = true ↔ regNameable mode x = true ∧ m.form.encodable mode = true
      ∧ (m.form.size = mode.defaultAddrSize csD ∨ m.form.size = mode.otherAddrSize csD)
      ∧ m.segNameable mode = true
      ∧ k + m.bareLength mode csD x lock + (if m.seg = m.form.defaultSeg then 0 else 1) ≤ len ∧ len ≤ 15 := by
  rw [show (15 : Nat) = Config.maxInsnBytes from rfl]
  simp [MemOp.wf, and_assoc]

theorem mode_of_highReg {mode : Mode} {r : RegNo} (h : regNameable mode r = true) (hr : highReg r = true) :
    mode = .long64 := by
  revert r
  cases mode <;> decide

/-- A form that needs a REX byte is one of 64-bit mode. -/
theorem mode_of_high_form {mode : Mode} {f : AddrForm} (h : f.encodable mode = true)
    (hf : highBase f.base = true ∨ highIndex f.index = true) : mode = .long64 := by
  by_cases hs : f.size = .a16
  · obtain ⟨-, -, -, ⟨hb, hi⟩ | ⟨rm, hrm⟩⟩ := (encodable_a16_iff hs).mp h
    · rw [hb, hi] at hf
      exact hf.elim nofun nofun
    · obtain ⟨hb, hi⟩ := rm16Of_some hrm
      have hlow : ∀ rm, highBase (some (regs16 rm).1) = false ∧ highIndex (regs16 rm).2 = false := by decide
      rw [hb, hi, (hlow rm).1, (hlow rm).2] at hf
      exact hf.elim nofun nofun
  · obtain ⟨-, hb, hi, -⟩ := (encodable_wide_iff hs).mp h
    rcases hf with hf | hf
    · cases hbase : f.base with
      | none => rw [hbase] at hf; cases hf
      | some b => rw [hbase] at hf; exact mode_of_highReg (hb b hbase) hf
    · cases hindex : f.index with
      | none => rw [hindex] at hf; cases hf
      | some r => rw [hindex] at hf; exact mode_of_highReg (hi r.1 r.2 hindex).1 hf

/-! ## Rows with a memory operand -/

/-- The override bytes that fill a memory row to its length. -/
def memPad (mode : Mode) (csD : Bool) (c : Column) (x : RegNo) (m : MemOp) (len : Nat) (lock : Bool) : Nat :=
  len - ((mandatoryOf c).length + m.bareLength mode csD x lock)

/-- The prefixes of an encoded memory row. -/
def memPrefixes (mode : Mode) (csD : Bool) (c : Column) (x : RegNo) (m : MemOp) (len : Nat) (lock : Bool) : List Byte :=
  encodedPrefixes c (memPad mode csD c x m len lock) m.seg (m.form.size != mode.defaultAddrSize csD) lock (highReg x)
    (highIndex m.form.index) (highBase m.form.base)

theorem encodeMem_eq (mode : Mode) (csD : Bool) (c : Column) (op : Byte) (x : RegNo) (m : MemOp) (len : Nat)
    (lock : Bool) :
    encodeMem mode csD (mandatoryOf c) op x m len lock
      = memPrefixes mode csD c x m len lock
          ++ 0x0F#8 :: op :: ((m.form.modRm mode).1 ++ lowBits x ++ (m.form.modRm mode).2)
            :: (m.form.sibBytes mode ++ dispToBytes m.form.dispBytes m.form.disp) := by
  simp only [memPrefixes, encodedPrefixes, memPad, encodeMem, List.append_assoc, List.cons_append, List.nil_append]
  rfl

theorem memPrefixes_length {mode : Mode} {csD : Bool} {c : Column} {x : RegNo} {m : MemOp} {len : Nat} {lock : Bool}
    (h : m.wf mode csD (mandatoryOf c).length x len lock = true) :
    (memPrefixes mode csD c x m len lock).length + 3 + (m.form.sibBytes mode).length + m.form.dispBytes = len := by
  obtain ⟨-, -, -, -, hlen, -⟩ := wf_mem_iff.mp h
  have hneeds : (highReg x || m.form.needsRex) = (highReg x || highIndex m.form.index || highBase m.form.base) := by
    rw [Bool.or_assoc, Bool.or_comm (highIndex _)]
    rfl
  have hsib : (m.form.sibBytes mode).length = if m.form.needsSib mode then 1 else 0 := by
    rw [sibBytes_eq]
    split <;> rfl
  have hsize : (if m.form.size = mode.defaultAddrSize csD then 0 else 1)
      = if (m.form.size != mode.defaultAddrSize csD) = true then 1 else 0 := by
    by_cases hs : m.form.size = mode.defaultAddrSize csD <;> simp [hs]
  rw [memPrefixes, encodedPrefixes_length, memPad, hsib]
  rw [MemOp.bareLength, hneeds, hsize] at hlen ⊢
  omega

/-- The segment of the operand is said by the fill bytes, or it is the default. -/
theorem seg_encoded {mode : Mode} {m : MemOp} {pad : Nat} (h : m.segNameable mode = true)
    (hpad : pad = 0 → m.seg = m.form.defaultSeg) :
    ((if pad = 0 then none else overrideOf mode m.seg.overrideByte).getD m.form.defaultSeg) = m.seg := by
  by_cases h0 : pad = 0
  · simp [h0, hpad h0]
  rw [if_neg h0]
  simp only [MemOp.segNameable, Bool.or_eq_true, bne_iff_ne, beq_iff_eq] at h
  by_cases hd : m.seg = m.form.defaultSeg
  · rw [← hd]
    cases m.seg <;> cases mode <;> rfl
  · rcases h with ((h | h) | h) | h
    · cases m.seg <;> simp [overrideOf, Seg.overrideByte, h]
    · rw [h]; rfl
    · rw [h]; rfl
    · exact absurd h hd

theorem decode_encodeMem {mode : Mode} {csD : Bool} {c : Column} {store : Bool} {x : RegNo} {m : MemOp} {len : Nat}
    {lock : Bool} {mk : RegNo → Bool → MemOp → Nat → Instr}
    (hrow : ∀ p modrm, p.column = c → topField modrm ≠ 3#2 →
      rowOf store p modrm = .mem (mk (regNo p.rexR (midField modrm)) p.lock))
    (h : m.wf mode csD (mandatoryOf c).length x len lock = true) (rest : List Byte) :
    decode mode csD (encodeMem mode csD (mandatoryOf c) (opByte store) x m len lock ++ rest)
      = .instr (mk x lock m len) := by
  obtain ⟨hx, henc, hsize, hseg, hlen, hmax⟩ := wf_mem_iff.mp h
  have hlength := memPrefixes_length h
  have hsays : SaysPrefixes mode (prefixesOfRun mode (memPrefixes mode csD c x m len lock)) .. :=
    encodedPrefixes_says mode c _ m.seg _ lock _ _ _
  have hrun : PrefixRun mode (memPrefixes mode csD c x m len lock) := by
    refine encodedPrefixes_run (fun hrex => ?_) _ _ _ _ _
    simp only [Bool.or_eq_true] at hrex
    rcases hrex with (hr | hi) | hb
    · exact mode_of_highReg hx hr
    · exact mode_of_high_form henc (.inr hi)
    · exact mode_of_high_form henc (.inl hb)
  have hpsize : (prefixesOfRun mode (memPrefixes mode csD c x m len lock)).size mode csD = m.form.size := by
    rw [Prefixes.size, hsays.addrSize]
    by_cases hs : m.form.size = mode.defaultAddrSize csD
    · simp [hs]
    · rw [if_pos (by simpa using hs), hsize.resolve_left hs]
  have hform := decodeForm_encoded henc hpsize hsays.rexX hsays.rexB rest
  have htail : tailBytes mode csD (memPrefixes mode csD c x m len lock)
      ((m.form.modRm mode).1 ++ lowBits x ++ (m.form.modRm mode).2)
      (m.form.sibBytes mode ++ dispToBytes m.form.dispBytes m.form.disp ++ rest)
      = (m.form.sibBytes mode).length + m.form.dispBytes := by
    have htake := takesBytes_decodeForm mode csD (prefixesOfRun mode (memPrefixes mode csD c x m len lock))
      (m.form.modRm mode).1 (m.form.modRm mode).2
      (m.form.sibBytes mode ++ dispToBytes m.form.dispBytes m.form.disp ++ rest)
    rw [hform, size_run] at htake
    obtain ⟨hn, hrest⟩ := htake.of_some
    have hcount := congrArg List.length hrest
    simp only [List.length_append, List.length_drop, dispToBytes_length] at hn hcount
    rw [tailBytes, topField_append, lowField_append]
    omega
  have hpad : memPad mode csD c x m len lock = 0 → m.seg = m.form.defaultSeg := by
    intro h0
    by_contra hne
    rw [if_neg hne] at hlen
    rw [memPad] at h0
    omega
  have hd := decode_run_mem (csD := csD) hrun
    (hrow _ ((m.form.modRm mode).1 ++ lowBits x ++ (m.form.modRm mode).2) hsays.column
      (by rw [topField_append]; exact modRm_ne_three m.form mode))
    (by rw [topField_append, lowField_append]; exact hform) (by rw [htail]; omega)
  rw [encodeMem_eq, List.append_assoc, List.cons_append, List.cons_append, List.cons_append, hd, htail, ← Nat.add_assoc,
    hlength, midField_append, hsays.rexR, regNo_highReg, hsays.lock,
    show lastOverride mode (memPrefixes mode csD c x m len lock) = _ from hsays.seg, seg_encoded hseg hpad]

/-! ## Rows without one -/

/-- The bytes of a row that ends at its ModR/M byte. -/
def shortBytes (c : Column) (op modrm : Byte) (pad : Nat) (lock r b : Bool) : List Byte :=
  encodedPrefixes c pad .ds false lock r false b ++ [0x0F#8, op, modrm]

theorem encodeRegs_eq (c : Column) (op : Byte) (d s : RegNo) (len : Nat) (lock : Bool) :
    encodeRegs (mandatoryOf c) op d s len lock
      = shortBytes c op (3#2 ++ lowBits d ++ lowBits s)
          (len - ((mandatoryOf c).length + (if lock then 1 else 0) + (if highReg d || highReg s then 1 else 0) + 3)) lock
          (highReg d) (highReg s) := by
  have hrex : (rexBytes (highReg d) false (highReg s)).length = if highReg d || highReg s then 1 else 0 := by
    cases hd : highReg d <;> cases hs : highReg s <;> rfl
  simp only [encodeRegs, hrex]
  rfl

theorem encodeReserved_eq (c : Column) (op modrm : Byte) (len : Nat) :
    encodeReserved (mandatoryOf c) op modrm len
      = shortBytes c op modrm (len - ((mandatoryOf c).length + 3)) false false false := by
  simp only [shortBytes, encodedPrefixes, rexBytes, encodeReserved, Bool.or_self, Bool.false_eq_true, if_false,
    List.append_nil]

theorem shortBytes_length (c : Column) (op modrm : Byte) (pad : Nat) (lock r b : Bool) :
    (shortBytes c op modrm pad lock r b).length
      = pad + (if lock then 1 else 0) + (mandatoryOf c).length + (if r || b then 1 else 0) + 3 := by
  simp [shortBytes, encodedPrefixes_length]

theorem decode_shortBytes {mode : Mode} {c : Column} {store : Bool} {modrm : Byte} {pad : Nat} {lock r b : Bool}
    {mk : BitVec 1 → BitVec 1 → Bool → Nat → Instr}
    (hrow : ∀ p, p.column = c → rowOf store p modrm = .short (mk p.rexR p.rexB p.lock))
    (hrex : (r || b) = true → mode = .long64) (hl : (shortBytes c (opByte store) modrm pad lock r b).length ≤ 15)
    (csD : Bool) (rest : List Byte) :
    decode mode csD (shortBytes c (opByte store) modrm pad lock r b ++ rest)
      = .instr (mk (BitVec.ofBool r) (BitVec.ofBool b) lock (shortBytes c (opByte store) modrm pad lock r b).length) := by
  have hrun : PrefixRun mode (encodedPrefixes c pad .ds false lock r false b) :=
    encodedPrefixes_run (by simpa using hrex) _ _ _ _ _
  have hsays := encodedPrefixes_says mode c pad .ds false lock r false b
  rw [shortBytes, List.length_append] at hl ⊢
  have hd := decode_run_short hrun hl (hrow _ hsays.column) csD rest
  rw [hsays.rexR, hsays.rexB, hsays.lock] at hd
  rw [List.append_assoc]
  exact hd

theorem wfRegs_iff {mode : Mode} {k : Nat} {d s : RegNo} {len : Nat} {lock : Bool} :
    wfRegs mode k d s len lock = true ↔ regNameable mode d = true ∧ regNameable mode s = true
      ∧ k + (if lock then 1 else 0) + (if highReg d || highReg s then 1 else 0) + 3 ≤ len ∧ len ≤ 15 := by
  rw [show (15 : Nat) = Config.maxInsnBytes from rfl]
  simp [wfRegs, and_assoc]

theorem wfReserved_iff {k len : Nat} : wfReserved k len = true ↔ k + 3 ≤ len ∧ len ≤ 15 := by
  rw [show (15 : Nat) = Config.maxInsnBytes from rfl]
  simp [wfReserved]

theorem encodeRegs_length {mode : Mode} {c : Column} {op : Byte} {d s : RegNo} {len : Nat} {lock : Bool}
    (h : wfRegs mode (mandatoryOf c).length d s len lock = true) :
    (encodeRegs (mandatoryOf c) op d s len lock).length = len := by
  obtain ⟨-, -, hlen, -⟩ := wfRegs_iff.mp h
  rw [encodeRegs_eq, shortBytes_length]
  omega

theorem encodeReserved_length {c : Column} {op modrm : Byte} {len : Nat}
    (h : wfReserved (mandatoryOf c).length len = true) : (encodeReserved (mandatoryOf c) op modrm len).length = len := by
  obtain ⟨hlen, -⟩ := wfReserved_iff.mp h
  rw [encodeReserved_eq, shortBytes_length]
  simp
  omega

theorem encodeMem_length {mode : Mode} {csD : Bool} {c : Column} {op : Byte} {x : RegNo} {m : MemOp} {len : Nat}
    {lock : Bool} (h : m.wf mode csD (mandatoryOf c).length x len lock = true) :
    (encodeMem mode csD (mandatoryOf c) op x m len lock).length = len := by
  have hlength := memPrefixes_length h
  rw [encodeMem_eq]
  simp only [List.length_append, List.length_cons, dispToBytes_length]
  omega

theorem decode_encodeRegs {mode : Mode} {c : Column} {store : Bool} {d s : RegNo} {len : Nat} {lock : Bool}
    {mk : RegNo → RegNo → Bool → Nat → Instr}
    (hrow : ∀ p modrm, p.column = c → topField modrm = 3#2 →
      rowOf store p modrm = .short (mk (regNo p.rexR (midField modrm)) (regNo p.rexB (lowField modrm)) p.lock))
    (h : wfRegs mode (mandatoryOf c).length d s len lock = true) (csD : Bool) (rest : List Byte) :
    decode mode csD (encodeRegs (mandatoryOf c) (opByte store) d s len lock ++ rest) = .instr (mk d s lock len) := by
  obtain ⟨hd, hs, -, hmax⟩ := wfRegs_iff.mp h
  have hlen := encodeRegs_length (op := opByte store) h
  rw [encodeRegs_eq] at hlen ⊢
  have hdec := decode_shortBytes (mode := mode)
    (mk := fun r b lock len => mk (regNo r (lowBits d)) (regNo b (lowBits s)) lock len)
    (fun p hc => by simpa using hrow p (3#2 ++ lowBits d ++ lowBits s) hc (topField_append ..))
    (fun hrex => ?_) (hlen.trans_le hmax) csD rest
  · rw [hdec, hlen, regNo_highReg, regNo_highReg]
  · rcases Bool.or_eq_true .. ▸ hrex with hr | hb
    · exact mode_of_highReg hd hr
    · exact mode_of_highReg hs hb

theorem decode_encodeReserved {mode : Mode} {c : Column} {store : Bool} {modrm : Byte} {len : Nat} {mk : Nat → Instr}
    (hrow : ∀ p, p.column = c → rowOf store p modrm = .short mk) (h : wfReserved (mandatoryOf c).length len = true)
    (csD : Bool) (rest : List Byte) :
    decode mode csD (encodeReserved (mandatoryOf c) (opByte store) modrm len ++ rest) = .instr (mk len) := by
  have hlen := encodeReserved_length (op := opByte store) (modrm := modrm) h
  rw [encodeReserved_eq] at hlen ⊢
  have hdec := decode_shortBytes (mode := mode) (mk := fun _ _ _ => mk) hrow (fun h => absurd h (by decide))
    (hlen.trans_le (wfReserved_iff.mp h).2) csD rest
  rw [hdec, hlen]

/-! ## Every row -/

/-- Settles O10: the fill bytes make up what the other bytes leave of the length. -/
theorem encodeHasTheLength : Obligations.EncodeHasTheLength := by
  intro mode csD i h
  cases i with
  | movhpdLoad x m len lock => exact ⟨encodeMem_length (c := .p66) h, Laws.mem_length_bounds h⟩
  | movhpdStore x m len lock => exact ⟨encodeMem_length (c := .p66) h, Laws.mem_length_bounds h⟩
  | movhpsLoad x m len lock => exact ⟨encodeMem_length (c := .plain) h, Laws.mem_length_bounds h⟩
  | movhpsStore x m len lock => exact ⟨encodeMem_length (c := .plain) h, Laws.mem_length_bounds h⟩
  | reserved66Load reg rm len => exact ⟨encodeReserved_length (c := .p66) h, Laws.reserved_length_bounds h⟩
  | reserved66Store reg rm len => exact ⟨encodeReserved_length (c := .p66) h, Laws.reserved_length_bounds h⟩
  | reservedF2Load modrm len => exact ⟨encodeReserved_length (c := .pF2) h, Laws.reserved_length_bounds h⟩
  | reservedF2Store modrm len => exact ⟨encodeReserved_length (c := .pF2) h, Laws.reserved_length_bounds h⟩
  | reservedF3Store modrm len => exact ⟨encodeReserved_length (c := .pF3) h, Laws.reserved_length_bounds h⟩
  | reservedPlainStore reg rm len => exact ⟨encodeReserved_length (c := .plain) h, Laws.reserved_length_bounds h⟩
  | movlhps d s len lock => exact ⟨encodeRegs_length (c := .plain) h, Laws.regs_length_bounds h⟩
  | movshdup d src len lock =>
    cases src with
    | xmm s => exact ⟨encodeRegs_length (mode := mode) (c := .pF3) h, Laws.regs_length_bounds (mode := mode) h⟩
    | mem m => exact ⟨encodeMem_length (c := .pF3) h, Laws.mem_length_bounds (mode := mode) h⟩

/-- Settles O9: each row of the opcode table is the one that its prefixes, opcode and ModR/M select. -/
theorem decodeOfEncodeIsIdentity : Obligations.DecodeOfEncodeIsIdentity := by
  intro mode csD i rest h
  cases i with
  | movhpdLoad x m len lock =>
    exact decode_encodeMem (c := .p66) (store := false) (mk := fun x lock m len => .movhpdLoad x m len lock)
      (fun _ _ hc ht => rowOf_p66_mem hc ht false) h rest
  | movhpdStore x m len lock =>
    exact decode_encodeMem (c := .p66) (store := true) (mk := fun x lock m len => .movhpdStore x m len lock)
      (fun _ _ hc ht => rowOf_p66_mem hc ht true) h rest
  | movhpsLoad x m len lock =>
    exact decode_encodeMem (c := .plain) (store := false) (mk := fun x lock m len => .movhpsLoad x m len lock)
      (fun _ _ hc ht => rowOf_plain_mem hc ht false) h rest
  | movhpsStore x m len lock =>
    exact decode_encodeMem (c := .plain) (store := true) (mk := fun x lock m len => .movhpsStore x m len lock)
      (fun _ _ hc ht => rowOf_plain_mem hc ht true) h rest
  | reserved66Load reg rm len =>
    exact decode_encodeReserved (c := .p66) (store := false)
      (fun _ hc => by simpa using rowOf_p66_short hc (topField_append 3#2 reg rm) false) h csD rest
  | reserved66Store reg rm len =>
    exact decode_encodeReserved (c := .p66) (store := true)
      (fun _ hc => by simpa using rowOf_p66_short hc (topField_append 3#2 reg rm) true) h csD rest
  | reservedF2Load modrm len =>
    exact decode_encodeReserved (c := .pF2) (store := false) (fun _ hc => rowOf_F2 hc false modrm) h csD rest
  | reservedF2Store modrm len =>
    exact decode_encodeReserved (c := .pF2) (store := true) (fun _ hc => rowOf_F2 hc true modrm) h csD rest
  | reservedF3Store modrm len =>
    exact decode_encodeReserved (c := .pF3) (store := true) (fun _ hc => rowOf_F3_store hc modrm) h csD rest
  | reservedPlainStore reg rm len =>
    exact decode_encodeReserved (c := .plain) (store := true)
      (fun _ hc => by simpa using rowOf_plainStore hc (topField_append 3#2 reg rm)) h csD rest
  | movlhps d s len lock =>
    exact decode_encodeRegs (c := .plain) (store := false) (mk := fun d s lock len => .movlhps d s len lock)
      (fun _ _ => rowOf_movlhps) h csD rest
  | movshdup d src len lock =>
    cases src with
    | xmm s =>
      exact decode_encodeRegs (mode := mode) (c := .pF3) (store := false)
        (mk := fun d s lock len => .movshdup d (.xmm s) len lock) (fun _ _ => rowOf_movshdup_reg) h csD rest
    | mem m =>
      exact decode_encodeMem (c := .pF3) (store := false) (mk := fun d lock m len => .movshdup d (.mem m) len lock)
        (fun _ _ => rowOf_movshdup_mem) h rest

end Sys2Proof.Machine
end

