-- ==== Sys2Proof/Proofs/DecodedWellFormed.lean ====
section
/-! SUPPORT. Whatever the bytes, a decoded instruction is one that an encoding exists for: its displacement fits, its form is in the tables, and its prefixes were there. -/

namespace Sys2Proof.Machine

/-! ## Displacements (30_encoding.md R69) -/

/-- A sign extension is that of any wider part of it. -/
theorem signExtend_setWidth_signExtend {w v : Nat} (hv : 0 < w) (hwv : w ≤ v) (hv64 : v ≤ 64) (b : BitVec w) :
    ((b.signExtend 64).setWidth v).signExtend 64 = b.signExtend 64 := by
  refine BitVec.eq_of_getLsbD_eq fun j hj => ?_
  rw [BitVec.getLsbD_signExtend]
  by_cases hjv : j < v
  · simp [hj, hjv]
  · have hmsb : ((b.signExtend 64).setWidth v).msb = b.msb := by
      rw [BitVec.msb_eq_getLsbD_last, BitVec.getLsbD_setWidth, BitVec.getLsbD_signExtend, BitVec.msb_eq_getLsbD_last]
      by_cases hlast : v - 1 < w
      · simp [show v = w by omega, hv, show w - 1 < 64 by omega]
      · simp [hlast, show v - 1 < v by omega, show v - 1 < 64 by omega]
    rw [if_neg hjv, hmsb, BitVec.getLsbD_signExtend, if_neg (by omega)]

theorem fitsDisp16_of_fitsDisp8 {d : Quad} (h : fitsDisp8 d = true) : fitsDisp16 d = true := by
  rw [fitsDisp8, beq_iff_eq] at h
  rw [← h]
  exact beq_iff_eq.mpr (signExtend_setWidth_signExtend (by decide) (by decide) (by decide) _)

theorem fitsDisp32_of_fitsDisp8 {d : Quad} (h : fitsDisp8 d = true) : fitsDisp32 d = true := by
  rw [fitsDisp8, beq_iff_eq] at h
  rw [← h]
  exact beq_iff_eq.mpr (signExtend_setWidth_signExtend (by decide) (by decide) (by decide) _)

theorem takeDisp8_fits {bytes : List Byte} {r : Quad × List Byte} (h : takeDisp8 bytes = some r) :
    fitsDisp8 r.1 = true := by
  match bytes, h with
  | _ :: _, rfl => exact beq_iff_eq.mpr (signExtend_setWidth_signExtend (by decide) (by decide) (by decide) _)

theorem takeDisp16_fits {bytes : List Byte} {r : Quad × List Byte} (h : takeDisp16 bytes = some r) :
    fitsDisp16 r.1 = true := by
  match bytes, h with
  | _ :: _ :: _, rfl => exact beq_iff_eq.mpr (signExtend_setWidth_signExtend (by decide) (by decide) (by decide) _)

theorem takeDisp32_fits {bytes : List Byte} {r : Quad × List Byte} (h : takeDisp32 bytes = some r) :
    fitsDisp32 r.1 = true := by
  match bytes, h with
  | _ :: _ :: _ :: _ :: _, rfl =>
    exact beq_iff_eq.mpr (signExtend_setWidth_signExtend (by decide) (by decide) (by decide) _)

/-- What mod says of the displacement beside a base register. -/
theorem dispByMod_cases {wide : List Byte → Option (Quad × List Byte)} {mod : BitVec 2} {bytes : List Byte}
    {r : Quad × List Byte} (h : dispByMod wide mod bytes = some r) :
    (mod = 0#2 ∧ r.1 = 0#64) ∨ (mod = 1#2 ∧ fitsDisp8 r.1 = true)
      ∨ (mod ≠ 0#2 ∧ mod ≠ 1#2 ∧ wide bytes = some r) := by
  unfold dispByMod at h
  split at h
  next h0 =>
    cases h
    exact .inl ⟨h0, rfl⟩
  next h0 =>
    split at h
    next h1 => exact .inr (.inl ⟨h1, takeDisp8_fits h⟩)
    next h1 => exact .inr (.inr ⟨h0, h1, h⟩)

/-- The shortest displacement beside a base register is no longer than the one that mod said. -/
theorem shortest_le_dispLen {k : Nat} (hk : 1 ≤ k) {mod : BitVec 2} {d : Quad} {zero : Prop} [Decidable zero]
    (hz : mod = 0#2 → zero) (h1 : mod = 1#2 → fitsDisp8 d = true) :
    (if zero then 0 else if fitsDisp8 d then 1 else k) ≤ dispLen mod k := by
  unfold dispLen
  by_cases hm0 : mod = 0#2
  · simp [hm0, hz hm0]
  by_cases hm1 : mod = 1#2
  · rw [if_neg hm0, if_pos hm1, if_pos (h1 hm1)]
    split <;> decide
  · rw [if_neg hm0, if_neg hm1]
    split
    · exact Nat.zero_le k
    split
    · exact hk
    · exact Nat.le_refl k

/-! ## Forms (30_encoding.md R65 to R68) -/

/-- What a form needs in the bytes and the prefixes it was read from. -/
structure FormNeeds (mode : Mode) (p : Prefixes) (f : AddrForm) (n : Nat) : Prop where
  encodable : f.encodable mode = true
  bytes : (if f.needsSib mode then 1 else 0) + f.dispBytes ≤ n
  rex : f.needsRex = true → p.rex ≠ none

theorem rm16Of_regs16 (rm : BitVec 3) : rm16Of (some (regs16 rm).1) (regs16 rm).2 = some rm := by
  revert rm
  decide

theorem regs16_low (rm : BitVec 3) : highReg (regs16 rm).1 = false ∧ highIndex (regs16 rm).2 = false := by
  revert rm
  decide

theorem form16_needs {mode : Mode} (hm : mode ≠ .long64) (p : Prefixes) {mod : BitVec 2} {rm : BitVec 3}
    {bytes rest : List Byte} {f : AddrForm} (h : form16 mod rm bytes = some (f, rest)) :
    FormNeeds mode p f (formBytes .a16 mod rm bytes) := by
  rw [formBytes_a16]
  unfold form16 at h
  split at h
  next hdisp =>
    obtain ⟨d, hd, hf⟩ := Option.map_eq_some_iff.mp h
    cases hf
    rw [if_pos hdisp]
    exact ⟨(encodable_a16_iff rfl).mpr ⟨hm, rfl, takeDisp16_fits hd, .inl ⟨rfl, rfl⟩⟩, Nat.le_refl 2, nofun⟩
  next hdisp =>
    obtain ⟨d, hd, hf⟩ := Option.map_eq_some_iff.mp h
    cases hf
    rw [if_neg hdisp]
    have hcases := dispByMod_cases hd
    refine ⟨(encodable_a16_iff rfl).mpr ⟨hm, rfl, ?_, .inr ⟨rm, rm16Of_regs16 rm⟩⟩, ?_, fun hrex => ?_⟩
    · rcases hcases with ⟨-, h0⟩ | ⟨-, h8⟩ | ⟨-, -, hw⟩
      · show fitsDisp16 d.1 = true
        rw [h0]
        decide
      · exact fitsDisp16_of_fitsDisp8 h8
      · exact takeDisp16_fits hw
    · have hle := shortest_le_dispLen (k := 2) (mod := mod) (d := d.1) (zero := d.1 = 0#64 ∧ rm ≠ 6#3) (by decide)
        (fun h0 => by grind) (fun h1 => by grind)
      simpa [AddrForm.needsSib, AddrForm.dispBytes, rm16Of_regs16] using hle
    · obtain ⟨hb, hi⟩ := regs16_low rm
      have hneeds : (highReg (regs16 rm).1 || highIndex (regs16 rm).2) = true := hrex
      rw [hb, hi] at hneeds
      cases hneeds

/-- REX.R, REX.X and REX.B are 0 where no REX byte counts. -/
theorem rexBits_of_none {p : Prefixes} (h : p.rex = none) : p.rexR = 0#1 ∧ p.rexX = 0#1 ∧ p.rexB = 0#1 := by
  simp [Prefixes.rexR, Prefixes.rexX, Prefixes.rexB, h]

theorem highReg_regNo_zero (low : BitVec 3) : highReg (regNo 0#1 low) = false := by
  revert low
  decide

theorem lowBits_regNo (r : BitVec 1) (low : BitVec 3) : lowBits (regNo r low) = low := by
  revert r low
  decide

/-- A register number with no REX bit is one that every mode can name. -/
theorem regNameable_regNo {mode : Mode} {r : BitVec 1} (h : mode ≠ .long64 → r = 0#1) (low : BitVec 3) :
    regNameable mode (regNo r low) = true := by
  by_cases hm : mode = .long64
  · rw [hm]
    rfl
  · rw [h hm]
    simp [regNameable, regNo_zero_lt]

/-- The displacement of a 32- or 64-bit form fits. -/
theorem fitsDisp32_of_dispByMod {mod : BitVec 2} {bytes : List Byte} {r : Quad × List Byte}
    (h : dispByMod takeDisp32 mod bytes = some r) : fitsDisp32 r.1 = true := by
  rcases dispByMod_cases h with ⟨-, h0⟩ | ⟨-, h8⟩ | ⟨-, -, hw⟩
  · rw [h0]
    decide
  · exact fitsDisp32_of_fitsDisp8 h8
  · exact takeDisp32_fits hw

/-- The shortest displacement of a 32- or 64-bit form with a base. -/
theorem wideBytes_le {mod : BitVec 2} {bytes : List Byte} {r : Quad × List Byte}
    (h : dispByMod takeDisp32 mod bytes = some r) {b : RegNo} (hb : ¬ (mod = 0#2 ∧ lowBits b = 5#3)) :
    wideBytes (some b) r.1 ≤ dispLen mod 4 :=
  shortest_le_dispLen (by decide) (fun h0 => by have := dispByMod_cases h; grind)
    (fun h1 => by have := dispByMod_cases h; grind)

/-- A form with a base, an index or neither that the tables say, given the bytes and the REX bits it takes. -/
theorem formNeeds_wide {mode : Mode} {p : Prefixes} (hrex : mode ≠ .long64 → p.rex = none) {size : AddrSize}
    (hs : size ≠ .a16) {base : Option RegNo} {index : Option (RegNo × BitVec 2)} {d : Quad} {n sib : Nat}
    (h32 : fitsDisp32 d = true) (hbase : ∀ b, base = some b → ∃ low, b = regNo p.rexB low)
    (hindex : ∀ i s, index = some (i, s) → i ≠ 4#4 ∧ ∃ low, i = regNo p.rexX low)
    (hsib : (index ≠ none ∨ (base = none ∧ mode = .long64) ∨ ∃ b, base = some b ∧ lowBits b = 4#3) → sib = 1)
    (hn : sib + wideBytes base d ≤ n) : FormNeeds mode p ⟨size, base, index, d, false⟩ n := by
  have hbits : mode ≠ .long64 → p.rexX = 0#1 ∧ p.rexB = 0#1 := fun hm => (rexBits_of_none (hrex hm)).2
  refine ⟨(encodable_wide_iff hs).mpr ⟨h32, fun b hb => ?_, fun i s hi => ?_, nofun⟩, ?_, fun hneeds hnone => ?_⟩
  · obtain ⟨low, rfl⟩ := hbase b hb
    exact regNameable_regNo (fun hm => (hbits hm).2) low
  · obtain ⟨hne, low, rfl⟩ := hindex i s hi
    exact ⟨regNameable_regNo (fun hm => (hbits hm).1) low, hne⟩
  · rw [dispBytes_wide hs]
    split
    next hsn =>
      rw [hsib ((needsSib_wide_iff hs mode).mp hsn).2] at hn
      exact hn
    next => exact (Nat.add_le_add_right (Nat.zero_le sib) _).trans hn
  · obtain ⟨-, hx, hb⟩ := rexBits_of_none hnone
    have hor : (highBase base || highIndex index) = true := hneeds
    rw [Bool.or_eq_true] at hor
    rcases hor with hor | hor
    · cases base with
      | none => cases hor
      | some b =>
        obtain ⟨low, rfl⟩ := hbase b rfl
        rw [highBase, hb, highReg_regNo_zero] at hor
        cases hor
    · cases index with
      | none => cases hor
      | some r =>
        obtain ⟨-, low, hi⟩ := hindex r.1 r.2 rfl
        have hlow : highReg r.1 = true := hor
        rw [hi, hx, highReg_regNo_zero] at hlow
        cases hlow

theorem formSib_needs {mode : Mode} {size : AddrSize} (hs : size ≠ .a16) {p : Prefixes}
    (hrex : mode ≠ .long64 → p.rex = none) {mod : BitVec 2} {bytes rest : List Byte} {f : AddrForm}
    (h : formSib size p mod bytes = some (f, rest)) : FormNeeds mode p f (formBytes size mod 4#3 bytes) := by
  cases bytes with
  | nil => cases h
  | cons sib tail =>
    have hindex : ∀ i s, (if regNo p.rexX (midField sib) = 4#4 then none
        else some (regNo p.rexX (midField sib), topField sib)) = some (i, s) →
        i ≠ 4#4 ∧ ∃ low, i = regNo p.rexX low := by
      intro i s hi
      split at hi
      next => cases hi
      next hne =>
        cases hi
        exact ⟨hne, _, rfl⟩
    rw [formBytes_sib hs]
    unfold formSib at h
    dsimp only at h
    split at h
    next hdisp =>
      obtain ⟨d, hd, hf⟩ := Option.map_eq_some_iff.mp h
      cases hf
      rw [if_pos hdisp]
      exact formNeeds_wide hrex hs (takeDisp32_fits hd) nofun hindex (fun _ => rfl) (Nat.le_refl _)
    next hdisp =>
      obtain ⟨d, hd, hf⟩ := Option.map_eq_some_iff.mp h
      cases hf
      rw [if_neg hdisp]
      refine formNeeds_wide hrex hs (fitsDisp32_of_dispByMod hd) (fun b hb => ⟨_, (Option.some.inj hb).symm⟩) hindex
        (fun _ => rfl) (Nat.add_le_add_left (wideBytes_le hd ?_) 1)
      rwa [lowBits_regNo]

theorem form32_needs {mode : Mode} {size : AddrSize} (hs : size ≠ .a16) {p : Prefixes}
    (hrex : mode ≠ .long64 → p.rex = none) {mod : BitVec 2} {rm : BitVec 3} {bytes rest : List Byte} {f : AddrForm}
    (h : form32 size (mode == .long64) p mod rm bytes = some (f, rest)) :
    FormNeeds mode p f (formBytes size mod rm bytes) := by
  unfold form32 at h
  by_cases hrm : rm = 4#3
  · subst hrm
    exact formSib_needs hs hrex h
  rw [if_neg hrm] at h
  rw [formBytes_wide hs mod hrm]
  split at h
  next hdisp =>
    obtain ⟨d, hd, hf⟩ := Option.map_eq_some_iff.mp h
    cases hf
    rw [if_pos hdisp]
    have h32 := takeDisp32_fits hd
    by_cases hm : mode = .long64
    · subst hm
      refine ⟨(encodable_wide_iff hs).mpr ⟨h32, nofun, nofun, fun _ => ⟨rfl, rfl, rfl⟩⟩, ?_, nofun⟩
      have hsib : AddrForm.needsSib .long64 ⟨size, none, none, d.1, true⟩ = false := by
        rw [← Bool.not_eq_true, needsSib_wide_iff hs]
        simp
      rw [dispBytes_wide hs]
      exact (congrArg (fun c : Bool => (if c then 1 else 0) + 4) hsib).le
    · rw [beq_eq_false_iff_ne.mpr hm]
      exact formNeeds_wide (sib := 0) hrex hs h32 nofun nofun (by simp [hm]) (Nat.le_refl 4)
  next hdisp =>
    obtain ⟨d, hd, hf⟩ := Option.map_eq_some_iff.mp h
    cases hf
    rw [if_neg hdisp]
    refine formNeeds_wide (sib := 0) hrex hs (fitsDisp32_of_dispByMod hd) (fun b hb => ⟨_, (Option.some.inj hb).symm⟩)
      nofun ?_ ?_
    · simp [lowBits_regNo, hrm]
    · rw [Nat.zero_add]
      exact wideBytes_le hd (by rwa [lowBits_regNo])

/-- A decoded form is one of the tables, and its bytes and its REX byte were there. -/
theorem decodeForm_needs {mode : Mode} {csD : Bool} {p : Prefixes} (hrex : mode ≠ .long64 → p.rex = none)
    {mod : BitVec 2} {rm : BitVec 3} {bytes rest : List Byte} {f : AddrForm}
    (h : decodeForm mode csD p mod rm bytes = some (f, rest)) :
    FormNeeds mode p f (formBytes (p.size mode csD) mod rm bytes) := by
  unfold decodeForm at h
  cases hsize : p.size mode csD with
  | a16 =>
    rw [hsize] at h
    have hm : mode ≠ .long64 := by
      rintro rfl
      unfold Prefixes.size at hsize
      split at hsize <;> cases hsize
    exact form16_needs hm p h
  | a32 | a64 =>
    rw [hsize] at h
    exact form32_needs (by decide) hrex h

/-! ## Prefixes are bytes (30_encoding.md R72) -/

/-- How many of the fields of the prefixes are set. -/
def prefixCount (p : Prefixes) : Nat :=
  p.opSize.toNat + p.addrSize.toNat + p.lock.toNat + p.rep.isSome.toNat + p.seg.isSome.toNat + p.rex.isSome.toNat

theorem prefixCount_addLegacy {long : Bool} {p q : Prefixes} {b : Byte} (h : p.addLegacy long b = some q) :
    prefixCount q ≤ prefixCount p + 1 := by
  unfold Prefixes.addLegacy at h
  have hb := fun x : Bool => x.toNat_le
  split_ifs at h
  case neg =>
    cases hg : overrideSeg b with
    | none => simp [hg] at h
    | some g =>
      simp only [hg, Option.some.injEq] at h
      subst h
      simp only [prefixCount, Option.isSome_none, Bool.toNat_false]
      have := hb p.rex.isSome
      split <;> simp <;> omega
  all_goals
    cases h
    simp only [prefixCount, Option.isSome_none, Option.isSome_some, Bool.toNat_false, Bool.toNat_true]
    omega

theorem prefixCount_add {long : Bool} {p q : Prefixes} {b : Byte} (h : p.add long b = some q) :
    prefixCount q ≤ prefixCount p + 1 := by
  unfold Prefixes.add at h
  split at h
  next hq =>
    cases h
    exact prefixCount_addLegacy hq
  next =>
    split at h
    · cases h
      simp only [prefixCount, Option.isSome_some, Bool.toNat_true]
      omega
    · cases h

/-- Each field that a run sets took a byte of its own. -/
theorem prefixCount_run {mode : Mode} {pre : List Byte} (h : PrefixRun mode pre) :
    prefixCount (prefixesOfRun mode pre) ≤ pre.length := by
  induction pre using List.reverseRecOn with
  | nil => exact Nat.le_refl 0
  | append_singleton pre b ih =>
    obtain ⟨hpre, hb⟩ := prefixRun_append.mp h
    rw [List.length_append, List.length_singleton]
    exact (prefixCount_add (add_prefixesOfRun (hb b (by simp)) pre)).trans (Nat.add_le_add_right (ih hpre) 1)

/-- The mandatory byte of the column is among the fields. -/
theorem mandatory_le (p : Prefixes) : (mandatoryOf p.column).length ≤ p.opSize.toNat + p.rep.isSome.toNat := by
  unfold Prefixes.column
  cases hr : p.rep with
  | none => cases p.opSize <;> decide
  | some r => cases r <;> simp [mandatoryOf]

/-- A high register takes a REX byte. -/
theorem highRegs_le_rex {p : Prefixes} {high : Bool} (h : high = true → p.rex ≠ none) :
    (if high then 1 else 0) ≤ p.rex.isSome.toNat := by
  cases high with
  | false => exact Nat.zero_le _
  | true =>
    obtain ⟨bits, hbits⟩ := Option.ne_none_iff_exists'.mp (h rfl)
    simp [hbits]

theorem rex_of_highReg {p : Prefixes} {low : BitVec 3}
    (h : highReg (regNo p.rexR low) = true ∨ highReg (regNo p.rexB low) = true) : p.rex ≠ none := by
  intro hnone
  obtain ⟨hr, -, hb⟩ := rexBits_of_none hnone
  rw [hr, hb, highReg_regNo_zero] at h
  exact h.elim nofun nofun

/-! ## Rows -/

/-- In 64-bit mode the prefixes say no segment but FS and GS. -/
theorem segNameable_run (mode : Mode) (pre : List Byte) (f : AddrForm) :
    MemOp.segNameable mode ⟨(lastOverride mode pre).getD f.defaultSeg, f⟩ = true := by
  unfold MemOp.segNameable
  cases hg : lastOverride mode pre with
  | none => simp
  | some g =>
    obtain ⟨b, -, hb⟩ := List.exists_of_findSome?_eq_some hg
    by_cases hm : mode = .long64
    · subst hm
      simp only [overrideOf, if_true] at hb
      split_ifs at hb <;> cases hb <;> rfl
    · simp [hm]

theorem wf_mem_of_run {mode : Mode} {csD : Bool} {pre : List Byte} (h : PrefixRun mode pre) {modrm : Byte}
    {tail rest : List Byte} {f : AddrForm}
    (hf : decodeForm mode csD (prefixesOfRun mode pre) (topField modrm) (lowField modrm) tail = some (f, rest))
    (hl : pre.length + 3 + tailBytes mode csD pre modrm tail ≤ 15) (low : BitVec 3) :
    MemOp.wf mode csD (mandatoryOf (prefixesOfRun mode pre).column).length
      (regNo (prefixesOfRun mode pre).rexR low) ⟨(lastOverride mode pre).getD f.defaultSeg, f⟩
      (pre.length + 3 + tailBytes mode csD pre modrm tail) (prefixesOfRun mode pre).lock = true := by
  have hrex : mode ≠ .long64 → (prefixesOfRun mode pre).rex = none := fun hm => rexOf_legacy hm h
  obtain ⟨henc, hbytes, hneeds⟩ := decodeForm_needs hrex hf
  have hsize := decodeForm_size hf
  have hcount := prefixCount_run h
  have hmand := mandatory_le (prefixesOfRun mode pre)
  have hhigh : (if highReg (regNo (prefixesOfRun mode pre).rexR low) || f.needsRex then 1 else 0)
      ≤ (prefixesOfRun mode pre).rex.isSome.toNat :=
    highRegs_le_rex fun ho => ((Bool.or_eq_true ..).mp ho).elim (fun hr => rex_of_highReg (.inl hr)) hneeds
  refine wf_mem_iff.mpr ⟨regNameable_regNo (fun hm => (rexBits_of_none (hrex hm)).1) low, henc, ?_,
    segNameable_run mode pre f, ?_, hl⟩
  · rw [hsize, Prefixes.size]
    split
    · exact .inr rfl
    · exact .inl rfl
  · have haddr : (if f.size = mode.defaultAddrSize csD then 0 else 1) ≤ (prefixesOfRun mode pre).addrSize.toNat := by
      rw [hsize, Prefixes.size]
      cases (prefixesOfRun mode pre).addrSize <;> simp
      split <;> decide
    have hseg : (if (lastOverride mode pre).getD f.defaultSeg = f.defaultSeg then 0 else 1)
        ≤ (prefixesOfRun mode pre).seg.isSome.toNat := by
      show _ ≤ (lastOverride mode pre).isSome.toNat
      cases lastOverride mode pre with
      | none => simp
      | some g => split <;> simp
    have hlock : (if (prefixesOfRun mode pre).lock then 1 else 0) = (prefixesOfRun mode pre).lock.toNat := by
      cases (prefixesOfRun mode pre).lock <;> rfl
    rw [size_run] at hbytes
    rw [prefixCount] at hcount
    simp only [MemOp.bareLength, tailBytes, hlock]
    omega

theorem wfReserved_of_run {mode : Mode} {pre : List Byte} (h : PrefixRun mode pre) (hl : pre.length + 3 ≤ 15) :
    wfReserved (mandatoryOf (prefixesOfRun mode pre).column).length (pre.length + 3) = true := by
  have hcount := prefixCount_run h
  have hmand := mandatory_le (prefixesOfRun mode pre)
  rw [prefixCount] at hcount
  exact wfReserved_iff.mpr ⟨by omega, hl⟩

theorem wfRegs_of_run {mode : Mode} {pre : List Byte} (h : PrefixRun mode pre) (hl : pre.length + 3 ≤ 15)
    (reg rm : BitVec 3) :
    wfRegs mode (mandatoryOf (prefixesOfRun mode pre).column).length (regNo (prefixesOfRun mode pre).rexR reg)
      (regNo (prefixesOfRun mode pre).rexB rm) (pre.length + 3) (prefixesOfRun mode pre).lock = true := by
  have hrex : mode ≠ .long64 → (prefixesOfRun mode pre).rex = none := fun hm => rexOf_legacy hm h
  have hcount := prefixCount_run h
  have hmand := mandatory_le (prefixesOfRun mode pre)
  have hhigh : (if highReg (regNo (prefixesOfRun mode pre).rexR reg) || highReg (regNo (prefixesOfRun mode pre).rexB rm)
      then 1 else 0) ≤ (prefixesOfRun mode pre).rex.isSome.toNat :=
    highRegs_le_rex fun ho => ((Bool.or_eq_true ..).mp ho).elim (fun hr => rex_of_highReg (.inl hr))
      fun hb => rex_of_highReg (.inr hb)
  have hlock : (if (prefixesOfRun mode pre).lock then 1 else 0) = (prefixesOfRun mode pre).lock.toNat := by
    cases (prefixesOfRun mode pre).lock <;> rfl
  rw [prefixCount] at hcount
  refine wfRegs_iff.mpr ⟨regNameable_regNo (fun hm => (rexBits_of_none (hrex hm)).1) reg,
    regNameable_regNo (fun hm => (rexBits_of_none (hrex hm)).2.2) rm, ?_, hl⟩
  omega

/-- A row without a memory operand is well-formed where its registers and its length are. -/
theorem rowOf_short_wf {store : Bool} {p : Prefixes} {modrm : Byte} {mk : Nat → Instr}
    (hrow : rowOf store p modrm = .short mk) {mode : Mode} {csD : Bool} {len : Nat}
    (hregs : wfRegs mode (mandatoryOf p.column).length (regNo p.rexR (midField modrm)) (regNo p.rexB (lowField modrm))
      len p.lock = true)
    (hres : wfReserved (mandatoryOf p.column).length len = true) : (mk len).wf mode csD = true := by
  cases hrow ▸ isRow_rowOf store p modrm with
  | reserved66 _ col | reservedF2 _ col => rw [col] at hres; cases store <;> exact hres
  | plainStore col | storeF3 col => rw [col] at hres; exact hres
  | movlhps col | movshdupReg col => rw [col] at hregs; exact hregs

/-- A row with one is well-formed where its operand is. -/
theorem rowOf_mem_wf {store : Bool} {p : Prefixes} {modrm : Byte} {mk : MemOp → Nat → Instr}
    (hrow : rowOf store p modrm = .mem mk) {mode : Mode} {csD : Bool} {m : MemOp} {len : Nat}
    (h : m.wf mode csD (mandatoryOf p.column).length (regNo p.rexR (midField modrm)) len p.lock = true) :
    (mk m len).wf mode csD = true := by
  cases hrow ▸ isRow_rowOf store p modrm with
  | movhpd _ col | movhps _ col => rw [col] at h; cases store <;> exact h
  | movshdupMem col => rw [col] at h; exact h

/-- Settles O11: the prefixes hold at least the bytes that well-formedness counts, and the form those after ModR/M. -/
theorem decodeAnswersWellFormed : Obligations.DecodeAnswersWellFormed := by
  intro mode csD bytes i h
  cases decode_iff.mp h with
  | @short pre store modrm mk tail run row fits =>
    refine ⟨rowOf_short_wf row (wfRegs_of_run run fits _ _) (wfReserved_of_run run fits), ?_⟩
    rw [rowOf_short_len row]
    simp only [List.length_append, List.length_cons]
    omega
  | @mem pre store modrm mk tail rest f run row form fits =>
    refine ⟨rowOf_mem_wf row (wf_mem_of_run run form fits _), ?_⟩
    have htake := takesBytes_decodeForm mode csD (prefixesOfRun mode pre) (topField modrm) (lowField modrm) tail
    rw [form, size_run] at htake
    have hn := htake.of_some.1
    rw [rowOf_mem_len row, tailBytes]
    simp only [List.length_append, List.length_cons]
    omega

end Sys2Proof.Machine
end

