-- ==== Sys2Proof/Proofs/MapCells.lean ====
section
/-! SUPPORT. The cells of the opcode map and what each does, with the encodings that are too long. -/

namespace Sys2Proof.Machine

/-! ## What the rows do (30_encoding.md R75, R76) -/

/-- A reserved row of at most fifteen bytes raises #UD in every state. -/
theorem exec_reserved {len : Nat} (hl : len ≤ 15) (s : State) (reg rm : BitVec 3) (modrm : Byte) :
    ∀ i ∈ [Instr.reserved66Load reg rm len, .reserved66Store reg rm len, .reservedF2Load modrm len,
      .reservedF2Store modrm len, .reservedF3Store modrm len, .reservedPlainStore reg rm len],
      exec i s = .fault (.exception .ud) := by
  have hud : raiseReserved len s = .fault (.exception .ud) := by
    rw [raiseReserved_eq, if_neg (show ¬ Config.maxInsnBytes < len from Nat.not_lt.mpr hl)]
  intro i hi
  simp only [List.mem_cons, List.not_mem_nil, or_false] at hi
  rcases hi with rfl | rfl | rfl | rfl | rfl | rfl <;> exact hud

/-- Settles O34: the length test passes, and `deliver` is given the unchanged state. -/
theorem reservedEncodingsRaiseInvalidOpcode : Obligations.ReservedEncodingsRaiseInvalidOpcode := by
  intro s reg rm modrm len deliver i hl hi
  have hud := exec_reserved hl s reg rm modrm i hi
  exact ⟨hud, by rw [hud]; rfl⟩

/-- Settles O35, by the arms of `exec`. -/
theorem neighboursAreRefusedByName : Obligations.NeighboursAreRefusedByName :=
  fun _ _ _ _ _ _ _ => ⟨rfl, rfl, rfl, rfl⟩

/-- Settles O8, word by word. -/
theorem specWordsDecode : Obligations.SpecWordsDecode := by
  refine ⟨?_, ?_, ?_, ?_, ?_⟩ <;> decide

/-! ## Forms with enough bytes -/

/-- Five bytes after ModR/M hold any form. -/
theorem exists_form {d : List Byte} (hd : 5 ≤ d.length) (mode : Mode) (csD : Bool) (p : Prefixes) (mod : BitVec 2)
    (rm : BitVec 3) : ∃ f rest, decodeForm mode csD p mod rm d = some (f, rest) := by
  obtain ⟨⟨f, rest⟩, hf, -⟩ := decodeForm_hasForm hd mode csD p mod rm
  exact ⟨f, rest, hf⟩

theorem tailBytes_le_five (mode : Mode) (csD : Bool) (pre : List Byte) (modrm : Byte) (d : List Byte) :
    tailBytes mode csD pre modrm d ≤ 5 := formBytes_le_five _ _ _ _

theorem topField_eq_three {modrm : Byte} (h : 0xC0 ≤ modrm.toNat) : topField modrm = 3#2 := by
  have hlt := modrm.isLt
  apply BitVec.eq_of_toNat_eq
  simp only [topField, BitVec.extractLsb'_toNat, Nat.shiftRight_eq_div_pow, BitVec.toNat_ofNat]
  omega

/-! ## The map (30_encoding.md R74) -/

/-- After at most seven prefixes a row without a memory operand is decoded with a length of at most ten. -/
theorem decode_cell_short {mode : Mode} {pre : List Byte} (hpre : PrefixRun mode pre) (hl : pre.length ≤ 7)
    {store : Bool} {modrm : Byte} {mk : Nat → Instr} (hrow : rowOf store (prefixesOfRun mode pre) modrm = .short mk)
    (csD : Bool) (d : List Byte) :
    ∃ len, len ≤ 15 ∧ decode mode csD (pre ++ 0x0F#8 :: opByte store :: modrm :: d) = .instr (mk len) :=
  ⟨pre.length + 3, by omega, decode_run_short hpre (by omega) hrow csD d⟩

/-- After at most seven prefixes and with five bytes after ModR/M a row with one is decoded. -/
theorem decode_cell_mem {mode : Mode} {pre : List Byte} (hpre : PrefixRun mode pre) (hl : pre.length ≤ 7)
    {store : Bool} {modrm : Byte} {mk : MemOp → Nat → Instr}
    (hrow : rowOf store (prefixesOfRun mode pre) modrm = .mem mk) (csD : Bool) {d : List Byte} (hd : 5 ≤ d.length) :
    ∃ m len, decode mode csD (pre ++ 0x0F#8 :: opByte store :: modrm :: d) = .instr (mk m len) := by
  obtain ⟨f, rest, hf⟩ := exists_form hd mode csD (prefixesOfRun mode pre) (topField modrm) (lowField modrm)
  have hle := tailBytes_le_five mode csD pre modrm d
  exact ⟨_, _, decode_run_mem hpre hrow hf (by omega)⟩

theorem decodesToUd_of_short {mode : Mode} {pre : List Byte} (hpre : PrefixRun mode pre) (hl : pre.length ≤ 7)
    {store : Bool} {modrm : Byte} {mk : Nat → Instr} (hrow : rowOf store (prefixesOfRun mode pre) modrm = .short mk)
    {s : State} (hud : ∀ len, len ≤ 15 → exec (mk len) s = .fault (.exception .ud)) (csD : Bool) (d : List Byte) :
    DecodesToUd (decode mode csD (pre ++ 0x0F#8 :: opByte store :: modrm :: d)) s := by
  obtain ⟨len, hlen, hdec⟩ := decode_cell_short hpre hl hrow csD d
  exact ⟨mk len, hdec, hud len hlen⟩

/-- Settles O13, column by column. -/
theorem opcodeMapCells : Obligations.OpcodeMapCells := by
  intro mode csD pre modrm d s hpre hl hd
  have hreserved := fun len (hlen : len ≤ 15) => exec_reserved hlen s (midField modrm) (lowField modrm) modrm
  refine ⟨fun hrep h66 hmod store => ?_, fun hrep h66 hmod store => ?_, fun hrep h66 hmod store => ?_,
    fun hrep h66 hmod => ?_, fun hrep => ?_, fun hrep store => ?_⟩
  · have hcol := column_run_of_66 ⟨hpre, h66, hrep⟩
    obtain ⟨m, len, hdec⟩ := decode_cell_mem hpre hl (rowOf_p66_mem hcol (topField_ne_three hmod) store) csD hd
    rw [hdec, formWith_movhpdForm]
    exact decide_eq_true_iff
  · have hcol := column_run_of_66 ⟨hpre, h66, hrep⟩
    refine decodesToUd_of_short hpre hl (rowOf_p66_short hcol (topField_eq_three hmod) store) (fun len hlen => ?_) csD d
    cases store <;> exact hreserved len hlen _ (by simp)
  · have hcol : (prefixesOfRun mode pre).column = .plain := by rw [column_run_of_none hrep, if_neg h66]
    obtain ⟨m, len, hdec⟩ := decode_cell_mem hpre hl (rowOf_plain_mem hcol (topField_ne_three hmod) store) csD hd
    refine ⟨_, hdec, ?_⟩
    cases store <;> rfl
  · have hcol : (prefixesOfRun mode pre).column = .plain := by rw [column_run_of_none hrep, if_neg h66]
    have htop := topField_eq_three hmod
    constructor
    · obtain ⟨len, -, hdec⟩ := decode_cell_short hpre hl (rowOf_movlhps hcol htop) csD d
      exact ⟨_, hdec, rfl⟩
    · exact decodesToUd_of_short hpre hl (rowOf_plainStore hcol htop)
        (fun len hlen => hreserved len hlen _ (by simp)) csD d
  · have hcol := column_run_of_F3 hrep mode
    constructor
    · by_cases htop : topField modrm = 3#2
      · obtain ⟨len, -, hdec⟩ := decode_cell_short hpre hl (rowOf_movshdup_reg hcol htop) csD d
        exact ⟨_, hdec, rfl⟩
      · obtain ⟨m, len, hdec⟩ := decode_cell_mem hpre hl (rowOf_movshdup_mem hcol htop) csD hd
        exact ⟨_, hdec, rfl⟩
    · exact decodesToUd_of_short hpre hl (rowOf_F3_store hcol modrm) (fun len hlen => hreserved len hlen _ (by simp)) csD d
  · have hcol := column_run_of_F2 hrep mode
    refine decodesToUd_of_short hpre hl (rowOf_F2 hcol store modrm) (fun len hlen => ?_) csD d
    cases store <;> exact hreserved len hlen _ (by simp)

/-! ## 66H with a REX byte or none (30_encoding.md R60, R61) -/

/-- A REX byte in 64-bit mode, or nothing. -/
def RexOrNone (mode : Mode) (rex : List Byte) : Prop :=
  rex = [] ∨ (mode = .long64 ∧ ∃ bits : BitVec 4, rex = [4#4 ++ bits])

theorem RexOrNone.run {mode : Mode} {rex ps : List Byte} (h : RexOrNone mode rex) (hps : PrefixRun mode ps) :
    PrefixRun mode (ps ++ rex) := by
  rcases h with rfl | ⟨rfl, bits, rfl⟩
  · rwa [List.append_nil]
  · exact prefixRun_concat hps (.inr ⟨rfl, extractLsb'_rexByte bits⟩)

theorem RexOrNone.length_le {mode : Mode} {rex : List Byte} (h : RexOrNone mode rex) : rex.length ≤ 1 := by
  rcases h with rfl | ⟨-, bits, rfl⟩
  · exact Nat.zero_le 1
  · exact Nat.le_refl 1

/-- Such prefixes say 66H or nothing, and REX. -/
theorem RexOrNone.prefixesOfRun_66 {mode : Mode} {rex : List Byte} (h : RexOrNone mode rex) :
    prefixesOfRun mode (0x66#8 :: rex) = { Prefixes.empty with opSize := true, rex := rexOf rex } := by
  rcases h with rfl | ⟨rfl, bits, rfl⟩
  · cases mode <;> rfl
  · refine (prefixesOfRun_concat_rex (extractLsb'_rexByte bits) .long64 [0x66#8]).trans ?_
    rw [← List.nil_append [4#4 ++ bits], rexOf_concat, if_pos (extractLsb'_rexByte bits)]
    rfl

theorem RexOrNone.prefixesOfRun_alone {mode : Mode} {rex : List Byte} (h : RexOrNone mode rex) :
    prefixesOfRun mode rex = { Prefixes.empty with rex := rexOf rex } := by
  rcases h with rfl | ⟨rfl, bits, rfl⟩
  · cases mode <;> rfl
  · refine (prefixesOfRun_concat_rex (extractLsb'_rexByte bits) .long64 []).trans ?_
    rw [← List.nil_append [4#4 ++ bits], rexOf_concat, if_pos (extractLsb'_rexByte bits)]
    rfl

/-- With 66H a form is the operand of both MOVHPD, in its default segment, whatever reg and REX.R are. -/
theorem decode_66_form {mode : Mode} {csD : Bool} {rex : List Byte} (h : RexOrNone mode rex) {modrm : Byte}
    (ht : topField modrm ≠ 3#2) {d rest : List Byte} {f : AddrForm}
    (hf : decodeForm mode csD (prefixesOfRun mode (0x66#8 :: rex)) (topField modrm) (lowField modrm) d
      = some (f, rest)) (store : Bool) :
    decode mode csD (0x66#8 :: rex ++ 0x0F#8 :: opByte store :: modrm :: d)
      = .instr (movhpdForm store (rexBit rex 2 ++ midField modrm) ⟨f.defaultSeg, f⟩
          (rex.length + 4 + formBytes (mode.defaultAddrSize csD) (topField modrm) (lowField modrm) d) false) := by
  have hp := h.prefixesOfRun_66
  have hrun : PrefixRun mode (0x66#8 :: rex) := h.run (ps := [0x66#8]) (by simp [PrefixRun, legacyBytes])
  have hsize : tailBytes mode csD (0x66#8 :: rex) modrm d
      = formBytes (mode.defaultAddrSize csD) (topField modrm) (lowField modrm) d := by
    rw [tailBytes, ← size_run, hp]
    rfl
  have hle := tailBytes_le_five mode csD (0x66#8 :: rex) modrm d
  have hrexle := h.length_le
  have hdec := decode_run_movhpd hrun (by rw [hp]; rfl) ht hf (by rw [List.length_cons]; omega) store
  have hseg : lastOverride mode (0x66#8 :: rex) = none := congrArg Prefixes.seg hp
  have hlock : decide (0xF0#8 ∈ 0x66#8 :: rex) = false := congrArg Prefixes.lock hp
  have hrexR : rexBit (0x66#8 :: rex) 2 = rexBit rex 2 := by
    rw [rexBit_eq _ (by decide), rexBit_eq _ (by decide), rexOf_cons_legacy (by decide)]
  rw [hsize, hseg, hlock, hrexR, List.length_cons] at hdec
  exact hdec

/-- The bits of a REX byte, one by one. -/
theorem rexBit_rexByte (w r x b : BitVec 1) :
    rexBit [4#4 ++ (w ++ r ++ x ++ b)] 2 = r ∧ rexBit [4#4 ++ (w ++ r ++ x ++ b)] 1 = x
      ∧ rexBit [4#4 ++ (w ++ r ++ x ++ b)] 0 = b := by
  revert w r x b
  decide

/-- Settles O14: the form is read with REX.X and REX.B alone, and the register is REX.R before reg. -/
theorem xmmNumberIsRexRBeforeReg : Obligations.XmmNumberIsRexRBeforeReg := by
  intro mode csD mod rm w x b d hmod hd
  have htop : ∀ reg : BitVec 3, topField (mod ++ reg ++ rm) ≠ 3#2 := fun reg => by rwa [topField_append]
  constructor
  · obtain ⟨f, rest, hf⟩ := exists_form hd mode csD (prefixesOfRun mode [0x66#8]) mod rm
    refine ⟨⟨f.defaultSeg, f⟩, 0 + 4 + formBytes (mode.defaultAddrSize csD) mod rm d, fun reg => ?_⟩
    have hdec := decode_66_form (modrm := mod ++ reg ++ rm) (.inl rfl) (htop reg)
      (by rw [topField_append, lowField_append]; exact hf)
    simp only [midField_append, topField_append, lowField_append] at hdec
    exact ⟨hdec false, hdec true⟩
  · have hbits : ∀ r : BitVec 1, (4#4 ++ w ++ r ++ x ++ b : Byte) = 4#4 ++ (w ++ r ++ x ++ b) := by
      revert w x b
      decide
    have hform : ∀ r : BitVec 1, decodeForm .long64 csD (prefixesOfRun .long64 [0x66#8, 4#4 ++ (w ++ r ++ x ++ b)]) mod rm d
        = decodeForm .long64 csD (prefixesOfRun .long64 [0x66#8, 4#4 ++ (w ++ 0#1 ++ x ++ b)]) mod rm d := fun r => by
      have h : ∀ r : BitVec 1, RexOrNone .long64 [4#4 ++ (w ++ r ++ x ++ b)] := fun r => .inr ⟨rfl, _, rfl⟩
      refine decodeForm_congr ?_ ?_ ?_ _ _ _ _ _
      · rw [(h r).prefixesOfRun_66, (h 0#1).prefixesOfRun_66]
      · rw [rexX_run, rexX_run]
        exact (rexBit_rexByte w r x b).2.1.trans (rexBit_rexByte w 0#1 x b).2.1.symm
      · rw [rexB_run, rexB_run]
        exact (rexBit_rexByte w r x b).2.2.trans (rexBit_rexByte w 0#1 x b).2.2.symm
    obtain ⟨f, rest, hf⟩ :=
      exists_form hd .long64 csD (prefixesOfRun .long64 [0x66#8, 4#4 ++ (w ++ 0#1 ++ x ++ b)]) mod rm
    refine ⟨⟨f.defaultSeg, f⟩, 1 + 4 + formBytes (Mode.long64.defaultAddrSize csD) mod rm d, fun r reg => ?_⟩
    have hdec := decode_66_form (modrm := mod ++ reg ++ rm) (.inr ⟨rfl, w ++ r ++ x ++ b, rfl⟩) (htop reg)
      (by rw [topField_append, lowField_append]; exact (hform r).trans hf)
    simp only [midField_append, topField_append, lowField_append, (rexBit_rexByte w r x b).1] at hdec
    rw [hbits]
    exact ⟨hdec false, hdec true⟩

/-- Settles O16: the row is that of mod, and a form is the operand of both MOVHPD. -/
theorem modRmFromC0NamesNoMemory : Obligations.ModRmFromC0NamesNoMemory := by
  intro mode csD rex modrm d hrex hd
  have h : RexOrNone mode rex := hrex
  have hle := h.length_le
  refine ⟨fun hmod => ?_, fun hmod => ?_⟩
  · have htop := topField_eq_three hmod
    have hrun : PrefixRun mode (0x66#8 :: rex) := h.run (ps := [0x66#8]) (by simp [PrefixRun, legacyBytes])
    have hrow := rowOf_p66_short (p := prefixesOfRun mode (0x66#8 :: rex)) (by rw [h.prefixesOfRun_66]; rfl) htop
    have hl : (0x66#8 :: rex).length + 3 ≤ 15 := by rw [List.length_cons]; omega
    have hrow' := rowOf_movlhps (p := prefixesOfRun mode rex) (by rw [h.prefixesOfRun_alone]; rfl) htop
    have hdec := decode_run_short (h.run (ps := []) nofun) (by rw [List.nil_append]; omega) hrow' csD d
    rw [rexR_run, rexB_run, show (prefixesOfRun mode rex).lock = false by rw [h.prefixesOfRun_alone]; rfl] at hdec
    exact ⟨⟨_, decode_run_short hrun hl (hrow false) csD d⟩, ⟨_, decode_run_short hrun hl (hrow true) csD d⟩, _, hdec⟩
  · obtain ⟨f, rest, hf⟩ :=
      exists_form hd mode csD (prefixesOfRun mode (0x66#8 :: rex)) (topField modrm) (lowField modrm)
    exact ⟨_, _, decode_66_form h (topField_ne_three hmod) hf⟩

/-! ## Too long (30_encoding.md R73) -/

theorem commonChecks_tooLong (s : State) {len : Nat} (h : 15 < len) (lock : Bool) :
    commonChecks s len lock = some (.gp 0#32) := if_pos h

theorem exec_movhpd_tooLong {i : Instr} {x : RegNo} {m : MemOp} {len : Nat} {lock : Bool} {kind : AccessKind}
    (hi : i = .movhpdLoad x m len lock ∧ kind = .read ∨ i = .movhpdStore x m len lock ∧ kind = .write) (s : State)
    (h : 15 < len) : exec i s = .fault (.exception (.gp 0#32)) :=
  (exec_movhpd_fault hi s _).mpr ((operandChecks_error s m len lock kind _).mpr (.inl (commonChecks_tooLong s h lock)))

/-- Settles O36: the window ends before the bytes that the row and the form call for. -/
theorem tooLongInstructionRaisesGeneralProtection : Obligations.TooLongInstructionRaisesGeneralProtection := by
  refine ⟨fun mode csD pre store mod reg rm d hpre hd hlong => ?_, fun s x m len lock h =>
    ⟨exec_movhpd_tooLong (.inl ⟨rfl, rfl⟩) s h, exec_movhpd_tooLong (.inr ⟨rfl, rfl⟩) s h⟩⟩
  by_cases hmod : mod = 3#2
  · rw [if_pos hmod] at hlong
    exact decode_run_opcode_tooLong hpre.1 hlong csD store _ d
  · rw [if_neg hmod] at hd hlong
    have htail : tailBytes mode csD pre (mod ++ reg ++ rm) d = sibLen (sizeOf mode csD pre) rm
        + dispCount (sizeOf mode csD pre) mod rm ((d.headD 0#8).extractLsb' 0 3) := by
      rw [tailBytes, topField_append, lowField_append]
      rfl
    exact decode_run_form_tooLong hpre.1
      (rowOf_p66_mem (column_run_of_66 hpre) (by rwa [topField_append]) store) (htail ▸ hd) (htail ▸ hlong)

end Sys2Proof.Machine
end

