-- ==== Sys2Proof/Proofs/AddressingTables.lean ====
section
/-! SUPPORT. The addressing tables: the form and the effective address of each row, with its default segment and its length. -/

namespace Sys2Proof.Machine

/-! ## Effective addresses modulo the address size (30_encoding.md R71) -/

/-- The base register of a form as a number. -/
def baseNat (s : State) : Option RegNo → Nat
  | none => 0
  | some b => (s.readGpr b).toNat

/-- The scaled index of a form as a number. -/
def scaledNat (s : State) : Option (RegNo × BitVec 2) → Nat
  | none => 0
  | some (i, scale) => (s.readGpr i).toNat * 2 ^ scale.toNat

theorem two_pow_sizeBits_dvd (size : AddrSize) : 2 ^ sizeBits size ∣ 2 ^ 64 :=
  Nat.pow_dvd_pow 2 (by cases size <;> decide)

/-- A number modulo 2^64 is itself modulo the address size. -/
theorem mod_quad_modEq (size : AddrSize) (n : Nat) : n % 2 ^ 64 ≡ n [MOD 2 ^ sizeBits size] :=
  (Nat.mod_modEq n (2 ^ 64)).of_dvd (two_pow_sizeBits_dvd size)

theorem addrReg_modEq (s : State) (size : AddrSize) (r : RegNo) :
    (s.addrReg size r).toNat ≡ (s.readGpr r).toNat [MOD 2 ^ sizeBits size] := by
  rw [State.addrReg, truncTo_toNat]
  exact Nat.mod_modEq _ _

theorem indexValue_modEq (s : State) (f : AddrForm) :
    (s.indexValue f).toNat ≡ scaledNat s f.index [MOD 2 ^ sizeBits f.size] := by
  unfold State.indexValue
  rcases f.index with _ | ⟨i, scale⟩
  · exact Nat.ModEq.refl 0
  · dsimp only
    rw [BitVec.toNat_shiftLeft, Nat.shiftLeft_eq]
    exact (mod_quad_modEq f.size _).trans ((addrReg_modEq s f.size i).mul_right _)

theorem baseValue_modEq (s : State) {f : AddrForm} (h : f.ipRel = false) (len : Nat) :
    (s.baseValue f len).toNat ≡ baseNat s f.base [MOD 2 ^ sizeBits f.size] := by
  unfold State.baseValue
  rw [h]
  cases f.base with
  | none => exact Nat.ModEq.refl 0
  | some b => exact addrReg_modEq s f.size b

theorem baseValue_ipRel_modEq (s : State) {f : AddrForm} (h : f.ipRel = true) (len : Nat) :
    (s.baseValue f len).toNat ≡ s.ip.toNat + len [MOD 2 ^ sizeBits f.size] := by
  unfold State.baseValue
  rw [h, if_pos rfl, BitVec.toNat_add, BitVec.toNat_ofNat, Nat.add_mod_mod]
  exact mod_quad_modEq f.size _

theorem effectiveAddress_mod (s : State) (f : AddrForm) (len : Nat) {n : Nat}
    (hb : (s.baseValue f len).toNat ≡ n [MOD 2 ^ sizeBits f.size]) :
    (effectiveAddress s f len).toNat = (n + scaledNat s f.index + f.disp.toNat) % 2 ^ sizeBits f.size := by
  rw [effectiveAddress_toNat, BitVec.toNat_add, BitVec.toNat_add]
  have hsum := (hb.add (indexValue_modEq s f)).add_right f.disp.toNat
  exact (mod_quad_modEq f.size _).trans (((mod_quad_modEq f.size _).add_right _).trans hsum)

/-- A form of registers and a displacement. -/
theorem effectiveAddress_regs (s : State) {f : AddrForm} (h : f.ipRel = false) (len : Nat) :
    (effectiveAddress s f len).toNat
      = (baseNat s f.base + scaledNat s f.index + f.disp.toNat) % 2 ^ sizeBits f.size :=
  effectiveAddress_mod s f len (baseValue_modEq s h len)

/-- A form relative to the next instruction. -/
theorem effectiveAddress_ipRel (s : State) {f : AddrForm} (h : f.ipRel = true) (len : Nat) :
    (effectiveAddress s f len).toNat
      = (s.ip.toNat + len + scaledNat s f.index + f.disp.toNat) % 2 ^ sizeBits f.size :=
  effectiveAddress_mod s f len (baseValue_ipRel_modEq s h len)

/-- A sign extension is the value itself modulo its own width. -/
theorem signExtend_modEq {w : Nat} (hw : w ≤ 64) (d : BitVec w) : (d.signExtend 64).toNat ≡ d.toNat [MOD 2 ^ w] := by
  rw [Nat.ModEq, Nat.mod_eq_of_lt d.isLt, ← BitVec.toNat_setWidth]
  congr 1
  refine BitVec.eq_of_getLsbD_eq fun j hj => ?_
  rw [BitVec.getLsbD_setWidth, BitVec.getLsbD_signExtend, if_pos hj]
  simp [hj, show j < 64 by omega]

/-! ## Rows of a table -/

/-- The displacement that mod says beside a base register. -/
def dispQuad (mod : BitVec 2) (d0 : Byte) (wide : Quad) : Quad :=
  if mod = 0#2 then 0#64 else if mod = 1#2 then d0.signExtend 64 else wide

theorem dispQuad_toNat (mod : BitVec 2) (d0 : Byte) (wide : Quad) :
    (dispQuad mod d0 wide).toNat = dispNat mod d0 wide := by
  unfold dispQuad dispNat
  split
  · rfl
  split <;> rfl

theorem dispByMod_cons {read : List Byte → Option (Quad × List Byte)} {d0 : Byte} {bytes rest : List Byte} {wide : Quad}
    (h : read (d0 :: bytes) = some (wide, rest)) (mod : BitVec 2) :
    ∃ left, dispByMod read mod (d0 :: bytes) = some (dispQuad mod d0 wide, left) := by
  unfold dispByMod dispQuad
  split
  · exact ⟨_, rfl⟩
  split
  · exact ⟨_, rfl⟩
  · exact ⟨_, h⟩

/-- What a row of a table says: the register, LOCK, the effective address modulo `2 ^ bits`, the default segment where no
override has an effect, and the length. -/
def TableRow (s : State) (pre : List Byte) (x : RegNo) (ea : Nat → Nat) (bits : Nat) (g : Seg) (total : Nat)
    (x' : RegNo) (m : MemOp) (len : Nat) (lock : Bool) : Prop :=
  x' = x ∧ (lock = true ↔ 0xF0#8 ∈ pre) ∧ (effectiveAddress s m.form len).toNat = ea len % 2 ^ bits
    ∧ m.seg = (lastOverride s.mode pre).getD g ∧ len = total

/-- A row of a table is decoded after any run of prefixes of the 66H column. -/
theorem tableRow_of_form {s : State} {pre : List Byte} (hpre : With66 s.mode pre) {mod : BitVec 2} (hmod : mod ≠ 3#2)
    {r : BitVec 1} (hr : rexBit pre 2 = r) {reg rm : BitVec 3} {d : List Byte} {f : AddrForm}
    (hf : ∃ rest, decodeForm s.mode s.csD (prefixesOfRun s.mode pre) mod rm d = some (f, rest)) {total : Nat}
    (htotal : pre.length + 3 + formBytes (sizeOf s.mode s.csD pre) mod rm d = total) (hl : total ≤ 15) {ea : Nat → Nat}
    {bits : Nat} (hea : ∀ len, (effectiveAddress s f len).toNat = ea len % 2 ^ bits) {g : Seg} (hg : f.defaultSeg = g)
    (store : Bool) :
    FormWith store (decode s.mode s.csD (pre ++ 0x0F#8 :: opByte store :: (mod ++ reg ++ rm) :: d))
      (TableRow s pre (r ++ reg) ea bits g total) := by
  subst hg hr htotal
  obtain ⟨rest, hf⟩ := hf
  have htail : tailBytes s.mode s.csD pre (mod ++ reg ++ rm) d = formBytes (sizeOf s.mode s.csD pre) mod rm d := by
    rw [tailBytes, topField_append, lowField_append]
  have hdec := decode_run_movhpd (modrm := mod ++ reg ++ rm) hpre.1 (column_run_of_66 hpre)
    (by rwa [topField_append]) (by rw [topField_append, lowField_append]; exact hf) (htail ▸ hl) store
  rw [hdec, formWith_movhpdForm, htail, midField_append]
  exact ⟨rfl, decide_eq_true_iff, hea _, rfl, rfl⟩

theorem defaultSeg_some (size : AddrSize) (b : RegNo) (index : Option (RegNo × BitVec 2)) (d : Quad) (ipRel : Bool) :
    AddrForm.defaultSeg ⟨size, some b, index, d, ipRel⟩ = segOfBase b := by
  simp only [AddrForm.defaultSeg, segOfBase, Option.some.injEq]

/-! ## The 16-bit table (30_encoding.md R65) -/

/-- The form of a row of the 16-bit table. -/
def rowForm16 (mod : BitVec 2) (rm : BitVec 3) (d0 : Byte) (wide : Quad) : AddrForm :=
  if mod = 0#2 ∧ rm = 6#3 then ⟨.a16, none, none, wide, false⟩
  else ⟨.a16, some (regs16 rm).1, (regs16 rm).2, dispQuad mod d0 wide, false⟩

theorem form16_row (mod : BitVec 2) (rm : BitVec 3) (d0 d1 : Byte) (d : List Byte) :
    ∃ rest, form16 mod rm (d0 :: d1 :: d) = some (rowForm16 mod rm d0 ((d1 ++ d0).signExtend 64), rest) := by
  unfold form16 rowForm16
  split
  · exact ⟨_, rfl⟩
  · obtain ⟨left, hread⟩ := dispByMod_cons (rest := d) (d0 := d0) (bytes := d1 :: d) (read := takeDisp16) rfl mod
    rw [hread]
    exact ⟨_, rfl⟩

theorem bitVec3_cases (r : BitVec 3) :
    r = 0#3 ∨ r = 1#3 ∨ r = 2#3 ∨ r = 3#3 ∨ r = 4#3 ∨ r = 5#3 ∨ r = 6#3 ∨ r = 7#3 := by
  revert r
  decide

theorem table16_eq (s : State) (rm : BitVec 3) :
    table16 s rm = baseNat s (some (regs16 rm).1) + scaledNat s (regs16 rm).2 := by
  rcases bitVec3_cases rm with rfl | rfl | rfl | rfl | rfl | rfl | rfl | rfl <;>
    simp [table16, regs16, baseNat, scaledNat]

theorem effectiveAddress_rowForm16 (s : State) (mod : BitVec 2) (rm : BitVec 3) (d0 d1 : Byte) (len : Nat) :
    (effectiveAddress s (rowForm16 mod rm d0 ((d1 ++ d0).signExtend 64)) len).toNat
      = (if mod = 0#2 ∧ rm = 6#3 then (d1 ++ d0).toNat
          else table16 s rm + dispNat mod d0 ((d1 ++ d0).signExtend 64)) % 2 ^ 16 := by
  unfold rowForm16
  split
  · rw [effectiveAddress_regs s rfl]
    simp only [baseNat, scaledNat, Nat.zero_add]
    exact signExtend_modEq (by decide) (d1 ++ d0)
  · rw [effectiveAddress_regs s rfl, table16_eq, ← dispQuad_toNat]
    rfl

theorem defaultSeg_rowForm16 (mod : BitVec 2) (rm : BitVec 3) (d0 : Byte) (wide : Quad) :
    (rowForm16 mod rm d0 wide).defaultSeg
      = if (rm = 2#3 ∨ rm = 3#3) ∨ (rm = 6#3 ∧ mod ≠ 0#2) then .ss else .ds := by
  have hbase : ∀ mod rm, ¬ (mod = 0#2 ∧ rm = 6#3) →
      segOfBase (regs16 rm).1 = if (rm = 2#3 ∨ rm = 3#3) ∨ (rm = 6#3 ∧ mod ≠ 0#2) then .ss else .ds := by decide
  unfold rowForm16
  split
  next hrow =>
    obtain ⟨rfl, rfl⟩ := hrow
    rfl
  next hrow => rw [defaultSeg_some, hbase mod rm hrow]

/-- Settles O23: each row is a base with an index or none, but for the disp16 alone of mod = 00B and r/m = 110B. -/
theorem sixteenBitAddressingTable : Obligations.SixteenBitAddressingTable := by
  intro s pre store mod reg rm d0 d1 d hm hpre hcsD hmod hl
  have hsize : sizeOf s.mode s.csD pre = .a16 := by rw [sizeOf, if_neg hm, if_pos hcsD]
  refine tableRow_of_form hpre hmod (rexBit_legacy hm hpre.1 (by decide)) ?_ ?_ hl
    (fun len => effectiveAddress_rowForm16 s mod rm d0 d1 len) (defaultSeg_rowForm16 mod rm d0 _) store
  · rw [decodeForm, size_run, hsize]
    exact form16_row mod rm d0 d1 d
  · rw [hsize, formBytes_a16]

/-! ## The 32- and 64-bit tables without an SIB byte (30_encoding.md R66, R68) -/

/-- The form of a row of the 32- and 64-bit tables, `b` being REX.B. -/
def rowForm32 (size : AddrSize) (long : Bool) (b : BitVec 1) (mod : BitVec 2) (rm : BitVec 3) (d0 : Byte)
    (wide : Quad) : AddrForm :=
  if mod = 0#2 ∧ rm = 5#3 then ⟨size, none, none, wide, long⟩
  else ⟨size, some (b ++ rm), none, dispQuad mod d0 wide, false⟩

theorem form32_row {rm : BitVec 3} (hrm : rm ≠ 4#3) (size : AddrSize) (long : Bool) (p : Prefixes) (mod : BitVec 2)
    (d0 d1 d2 d3 : Byte) (d : List Byte) :
    ∃ rest, form32 size long p mod rm (d0 :: d1 :: d2 :: d3 :: d)
      = some (rowForm32 size long p.rexB mod rm d0 ((d3 ++ d2 ++ d1 ++ d0).signExtend 64), rest) := by
  unfold form32 rowForm32
  rw [if_neg hrm]
  split
  · exact ⟨_, rfl⟩
  · obtain ⟨left, hread⟩ :=
      dispByMod_cons (rest := d) (d0 := d0) (bytes := d1 :: d2 :: d3 :: d) (read := takeDisp32) rfl mod
    rw [hread]
    exact ⟨_, rfl⟩

theorem effectiveAddress_rowForm32 (s : State) (size : AddrSize) (long : Bool) (b : BitVec 1) (mod : BitVec 2)
    (rm : BitVec 3) (d0 : Byte) (wide : Quad) (len : Nat) :
    (effectiveAddress s (rowForm32 size long b mod rm d0 wide) len).toNat
      = (if mod = 0#2 ∧ rm = 5#3 then (if long then s.ip.toNat + len else 0) + wide.toNat
          else (s.readGpr (b ++ rm)).toNat + dispNat mod d0 wide) % 2 ^ sizeBits size := by
  unfold rowForm32
  split
  · cases long with
    | true =>
      rw [effectiveAddress_ipRel s rfl]
      rfl
    | false =>
      rw [effectiveAddress_regs s rfl]
      rfl
  · rw [effectiveAddress_regs s rfl, ← dispQuad_toNat]
    rfl

theorem defaultSeg_rowForm32 (size : AddrSize) (long : Bool) (b : BitVec 1) (mod : BitVec 2) (rm : BitVec 3)
    (d0 : Byte) (wide : Quad) :
    (rowForm32 size long b mod rm d0 wide).defaultSeg
      = if mod = 0#2 ∧ rm = 5#3 then .ds else segOfBase (b ++ rm) := by
  unfold rowForm32
  split
  · rfl
  · exact defaultSeg_some ..

/-- The decoder's form at an address size of 32 or 64 bits. -/
theorem decodeForm_wide {mode : Mode} {csD : Bool} {pre : List Byte} (hs : sizeOf mode csD pre ≠ .a16) (mod : BitVec 2)
    (rm : BitVec 3) (bytes : List Byte) :
    decodeForm mode csD (prefixesOfRun mode pre) mod rm bytes
      = form32 (sizeOf mode csD pre) (mode == .long64) (prefixesOfRun mode pre) mod rm bytes := by
  rw [decodeForm, size_run]
  cases h : sizeOf mode csD pre with
  | a16 => exact absurd h hs
  | a32 | a64 => rfl

theorem decodeForm_row32 {mode : Mode} {csD : Bool} {pre : List Byte} (hs : sizeOf mode csD pre ≠ .a16) {rm : BitVec 3}
    (hrm : rm ≠ 4#3) (mod : BitVec 2) (d0 d1 d2 d3 : Byte) (d : List Byte) :
    ∃ rest, decodeForm mode csD (prefixesOfRun mode pre) mod rm (d0 :: d1 :: d2 :: d3 :: d)
      = some (rowForm32 (sizeOf mode csD pre) (mode == .long64) (rexBit pre 0) mod rm d0
          ((d3 ++ d2 ++ d1 ++ d0).signExtend 64), rest) := by
  rw [decodeForm_wide hs, ← rexB_run mode]
  exact form32_row hrm ..

/-- Outside 64-bit mode the address size is 32 with CS.D = 1 and no 67H, or CS.D = 0 and 67H. -/
theorem sizeOf_eq_a32 {mode : Mode} {csD : Bool} {pre : List Byte} (hm : mode ≠ .long64)
    (h : csD = !decide (0x67#8 ∈ pre)) : sizeOf mode csD pre = .a32 := by
  rw [sizeOf, if_neg hm, h]
  cases decide (0x67#8 ∈ pre) <;> rfl

/-- Settles O24: each row is a base, but for the disp32 alone of mod = 00B and r/m = 101B. -/
theorem thirtyTwoBitAddressingTable : Obligations.ThirtyTwoBitAddressingTable := by
  intro s pre store mod reg rm d0 d1 d2 d3 d hm hpre hcsD hmod hrm hl
  have hsize := sizeOf_eq_a32 hm hcsD
  have hwide : sizeOf s.mode s.csD pre ≠ .a16 := by rw [hsize]; decide
  refine tableRow_of_form hpre hmod (rexBit_legacy hm hpre.1 (by decide)) (decodeForm_row32 hwide hrm mod d0 d1 d2 d3 d)
    (by rw [formBytes_wide hwide mod hrm]) hl (fun len => ?_) ?_ store
  · rw [effectiveAddress_rowForm32, hsize, beq_eq_false_iff_ne.mpr hm, rexBit_legacy hm hpre.1 (by decide)]
    split
    · simp only [Bool.false_eq_true, if_false, Nat.zero_add]
      exact signExtend_modEq (by decide) (d3 ++ d2 ++ d1 ++ d0)
    · rfl
  · have hseg : ∀ mod rm, rm ≠ 4#3 → (if mod = 0#2 ∧ rm = 5#3 then .ds else segOfBase (0#1 ++ rm))
        = if rm = 5#3 ∧ mod ≠ 0#2 then Seg.ss else .ds := by decide
    rw [defaultSeg_rowForm32, rexBit_legacy hm hpre.1 (by decide), hseg mod rm hrm]

theorem sizeOf_long64 (csD : Bool) (pre : List Byte) :
    sizeOf .long64 csD pre = if 0x67#8 ∈ pre then .a32 else .a64 := if_pos rfl

theorem sizeOf_long64_wide (csD : Bool) (pre : List Byte) :
    sizeOf .long64 csD pre ≠ .a16
      ∧ sizeBits (sizeOf .long64 csD pre) = if 0x67#8 ∈ pre then 32 else 64 := by
  rw [sizeOf_long64]
  split <;> decide

/-- Settles O26: each row is a base, but for the RIP-relative one of mod = 00B and r/m = 101B. -/
theorem sixtyFourBitAddressingTable : Obligations.SixtyFourBitAddressingTable := by
  intro s pre store mod reg rm d0 d1 d2 d3 d hm hpre hmod hrm hl
  obtain ⟨hwide, hbits⟩ := sizeOf_long64_wide s.csD pre
  rw [← hm] at hwide hbits
  refine tableRow_of_form hpre hmod rfl (decodeForm_row32 hwide hrm mod d0 d1 d2 d3 d)
    (by rw [formBytes_wide hwide mod hrm]) hl (fun len => ?_) (defaultSeg_rowForm32 ..) store
  rw [effectiveAddress_rowForm32, hbits, hm]
  rfl

/-! ## The tables with an SIB byte (30_encoding.md R67, R68) -/

/-- The form of a row of the SIB tables, `i` being the index number and `b` REX.B. -/
def rowFormSib (size : AddrSize) (i : RegNo) (b : BitVec 1) (mod scale : BitVec 2) (base : BitVec 3) (d0 : Byte)
    (wide : Quad) : AddrForm :=
  if mod = 0#2 ∧ base = 5#3 then ⟨size, none, if i = 4#4 then none else some (i, scale), wide, false⟩
  else ⟨size, some (b ++ base), if i = 4#4 then none else some (i, scale), dispQuad mod d0 wide, false⟩

theorem formSib_row (size : AddrSize) (p : Prefixes) (mod scale : BitVec 2) (index base : BitVec 3)
    (d0 d1 d2 d3 : Byte) (d : List Byte) :
    ∃ rest, formSib size p mod ((scale ++ index ++ base) :: d0 :: d1 :: d2 :: d3 :: d)
      = some (rowFormSib size (p.rexX ++ index) p.rexB mod scale base d0 ((d3 ++ d2 ++ d1 ++ d0).signExtend 64),
          rest) := by
  unfold formSib rowFormSib
  simp only [topField_append, midField_append, lowField_append, regNo]
  split
  · exact ⟨_, rfl⟩
  · obtain ⟨left, hread⟩ :=
      dispByMod_cons (rest := d) (d0 := d0) (bytes := d1 :: d2 :: d3 :: d) (read := takeDisp32) rfl mod
    rw [hread]
    exact ⟨_, rfl⟩

theorem scaledNat_index (s : State) (i : RegNo) (scale : BitVec 2) :
    scaledNat s (if i = 4#4 then none else some (i, scale)) = indexNat s i scale := by
  unfold indexNat
  split <;> rfl

theorem effectiveAddress_rowFormSib (s : State) (size : AddrSize) (i : RegNo) (b : BitVec 1) (mod scale : BitVec 2)
    (base : BitVec 3) (d0 : Byte) (wide : Quad) (len : Nat) :
    (effectiveAddress s (rowFormSib size i b mod scale base d0 wide) len).toNat
      = ((if mod = 0#2 ∧ base = 5#3 then wide.toNat
          else (s.readGpr (b ++ base)).toNat + dispNat mod d0 wide) + indexNat s i scale) % 2 ^ sizeBits size := by
  unfold rowFormSib
  split
  · rw [effectiveAddress_regs s rfl]
    simp only [scaledNat_index, baseNat, Nat.zero_add, Nat.add_comm]
  · rw [effectiveAddress_regs s rfl, ← dispQuad_toNat]
    simp only [scaledNat_index, baseNat, Nat.add_right_comm]

theorem defaultSeg_rowFormSib (size : AddrSize) (i : RegNo) (b : BitVec 1) (mod scale : BitVec 2) (base : BitVec 3)
    (d0 : Byte) (wide : Quad) :
    (rowFormSib size i b mod scale base d0 wide).defaultSeg
      = if mod = 0#2 ∧ base = 5#3 then .ds else segOfBase (b ++ base) := by
  unfold rowFormSib
  split
  · rfl
  · exact defaultSeg_some ..

theorem decodeForm_rowSib {mode : Mode} {csD : Bool} {pre : List Byte} (hs : sizeOf mode csD pre ≠ .a16)
    (mod scale : BitVec 2) (index base : BitVec 3) (d0 d1 d2 d3 : Byte) (d : List Byte) :
    ∃ rest, decodeForm mode csD (prefixesOfRun mode pre) mod 4#3
        ((scale ++ index ++ base) :: d0 :: d1 :: d2 :: d3 :: d)
      = some (rowFormSib (sizeOf mode csD pre) (rexBit pre 1 ++ index) (rexBit pre 0) mod scale base d0
          ((d3 ++ d2 ++ d1 ++ d0).signExtend 64), rest) := by
  rw [decodeForm_wide hs, ← rexB_run mode, ← rexX_run mode]
  exact formSib_row ..

/-- An SIB row is one byte longer than its displacement says. -/
theorem sibRow_total {size : AddrSize} (hs : size ≠ .a16) (k : Nat) (mod scale : BitVec 2) (index base : BitVec 3)
    (d : List Byte) :
    k + 3 + formBytes size mod 4#3 ((scale ++ index ++ base) :: d)
      = k + 4 + if mod = 0#2 ∧ base = 5#3 then 4 else dispLen mod 4 := by
  rw [formBytes_sib hs, lowField_append]
  omega

/-- Settles O25: base, scaled index and displacement, or no base for mod = 00B and base 101B. -/
theorem sibAddressingTable : Obligations.SibAddressingTable := by
  intro s pre store mod scale reg index base d0 d1 d2 d3 d hm hpre hcsD hmod hl
  have hsize := sizeOf_eq_a32 hm hcsD
  have hwide : sizeOf s.mode s.csD pre ≠ .a16 := by rw [hsize]; decide
  refine tableRow_of_form hpre hmod (rexBit_legacy hm hpre.1 (by decide))
    (decodeForm_rowSib hwide mod scale index base d0 d1 d2 d3 d) (sibRow_total hwide ..) hl (fun len => ?_) ?_ store
  · rw [effectiveAddress_rowFormSib, hsize, rexBit_legacy hm hpre.1 (by decide), rexBit_legacy hm hpre.1 (by decide)]
    split
    · exact (signExtend_modEq (by decide) (d3 ++ d2 ++ d1 ++ d0)).add_right _
    · rfl
  · rw [defaultSeg_rowFormSib, rexBit_legacy hm hpre.1 (by decide)]

/-- Settles O27: as in the SIB table, with REX.X and REX.B before index and base. -/
theorem sixtyFourBitSibTable : Obligations.SixtyFourBitSibTable := by
  intro s pre store mod scale reg index base d0 d1 d2 d3 d hm hpre hmod hl
  obtain ⟨hwide, hbits⟩ := sizeOf_long64_wide s.csD pre
  rw [← hm] at hwide hbits
  refine tableRow_of_form hpre hmod rfl (decodeForm_rowSib hwide mod scale index base d0 d1 d2 d3 d)
    (sibRow_total hwide ..) hl (fun len => ?_) (defaultSeg_rowFormSib ..) store
  rw [effectiveAddress_rowFormSib, hbits]

end Sys2Proof.Machine
end

