-- ==== Sys2Proof/Proofs/CompletionConditions.lean ====
section
/-! SUPPORT. When a MOVHPD completes, and when it raises #UD. -/

namespace Sys2Proof.Machine

/-! ## Completion (70_reset_and_hazards.md R132) -/

theorem alignmentChecked_iff (s : State) : AlignmentChecked s ↔ s.alignmentCheck = true := by
  simp [AlignmentChecked, State.alignmentCheck, and_assoc]

/-- The converse of `State.misaligned_eq_false`. -/
theorem aligned_of_misaligned_eq_false {s : State} {la : Quad} (h : s.misaligned la = false) (hck : AlignmentChecked s) :
    la.toNat % 8 = 0 := by
  have hlow : la.extractLsb' 0 3 = 0#3 := by
    by_contra hne
    rw [(State.misaligned_iff s la).mpr ⟨(alignmentChecked_iff s).mp hck, hne⟩] at h
    cases h
  simpa using congrArg BitVec.toNat hlow

/-- The converse of `operandChecks_of_ready`: checks that pass leave nothing of R132 open. -/
theorem ready_of_operandChecks {s : State} {m : MemOp} {len : Nat} {lock : Bool} {kind : AccessKind} {la : Quad}
    {pas : List Quad} (h : operandChecks s m len lock kind = .ok (la, pas)) :
    lock = false ∧ ∃ pa, OperandReady s m len kind pa := by
  obtain ⟨hcommon, haddr⟩ := (operandChecks_ok ..).mp h
  obtain ⟨hlen, hlock, hem, hos, hsse, hts⟩ := (commonChecks_none ..).mp hcommon
  obtain ⟨hlinear, hmis, hall⟩ := (addressChecks_ok ..).mp haddr
  obtain ⟨hseg, rfl⟩ := (linearAddress_ok ..).mp hlinear
  obtain ⟨hcount, htrans⟩ := (translateAll_ok ..).mp hall
  refine ⟨hlock, fun k => pas.getD k 0#64, hlen, ⟨hsse, hem, hos, hts⟩, hseg, aligned_of_misaligned_eq_false hmis,
    fun k hk => ?_⟩
  have hk' : k < pas.length := hcount ▸ hk
  rw [← linearByte_eq, htrans k hk']
  exact congrArg Translated.mapped (List.getD_eq_getElem pas 0#64 hk').symm

theorem operandChecks_ok_iff_ready (s : State) (m : MemOp) (len : Nat) (lock : Bool) (kind : AccessKind) :
    (∃ la pas, operandChecks s m len lock kind = .ok (la, pas)) ↔ lock = false ∧ ∃ pa, OperandReady s m len kind pa := by
  refine ⟨fun ⟨la, pas, h⟩ => ready_of_operandChecks h, ?_⟩
  rintro ⟨rfl, pa, h⟩
  exact ⟨_, _, operandChecks_of_ready s m len kind pa h⟩

/-- Both forms complete where their operand checks pass. -/
theorem exec_movhpd_completes {i : Instr} {x : RegNo} {m : MemOp} {len : Nat} {lock : Bool} {kind : AccessKind}
    (hi : i = .movhpdLoad x m len lock ∧ kind = .read ∨ i = .movhpdStore x m len lock ∧ kind = .write) (s : State) :
    (∃ t, exec i s = .next t) ↔ ∃ la pas, operandChecks s m len lock kind = .ok (la, pas) := by
  rcases hi with ⟨rfl, rfl⟩ | ⟨rfl, rfl⟩
  · constructor
    · rintro ⟨t, h⟩
      obtain ⟨la, pas, hok, -⟩ := (execMovhpdLoad_next x m len lock s t).mp h
      exact ⟨la, pas, hok⟩
    · rintro ⟨la, pas, hok⟩
      exact ⟨_, (execMovhpdLoad_next x m len lock s _).mpr ⟨la, pas, hok, rfl⟩⟩
  · constructor
    · rintro ⟨t, h⟩
      obtain ⟨la, pas, hok, -⟩ := (execMovhpdStore_next x m len lock s t).mp h
      exact ⟨la, pas, hok⟩
    · rintro ⟨la, pas, hok⟩
      exact ⟨_, (execMovhpdStore_next x m len lock s _).mpr ⟨la, pas, hok, rfl⟩⟩

/-- Settles O30: the checks pass exactly where the operand is ready and there is no LOCK. -/
theorem movhpdCompletesExactlyWhenReady : Obligations.MovhpdCompletesExactlyWhenReady := by
  intro s x m len lock
  exact ⟨(exec_movhpd_completes (.inl ⟨rfl, rfl⟩) s).trans (operandChecks_ok_iff_ready s m len lock .read),
    (exec_movhpd_completes (.inr ⟨rfl, rfl⟩) s).trans (operandChecks_ok_iff_ready s m len lock .write)⟩

/-! ## #UD (60_exceptions.md R101) -/

theorem commonChecks_ud_iff {s : State} {len : Nat} (hl : len ≤ 15) (lock : Bool) :
    commonChecks s len lock = some .ud
      ↔ lock = true ∨ s.em = true ∨ s.osfxsr = false ∨ s.params.hasSse2 = false := by
  have hlen : ¬ Config.maxInsnBytes < len := Nat.not_lt.mpr hl
  rw [commonChecks, if_neg hlen]
  by_cases hud : (lock || s.em || !s.osfxsr || !s.params.hasSse2) = true
  · rw [if_pos hud]
    simpa [or_assoc] using hud
  · rw [if_neg hud]
    have hnot : ¬ (lock = true ∨ s.em = true ∨ s.osfxsr = false ∨ s.params.hasSse2 = false) := by
      simpa [or_assoc] using hud
    refine iff_of_false ?_ hnot
    split <;> exact nofun

/-- Segmentation, paging and alignment raise no #UD. -/
theorem addressChecks_ne_ud (s : State) (g : Seg) (size : AddrSize) (ea : Quad) (kind : AccessKind) :
    addressChecks s g size ea kind ≠ .error .ud := by
  intro h
  rcases addressChecks_error s g size ea kind _ h with hl | ⟨la, -, ⟨hac, -⟩ | hp⟩
  · rcases linearAddress_error s g size ea _ kind _ hl with he | he <;> cases he
  · cases hac
  · obtain ⟨_, _, -, -, hpf, -⟩ := (translateAll_error s la _ kind _).mp hp
    cases hpf

theorem exec_movhpd_ud_iff {i : Instr} {x : RegNo} {m : MemOp} {len : Nat} {lock : Bool} {kind : AccessKind}
    (hi : i = .movhpdLoad x m len lock ∧ kind = .read ∨ i = .movhpdStore x m len lock ∧ kind = .write) (s : State)
    (hl : len ≤ 15) :
    exec i s = .fault (.exception .ud) ↔ lock = true ∨ s.em = true ∨ s.osfxsr = false ∨ s.params.hasSse2 = false := by
  rw [exec_movhpd_fault hi, operandChecks_error, commonChecks_ud_iff hl]
  exact or_iff_left fun h => addressChecks_ne_ud _ _ _ _ _ h.2

/-- Settles O37: of the checks only the common ones raise #UD. -/
theorem invalidOpcodeExactlyWhen : Obligations.InvalidOpcodeExactlyWhen :=
  fun s _ _ _ _ hl => ⟨exec_movhpd_ud_iff (.inl ⟨rfl, rfl⟩) s hl, exec_movhpd_ud_iff (.inr ⟨rfl, rfl⟩) s hl⟩

end Sys2Proof.Machine
end

