-- ==== Sys2Proof/Proofs/LoadAndStorePairs.lean ====
section
/-! SUPPORT. A load and a store of one operand, one after the other: both name the same physical addresses, and each undoes or returns what the other did. -/

namespace Sys2Proof.Machine

/-! ## The operand of the second form -/

theorem KeepsControl.linearByte_eq {s t : State} (h : KeepsControl s t) : linearByte t = linearByte s := by
  obtain ⟨hctl, -⟩ := h
  rw [← hctl]
  rfl

theorem KeepsControl.translate_eq {s t : State} (h : KeepsControl s t) : translate t = translate s := by
  obtain ⟨hctl, -⟩ := h
  rw [← hctl]
  rfl

theorem KeepsControl.operandLinear_eq {s t : State} (h : KeepsControl s t) : operandLinear t = operandLinear s := by
  obtain ⟨hctl, -⟩ := h
  rw [← hctl]
  rfl

/-- Only a RIP-relative form reads IP and the length of the instruction (30_encoding.md R68, R71). -/
theorem KeepsControl.effectiveAddress_eq {s t : State} (h : KeepsControl s t) {f : AddrForm} (hf : f.ipRel = false)
    (len len' : Nat) : effectiveAddress t f len' = effectiveAddress s f len := by
  obtain ⟨hctl, -⟩ := h
  rw [← hctl]
  simp only [effectiveAddress, State.baseValue, hf]
  rfl

/-- Checks that pass answer the linear address of the operand and the physical addresses of its bytes. -/
theorem operandChecks_ok_addresses {s : State} {m : MemOp} {len : Nat} {lock : Bool} {kind : AccessKind} {la : Quad}
    {pas : List Quad} (h : operandChecks s m len lock kind = .ok (la, pas)) :
    la = operandLinear s m.seg (effectiveAddress s m.form len) kind
      ∧ translateAll s la Config.operandBytes kind = .ok pas := by
  obtain ⟨-, haddr⟩ := (operandChecks_ok ..).mp h
  obtain ⟨hlinear, -, hall⟩ := (addressChecks_ok ..).mp haddr
  exact ⟨((linearAddress_ok ..).mp hlinear).2, hall⟩

/-- Two accesses to one operand, with one linear address and one translation for both kinds, have the same physical
addresses. -/
theorem operandChecks_same_addresses {s t : State} (hst : KeepsControl s t) {m : MemOp} (hm : m.form.ipRel = false)
    {len len' : Nat} {lock lock' : Bool} {kind kind' : AccessKind}
    (hlinear : operandLinear s m.seg (effectiveAddress s m.form len) kind'
      = operandLinear s m.seg (effectiveAddress s m.form len) kind)
    (htrans : ∀ la, translate s la kind' = translate s la kind) {la la' : Quad} {pas pas' : List Quad}
    (h : operandChecks s m len lock kind = .ok (la, pas))
    (h' : operandChecks t m len' lock' kind' = .ok (la', pas')) : pas = pas' := by
  obtain ⟨hla, hall⟩ := operandChecks_ok_addresses h
  obtain ⟨hla', hall'⟩ := operandChecks_ok_addresses h'
  have hsame : la' = la := by
    rw [hla', hst.operandLinear_eq, hst.effectiveAddress_eq hm len len', hlinear, hla]
  have hthere : translateAll t la Config.operandBytes kind' = .ok pas := by
    rw [translateAll_ok] at hall ⊢
    simpa only [hst.linearByte_eq, hst.translate_eq, htrans] using hall
  rw [hsame, hthere] at hall'
  exact Except.ok.inj hall'

/-! ## A load, then the store -/

/-- Writing the byte that is there changes nothing. -/
theorem Memory.write_read_self {m : List Host.Cell} (hwf : Memory.wf m = true) (pa : Quad) :
    Memory.write m pa.toNat (Memory.read m pa.toNat) = m := by
  refine Memory.ext _ _ (Memory.wf_write m _ _ pa.isLt hwf) hwf fun y => ?_
  rw [Memory.read_write m _ y _ hwf]
  split
  next hy => rw [hy]
  next => rfl

/-- So does writing back the bytes of several addresses, which need not differ. -/
theorem Memory.writeAll_readBytes_self {s : State} (hwf : Memory.wf s.mem = true) (pas : List Quad) :
    Memory.writeAll s.mem pas (s.readBytes pas) = s.mem := by
  induction pas with
  | nil => rfl
  | cons pa pas ih =>
    calc Memory.writeAll s.mem (pa :: pas) (s.readBytes (pa :: pas))
        = Memory.writeAll (Memory.write s.mem pa.toNat (s.readByte pa)) pas (s.readBytes pas) := rfl
      _ = Memory.writeAll s.mem pas (s.readBytes pas) := by rw [State.readByte, Memory.write_read_self hwf]
      _ = s.mem := ih

/-- The bytes of the quadword read at eight addresses are the bytes read there. -/
theorem State.leBytes_readQuad (s : State) {pas : List Quad} (hl : pas.length = 8) :
    leBytes Config.operandBytes (s.readQuad pas).toNat = s.readBytes pas := by
  have hlen : (s.readBytes pas).length = Config.operandBytes := (List.length_map _).trans hl
  refine List.ext_getElem (by rw [leBytes_length, hlen]) fun k hk hk' => ?_
  have hkp : k < pas.length := by simpa [State.readBytes] using hk'
  rw [leBytes_quad _ k hk, State.readQuad_byte s pas k hl hkp]
  simp [State.readBytes]

/-- Settles O31: the store puts back the bytes that the load read. -/
theorem loadThenStoreRestoresMemory : Obligations.LoadThenStoreRestoresMemory := by
  intro s t u x m len len' lock lock' hwf hrip hlinear htrans hload hstore
  obtain ⟨la, pas, hread, rfl⟩ := (execMovhpdLoad_next x m len lock s t).mp hload
  obtain ⟨la', pas', hwrite, rfl⟩ := (execMovhpdStore_next x m len' lock' _ u).mp hstore
  obtain rfl := operandChecks_same_addresses (keepsControl_load s x _ len) hrip hlinear htrans hread hwrite
  refine ⟨?_, rfl⟩
  rw [State.advanceIp_mem, State.writeQuad_mem, State.advanceIp_readXmm, State.readXmm_writeXmmHigh_self,
    highQuad_append, s.leBytes_readQuad (operandChecks_length _ _ _ _ _ _ _ hread)]
  exact Memory.writeAll_readBytes_self hwf _

/-! ## A store, then the load -/

/-- With paging off, a quadword written to an operand is read back from it. -/
theorem State.readQuad_writeQuad {s : State} (hwf : Memory.wf s.mem = true) (hoff : s.paging = none) {la : Quad}
    {pas : List Quad} (hpas : translateAll s la Config.operandBytes .write = .ok pas) (v : Quad) :
    (s.writeQuad pas v).readQuad pas = v := by
  have hw : memWrite s la 8 v = .ok (s.writeQuad pas v) := (memWrite_ok ..).mpr ⟨pas, hpas, rfl⟩
  obtain ⟨-, -, hr⟩ := mixedWidthReadsAfterWrite s _ la v hwf hoff hw
  obtain ⟨pas', hpas', hv⟩ := (memRead_ok ..).mp hr
  obtain ⟨hpaging, hlin⟩ := memWrite_frame hw
  rw [translateAll_off hoff, ← hlin] at hpas
  rw [translateAll_off (hpaging.trans hoff)] at hpas'
  rw [← Except.ok.inj (hpas.symm.trans hpas')] at hv
  exact hv.symm

/-- A register given its own high quadword is as it was. -/
theorem State.writeXmmHigh_highQuad_self (s : State) (x : RegNo) :
    (s.writeXmmHigh x (highQuad (s.readXmm x))).xmm = s.xmm := by
  rw [State.writeXmmHigh_xmm, quads_eq]
  exact Vector.set_getElem_self x.isLt

/-- Settles O32: with paging off the load reads the quadword at the addresses where the store put it. -/
theorem storeThenLoadReturnsTheQuadword : Obligations.StoreThenLoadReturnsTheQuadword := by
  intro s t u x y m len len' lock lock' hwf hrip hoff hlinear hstore hload
  obtain ⟨la, pas, hwrite, rfl⟩ := (execMovhpdStore_next x m len lock s t).mp hstore
  obtain ⟨la', pas', hread, rfl⟩ := (execMovhpdLoad_next y m len' lock' _ u).mp hload
  have htrans (a : Quad) : translate s a .read = translate s a .write := by
    rw [translate_off s a _ hoff, translate_off s a _ hoff]
  obtain rfl := operandChecks_same_addresses (keepsControl_store s pas _ len) hrip hlinear.symm htrans hwrite hread
  obtain ⟨-, hpas⟩ := operandChecks_ok_addresses hwrite
  have hback : ((s.writeQuad pas (highQuad (s.readXmm x))).advanceIp len).readQuad pas = highQuad (s.readXmm x) :=
    State.readQuad_writeQuad hwf hoff hpas _
  rw [hback]
  constructor
  · rw [State.advanceIp_readXmm, State.readXmm_writeXmmHigh_self, highQuad_append]
  · rintro rfl
    exact State.writeXmmHigh_highQuad_self ((s.writeQuad pas _).advanceIp len) x

end Sys2Proof.Machine
end

