-- ==== Sys2Proof/Proofs/Exceptions.lean ====
section
/-! SUPPORT. Which exceptions the checks of one MOVHPD, an instruction and a step raise, which of two is reported, and what CR0.TS and the privilege level have to do with them. -/

namespace Sys2Proof.Machine

/-! ## Paging and alignment (60_exceptions.md R108, R109) -/

/-- Paging faults only where it is on, and not in real-address mode (20_memory.md R36). -/
theorem translate_pageFault {s : State} {la : Quad} {kind : AccessKind} {code : BitVec 32}
    (h : translate s la kind = .pageFault code) : s.paging ≠ none ∧ s.mode ≠ .real := by
  constructor
  · intro hoff
    rw [translate_off s la kind hoff] at h
    cases h
  · intro hreal
    rw [translate_real s la kind hreal] at h
    cases h

/-- Translation raises nothing but #PF. -/
theorem translateAll_error_pf {s : State} {la : Quad} {n : Nat} {kind : AccessKind} {e : Exc}
    (h : translateAll s la n kind = .error e) :
    (∃ code linear, e = .pf code linear) ∧ s.paging ≠ none ∧ s.mode ≠ .real := by
  obtain ⟨j, code, -, hfail, he, -⟩ := (translateAll_error s la n kind e).mp h
  exact ⟨⟨code, _, he⟩, translate_pageFault hfail⟩

/-- One byte that does not translate is enough for a #PF, which need not be that byte's. -/
theorem translateAll_of_failing {s : State} {la : Quad} {n k : Nat} {kind : AccessKind} {code : BitVec 32} (hk : k < n)
    (hfail : translate s (byteLinear s la k) kind = .pageFault code) :
    ∃ code linear, translateAll s la n kind = .error (.pf code linear) := by
  cases ht : translateAll s la n kind with
  | error e =>
    obtain ⟨⟨code, linear, rfl⟩, -⟩ := translateAll_error_pf ht
    exact ⟨code, linear, rfl⟩
  | ok pas =>
    obtain ⟨hlen, hmapped⟩ := (translateAll_ok s la n kind pas).mp ht
    have hmap := hmapped k (hlen ▸ hk)
    rw [linearByte_eq, hfail] at hmap
    cases hmap

/-- With `ac_before_pf` set, alignment is tested before the bytes are translated (92 D14). -/
theorem addressChecks_ac_first {s : State} {g : Seg} {size : AddrSize} {ea la : Quad} {kind : AccessKind}
    (hlin : linearAddress s g size ea Config.operandBytes kind = .ok la) (hfirst : s.params.acBeforePf = true)
    (hmis : s.misaligned la = true) : addressChecks s g size ea kind = .error (.ac 0#32) := by
  simp [addressChecks, hlin, hfirst, hmis]

/-- Settles O44: segmentation passes, so the first of the two tests that is made reports its exception. -/
theorem alignmentAgainstPageFault : Obligations.AlignmentAgainstPageFault := by
  intro s x m len i kind hl hs hi hseg hchecked hodd hfail
  obtain ⟨k, code, hk, hfail⟩ := hfail
  have hlin := (linearAddress_ok s m.seg m.form.size (effectiveAddress s m.form len) kind _).mpr ⟨hseg, rfl⟩
  split
  next hfirst =>
    exact (exec_movhpd_fault_of_sseReady hi hl hs _).mpr
      (addressChecks_ac_first hlin hfirst ((s.misaligned_operand _).mpr ⟨hchecked, hodd⟩))
  next hlast =>
    obtain ⟨code', linear, hpf⟩ := translateAll_of_failing (n := Config.operandBytes) hk hfail
    exact ⟨code', linear, (exec_movhpd_fault_of_sseReady hi hl hs _).mpr
      (addressChecks_of_translateAll_error hlin (fun h => hlast h.1) hpf)⟩

/-! ## The exceptions of the checks (60_exceptions.md R100) -/

/-- What steps 4 to 6 of 40_movhpd.md R92 raise, with what #AC and #PF need. -/
theorem addressChecks_error_cases {s : State} {g : Seg} {size : AddrSize} {ea : Quad} {kind : AccessKind} {e : Exc}
    (h : addressChecks s g size ea kind = .error e) :
    e = .ss 0#32 ∨ e = .gp 0#32 ∨ (e = .ac 0#32 ∧ AlignmentChecked s)
      ∨ (∃ code linear, e = .pf code linear) ∧ s.paging ≠ none ∧ s.mode ≠ .real := by
  rcases addressChecks_error s g size ea kind e h with hseg | ⟨la, -, ⟨rfl, hmis⟩ | hpage⟩
  · rcases linearAddress_error s g size ea _ kind e hseg with rfl | rfl
    · exact .inl rfl
    · exact .inr (.inl rfl)
  · exact .inr (.inr (.inl ⟨rfl, ((s.misaligned_operand la).mp hmis).1⟩))
  · exact .inr (.inr (.inr (translateAll_error_pf hpage)))

/-- Every exception of the checks stands in the table of R100, and a #PF needs paging. -/
theorem operandChecks_error_listed {s : State} {m : MemOp} {len : Nat} {lock : Bool} {kind : AccessKind} {e : Exc}
    (h : operandChecks s m len lock kind = .error e) :
    ListedException s.mode e ∧ (e.vector = 14 → s.paging ≠ none) := by
  rcases (operandChecks_error s m len lock kind e).mp h with hcommon | ⟨-, haddr⟩
  · rcases commonChecks_some s len lock e hcommon with ⟨rfl, -⟩ | rfl | rfl
    · exact ⟨.inr (.inr (.inr (.inl rfl))), nofun⟩
    · exact ⟨.inl rfl, nofun⟩
    · exact ⟨.inr (.inl rfl), nofun⟩
  · rcases addressChecks_error_cases haddr with rfl | rfl | ⟨rfl, -, -, -, hreal⟩ | ⟨⟨code, linear, rfl⟩, hon, hreal⟩
    · exact ⟨.inr (.inr (.inl rfl)), nofun⟩
    · exact ⟨.inr (.inr (.inr (.inl rfl))), nofun⟩
    · exact ⟨.inr (.inr (.inr (.inr ⟨hreal, .inl rfl⟩))), nofun⟩
    · exact ⟨.inr (.inr (.inr (.inr ⟨hreal, .inr ⟨code, linear, rfl⟩⟩))), fun _ => hon⟩

theorem Exc.vector_mem (e : Exc) : e.vector ∈ [6, 7, 12, 13, 14, 17] := by
  cases e <;> simp [Exc.vector]

/-- #UD and #NM alone have no error code. -/
theorem Exc.errorCode_eq_none (e : Exc) : e.errorCode = none ↔ e.vector = 6 ∨ e.vector = 7 := by
  cases e <;> simp [Exc.errorCode, Exc.vector]

/-- Settles O45: the checks pass and the instruction completes, or their exception is that of the instruction. -/
theorem onlyTheListedExceptions : Obligations.OnlyTheListedExceptions := by
  intro s x m len lock i hform
  have hkind : ∃ kind : AccessKind,
      i = .movhpdLoad x m len lock ∧ kind = .read ∨ i = .movhpdStore x m len lock ∧ kind = .write := by
    rcases hform with h | h
    · exact ⟨.read, .inl ⟨h, rfl⟩⟩
    · exact ⟨.write, .inr ⟨h, rfl⟩⟩
  obtain ⟨kind, hi⟩ := hkind
  cases hc : operandChecks s m len lock kind with
  | ok r => exact .inl ((exec_movhpd_completes hi s).mpr ⟨r.1, r.2, hc⟩)
  | error e =>
    obtain ⟨hlisted, hpaging⟩ := operandChecks_error_listed hc
    exact .inr ⟨e, (exec_movhpd_fault hi s e).mpr hc, hlisted, hpaging, e.vector_mem, e.errorCode_eq_none⟩

/-! ## #NM (60_exceptions.md R102) -/

theorem commonChecks_nm_iff (s : State) (len : Nat) (lock : Bool) :
    commonChecks s len lock = some .nm ↔
      len ≤ 15 ∧ s.ts = true ∧ lock = false ∧ s.em = false ∧ s.osfxsr = true ∧ s.params.hasSse2 = true := by
  by_cases hl : len ≤ 15
  case neg =>
    have hlong : Config.maxInsnBytes < len := Nat.lt_of_not_le hl
    simp [commonChecks, hlong, hl]
  have hlen : ¬ Config.maxInsnBytes < len := Nat.not_lt.mpr hl
  rw [commonChecks, if_neg hlen]
  by_cases hud : (lock || s.em || !s.osfxsr || !s.params.hasSse2) = true
  · rw [if_pos hud]
    refine iff_of_false nofun ?_
    rintro ⟨-, -, hlock, hem, hos, hsse⟩
    simp [hlock, hem, hos, hsse] at hud
  · rw [if_neg hud]
    simp only [Bool.or_eq_true, Bool.not_eq_true', not_or, Bool.not_eq_true, Bool.not_eq_false] at hud
    obtain ⟨⟨⟨hlock, hem⟩, hos⟩, hsse⟩ := hud
    cases s.ts <;> simp [hl, hlock, hem, hos, hsse]

/-- Of the checks only the common ones raise #NM. -/
theorem operandChecks_nm_iff (s : State) (m : MemOp) (len : Nat) (lock : Bool) (kind : AccessKind) :
    operandChecks s m len lock kind = .error .nm ↔
      len ≤ 15 ∧ s.ts = true ∧ lock = false ∧ s.em = false ∧ s.osfxsr = true ∧ s.params.hasSse2 = true := by
  rw [operandChecks_error, commonChecks_nm_iff]
  refine or_iff_left fun ⟨_, haddr⟩ => ?_
  rcases addressChecks_error_cases haddr with h | h | ⟨h, -⟩ | ⟨⟨_, _, h⟩, -⟩ <;> cases h

/-- Settles O38: the causes of #UD come before CR0.TS and everything about the operand after it (92 D14). -/
theorem deviceNotAvailableExactlyWhen : Obligations.DeviceNotAvailableExactlyWhen := by
  intro s x m len lock hl
  rw [exec_movhpd_fault (.inl ⟨rfl, rfl⟩), exec_movhpd_fault (.inr ⟨rfl, rfl⟩), operandChecks_nm_iff,
    operandChecks_nm_iff]
  exact ⟨and_iff_right hl, and_iff_right hl⟩

/-! ## Where an exception comes from -/

/-- The exception of an instruction is that of a MOVHPD's checks, or the #GP(0) or #UD of a reserved encoding. -/
theorem exec_exception_cases {i : Instr} {s : State} {e : Exc} (h : exec i s = .fault (.exception e)) :
    (∃ m len lock kind, operandChecks s m len lock kind = .error e) ∨ e = .gp 0#32 ∨ e = .ud := by
  cases i with
  | movhpdLoad x m len lock => exact .inl ⟨m, len, lock, .read, (exec_movhpd_fault (.inl ⟨rfl, rfl⟩) s e).mp h⟩
  | movhpdStore x m len lock => exact .inl ⟨m, len, lock, .write, (exec_movhpd_fault (.inr ⟨rfl, rfl⟩) s e).mp h⟩
  | reserved66Load _ _ len | reserved66Store _ _ len | reservedF2Load _ len | reservedF2Store _ len
  | reservedF3Store _ len | reservedPlainStore _ _ len =>
    obtain rfl := Fault.exception.inj (Host.Outcome.fault.inj ((raiseReserved_eq len s).symm.trans h))
    right
    split
    · exact .inl rfl
    · exact .inr rfl
  | movhpsLoad | movlhps | movhpsStore | movshdup => cases h

/-- The fetch of a byte raises what segmentation raises, or #PF (20_memory.md R47). -/
theorem fetchAddress_error_cases {s : State} {k : Nat} {e : Exc} (h : fetchAddress s k = .error e) :
    e = .ss 0#32 ∨ e = .gp 0#32 ∨ ∃ code linear, e = .pf code linear := by
  unfold fetchAddress at h
  split at h
  next e' hseg =>
    obtain rfl := Except.error.inj h
    rcases linearAddress_error s _ _ _ _ _ _ hseg with he | he
    · exact .inl he
    · exact .inr (.inl he)
  next la _ =>
    split at h
    next code _ => exact .inr (.inr ⟨code, _, (Except.error.inj h).symm⟩)
    next => cases h

/-- The fault that ends a fetch is that of one of its bytes. -/
theorem fetchFrom_fault {s : State} {k n : Nat} {e : Exc} (h : (fetchFrom s k n).2 = some e) :
    ∃ j, fetchAddress s j = .error e := by
  induction n generalizing k with
  | zero => cases h
  | succ n ih =>
    rw [fetchFrom] at h
    cases ha : fetchAddress s k with
    | error e' =>
      rw [ha] at h
      obtain rfl := Option.some.inj h
      exact ⟨k, ha⟩
    | ok pa =>
      rw [ha] at h
      exact ih h

/-- The exception of a step is that of the instruction it decoded, of its length, or of the fetch of one of its
bytes. -/
theorem step_exception_cases {s : State} {e : Exc} (h : step s = .fault (.exception e)) :
    (∃ i, fetchDecode s = .instr i ∧ exec i s = .fault (.exception e)) ∨ e = .gp 0#32
      ∨ ∃ k, fetchAddress s k = .error e := by
  unfold step raise at h
  split at h
  case isFalse => cases h
  cases hd : fetchDecode s with
  | instr i =>
    rw [hd] at h
    exact .inl ⟨i, rfl, h⟩
  | tooLong =>
    rw [hd] at h
    exact .inr (.inl (Fault.exception.inj (Host.Outcome.fault.inj h)).symm)
  | incomplete =>
    rw [hd] at h
    obtain rfl := Fault.exception.inj (Host.Outcome.fault.inj h)
    exact .inr (.inr (fetchFrom_fault (fetchFault_of_incomplete s hd)))
  | otherOpcode =>
    rw [hd] at h
    cases h

/-! ## States that fetch the same -/

/-- Two states that fetch and decode the same window. -/
structure SameFetch (s t : State) : Prop where
  mode : t.mode = s.mode
  csD : t.csD = s.csD
  mem : t.mem = s.mem
  address : ∀ k, fetchAddress t k = fetchAddress s k

theorem SameFetch.fetchFrom_eq {s t : State} (h : SameFetch s t) (k n : Nat) : fetchFrom t k n = fetchFrom s k n := by
  induction n generalizing k with
  | zero => rfl
  | succ n ih => simp only [fetchFrom, State.readByte, h.address, h.mem, ih]

theorem SameFetch.fetchDecode_eq {s t : State} (h : SameFetch s t) : fetchDecode t = fetchDecode s := by
  rw [fetchDecode, fetchWindow, h.fetchFrom_eq, h.mode, h.csD]
  rfl

theorem SameFetch.fetchFault_eq {s t : State} (h : SameFetch s t) : fetchFault t = fetchFault s := by
  rw [fetchFault, fetchWindow, h.fetchFrom_eq]
  rfl

/-! ## CR0.TS cleared (60_exceptions.md R102, R112) -/

/-- A state with CR0.TS, bit 3, cleared, and nothing else changed. -/
def State.clearTs (s : State) : State := { s with cr0 := s.cr0 &&& ~~~8#64 }

@[simp] theorem State.clearTs_ts (s : State) : s.clearTs.ts = false := by
  simp [State.ts, State.clearTs]

/-- The mode depends on CR0 through bit 0, PE, alone. -/
@[simp] theorem State.clearTs_mode (s : State) : s.clearTs.mode = s.mode := by
  have hpe : s.clearTs.pe = s.pe := by simp [State.pe, State.clearTs]
  rw [State.mode, hpe]
  rfl

@[simp] theorem State.clearTs_modeDefined (s : State) : s.clearTs.modeDefined = s.modeDefined := rfl

@[simp] theorem State.clearTs_privilege (s : State) : s.clearTs.privilege = s.privilege := by
  rw [State.privilege, State.clearTs_mode]
  rfl

theorem linearAddress_clearTs (s : State) (g : Seg) (size : AddrSize) (ea : Quad) (n : Nat) (kind : AccessKind) :
    linearAddress s.clearTs g size ea n kind = linearAddress s g size ea n kind := by
  have hdefault : segCheckDefault s.clearTs g size ea n kind = segCheckDefault s g size ea n kind := by
    simp only [segCheckDefault, State.descriptorRefuses, State.checksDescriptor, State.clearTs_mode]
    cases g <;> rfl
  simp only [linearAddress, State.clearTs_mode, segCheck, hdefault]
  cases g <;> rfl

theorem translate_clearTs (s : State) (la : Quad) (kind : AccessKind) :
    translate s.clearTs la kind = translate s la kind := by
  simp only [translate, State.clearTs_mode, State.clearTs_privilege]
  rfl

theorem linearByte_clearTs (s : State) (la : Quad) (k : Nat) : linearByte s.clearTs la k = linearByte s la k := by
  simp only [linearByte, State.clearTs_mode]

theorem codeOffset_clearTs (s : State) : s.clearTs.codeOffset = s.codeOffset := by
  simp only [State.codeOffset, State.clearTs_mode]
  rfl

/-- The fetch does not read CR0.TS. -/
theorem sameFetch_clearTs (s : State) : SameFetch s s.clearTs where
  mode := s.clearTs_mode
  csD := rfl
  mem := rfl
  address k := by
    simp only [fetchAddress, linearAddress_clearTs, translate_clearTs, linearByte_clearTs, codeOffset_clearTs]

/-- No instruction raises #NM with CR0.TS clear. -/
theorem exec_ne_nm {s : State} (h : s.ts = false) (i : Instr) : exec i s ≠ .fault (.exception .nm) := by
  intro hexec
  rcases exec_exception_cases hexec with ⟨m, len, lock, kind, hc⟩ | he | he
  · obtain ⟨-, hts, -⟩ := (operandChecks_nm_iff s m len lock kind).mp hc
    rw [h] at hts
    cases hts
  · cases he
  · cases he

/-- Settles O46: with CR0.TS cleared the fetch reads the same bytes and the cause of #NM is gone, whether or not the
step of `s` was #NM. -/
theorem restartAfterDeviceNotAvailable : Obligations.RestartAfterDeviceNotAvailable := by
  intro s i hmode hd _
  have hstep : step s.clearTs = exec i s.clearTs :=
    step_of_fetchDecode hmode ((sameFetch_clearTs s).fetchDecode_eq.trans hd)
  exact ⟨hstep, fun h => exec_ne_nm s.clearTs_ts i (hstep.symm.trans h)⟩

/-! ## Another privilege level (60_exceptions.md R117) -/

/-- A state with another CPL. -/
def State.withCpl (s : State) (c : BitVec 2) : State := { s with cpl := c }

/-- `translate` answers the same with CPL `c` as in `s`. -/
def TranslatesTheSame (s : State) (c : BitVec 2) : Prop :=
  ∀ (la : Quad) (kind : AccessKind), translate (s.withCpl c) la kind = translate s la kind

/-- Steps 4 and 5 of 40_movhpd.md R92: the address checks without the alignment test. -/
def translatedOperand (s : State) (g : Seg) (size : AddrSize) (ea : Quad) (kind : AccessKind) :
    Except Exc (Quad × List Quad) :=
  match linearAddress s g size ea Config.operandBytes kind with
  | .error e => .error e
  | .ok la =>
    match translateAll s la Config.operandBytes kind with
    | .error e => .error e
    | .ok pas => .ok (la, pas)

/-- The alignment test does nothing but raise #AC(0), wherever it stands. -/
theorem addressChecks_eq_ac_or (s : State) (g : Seg) (size : AddrSize) (ea : Quad) (kind : AccessKind) :
    addressChecks s g size ea kind = .error (.ac 0#32)
      ∨ addressChecks s g size ea kind = translatedOperand s g size ea kind := by
  unfold addressChecks translatedOperand
  cases linearAddress s g size ea Config.operandBytes kind with
  | error e => exact .inr rfl
  | ok la =>
    dsimp only
    split
    next => exact .inl rfl
    next =>
      cases translateAll s la Config.operandBytes kind with
      | error e => exact .inr rfl
      | ok pas =>
        cases s.misaligned la with
        | true => exact .inl rfl
        | false => exact .inr rfl

theorem translateFrom_withCpl {s : State} {c : BitVec 2} (h : TranslatesTheSame s c) (la : Quad) (kind : AccessKind)
    (k n : Nat) : translateFrom (s.withCpl c) la kind k n = translateFrom s la kind k n := by
  have hbyte (k : Nat) : linearByte (s.withCpl c) la k = linearByte s la k := rfl
  induction n generalizing k with
  | zero => rfl
  | succ n ih => simp only [translateFrom, hbyte, h _ kind, ih]

theorem translatedOperand_withCpl {s : State} {c : BitVec 2} (h : TranslatesTheSame s c) (g : Seg) (size : AddrSize)
    (ea : Quad) (kind : AccessKind) :
    translatedOperand (s.withCpl c) g size ea kind = translatedOperand s g size ea kind := by
  have hlin : linearAddress (s.withCpl c) g size ea Config.operandBytes kind
      = linearAddress s g size ea Config.operandBytes kind := rfl
  simp only [translatedOperand, hlin, translateAll, translateFrom_withCpl h]

/-- The privilege level shows in the checks as #AC(0) alone. -/
theorem operandChecks_withCpl {s : State} {c : BitVec 2} (h : TranslatesTheSame s c) (m : MemOp) (len : Nat)
    (lock : Bool) (kind : AccessKind) :
    operandChecks (s.withCpl c) m len lock kind = operandChecks s m len lock kind
      ∨ operandChecks s m len lock kind = .error (.ac 0#32)
      ∨ operandChecks (s.withCpl c) m len lock kind = .error (.ac 0#32) := by
  have hcommon : commonChecks (s.withCpl c) len lock = commonChecks s len lock := rfl
  have hea : effectiveAddress (s.withCpl c) m.form len = effectiveAddress s m.form len := rfl
  simp only [operandChecks, hcommon, hea]
  cases commonChecks s len lock with
  | some e => exact .inl rfl
  | none =>
    dsimp only
    rcases addressChecks_eq_ac_or s m.seg m.form.size (effectiveAddress s m.form len) kind with hac | hs
    · exact .inr (.inl hac)
    rcases addressChecks_eq_ac_or (s.withCpl c) m.seg m.form.size (effectiveAddress s m.form len) kind with hac | ht
    · exact .inr (.inr hac)
    · exact .inl (ht.trans ((translatedOperand_withCpl h ..).trans hs.symm))

/-- With the same answer of the checks both forms do the same at the other privilege level. -/
theorem exec_movhpd_withCpl {i : Instr} {x : RegNo} {m : MemOp} {len : Nat} {lock : Bool} {kind : AccessKind}
    (hi : i = .movhpdLoad x m len lock ∧ kind = .read ∨ i = .movhpdStore x m len lock ∧ kind = .write) {s : State}
    {c : BitVec 2} (h : operandChecks (s.withCpl c) m len lock kind = operandChecks s m len lock kind) :
    exec i (s.withCpl c) = mapNext (fun t => t.withCpl c) (exec i s) := by
  rcases hi with ⟨rfl, rfl⟩ | ⟨rfl, rfl⟩
  · simp only [exec, execMovhpdLoad, h]
    cases operandChecks s m len lock .read <;> rfl
  · simp only [exec, execMovhpdStore, h]
    cases operandChecks s m len lock .write <;> rfl

/-- The outcome at CPL `c` is the outcome `o` with that CPL, or one of the two is #AC(0). -/
def SameButForAlignment (c : BitVec 2) (o o' : Host.Outcome State Fault Refusal) : Prop :=
  o' = mapNext (fun t => t.withCpl c) o ∨ o = .fault (.exception (.ac 0#32)) ∨ o' = .fault (.exception (.ac 0#32))

theorem exec_movhpd_sameButForAlignment {i : Instr} {x : RegNo} {m : MemOp} {len : Nat} {lock : Bool}
    {kind : AccessKind}
    (hi : i = .movhpdLoad x m len lock ∧ kind = .read ∨ i = .movhpdStore x m len lock ∧ kind = .write) {s : State}
    {c : BitVec 2} (h : TranslatesTheSame s c) : SameButForAlignment c (exec i s) (exec i (s.withCpl c)) := by
  rcases operandChecks_withCpl h m len lock kind with hsame | hac | hac
  · exact .inl (exec_movhpd_withCpl hi hsame)
  · exact .inr (.inl ((exec_movhpd_fault hi s _).mpr hac))
  · exact .inr (.inr ((exec_movhpd_fault hi (s.withCpl c) _).mpr hac))

theorem exec_sameButForAlignment {s : State} {c : BitVec 2} (h : TranslatesTheSame s c) (i : Instr) :
    SameButForAlignment c (exec i s) (exec i (s.withCpl c)) := by
  cases i with
  | movhpdLoad x m len lock => exact exec_movhpd_sameButForAlignment (.inl ⟨rfl, rfl⟩) h
  | movhpdStore x m len lock => exact exec_movhpd_sameButForAlignment (.inr ⟨rfl, rfl⟩) h
  | reserved66Load _ _ len | reserved66Store _ _ len | reservedF2Load _ len | reservedF2Store _ len
  | reservedF3Store _ len | reservedPlainStore _ _ len =>
    exact .inl ((raiseReserved_eq len _).trans (congrArg (mapNext _) (raiseReserved_eq len s).symm))
  | movhpsLoad | movlhps | movhpsStore | movshdup => exact .inl rfl

/-- The fetch reads the privilege level through `translate` alone. -/
theorem sameFetch_withCpl {s : State} {c : BitVec 2} (h : TranslatesTheSame s c) : SameFetch s (s.withCpl c) where
  mode := rfl
  csD := rfl
  mem := rfl
  address k := by
    have hlin : linearAddress (s.withCpl c) .cs .a32 (s.withCpl c).codeOffset (k + 1) .fetch
        = linearAddress s .cs .a32 s.codeOffset (k + 1) .fetch := rfl
    have hbyte (la : Quad) : linearByte (s.withCpl c) la k = linearByte s la k := rfl
    simp only [fetchAddress, hlin, hbyte, h _ .fetch]

theorem step_sameButForAlignment {s : State} {c : BitVec 2} (h : TranslatesTheSame s c) :
    SameButForAlignment c (step s) (step (s.withCpl c)) := by
  have hmode : (s.withCpl c).modeDefined = s.modeDefined := rfl
  unfold step
  rw [hmode, (sameFetch_withCpl h).fetchDecode_eq, (sameFetch_withCpl h).fetchFault_eq]
  split
  · cases fetchDecode s with
    | instr i => exact exec_sameButForAlignment h i
    | tooLong | incomplete | otherOpcode => exact .inl rfl
  · exact .inl rfl

/-- #AC comes from the checks of a MOVHPD, with alignment checking on. -/
theorem alignmentChecked_of_step_ac {s : State} {code : BitVec 32} (h : step s = .fault (.exception (.ac code))) :
    AlignmentChecked s := by
  rcases step_exception_cases h with ⟨i, -, hexec⟩ | he | ⟨k, hfetch⟩
  · rcases exec_exception_cases hexec with ⟨m, len, lock, kind, hc⟩ | he | he
    · rcases (operandChecks_error s m len lock kind _).mp hc with hcommon | ⟨-, haddr⟩
      · rcases commonChecks_some s len lock _ hcommon with ⟨he, -⟩ | he | he <;> cases he
      · rcases addressChecks_error_cases haddr with he | he | ⟨-, hchecked⟩ | ⟨⟨_, _, he⟩, -⟩
        · cases he
        · cases he
        · exact hchecked
        · cases he
    · cases he
    · cases he
  · cases he
  · rcases fetchAddress_error_cases hfetch with he | he | ⟨_, _, he⟩ <;> cases he

/-- Settles O51: a step reads the privilege level in `translate` and in the alignment test. -/
theorem privilegeLevelDoesNotMatter : Obligations.PrivilegeLevelDoesNotMatter := by
  refine ⟨fun s c h => step_sameButForAlignment h, fun s code h => ?_⟩
  obtain ⟨-, -, hprivilege, -⟩ := alignmentChecked_of_step_ac h
  exact hprivilege

end Sys2Proof.Machine
end
